-- ==== Sys2Proof/Word.lean ====
section
/-! DEFINITION. The words of the block (spec/00_scope.md rules R8, R9, R10): every value is unsigned. -/

namespace Sys2Proof

/-- A 32-bit register, a command word, a host bus address or a host data word. -/
abbrev Word := BitVec 32

/-- A symbol: an 8-bit value of the input, or one byte of a buffer (R8, R15). -/
abbrev Byte := BitVec 8

/-- A node index, 9 bits (R8, R48); the arena has the indices 0 to 510. -/
abbrev NodeIx := BitVec 9

/-- A canonical code value, 255 bits (R8, R47). -/
abbrev Code := BitVec 255

/-- A bit string, first (most significant) bit at the head of the list (R10). -/
abbrev BitString := List Bool

end Sys2Proof
end

