-- ==== Sys2Proof/Syntax.lean ====
section
/-! DEFINITION. The command set (spec/30_encoding.md rule R92: one constructor per row of the opcode
table; a command has no operand fields, R91) and the operations a host program is made of (R95, R97). -/

namespace Sys2Proof

/-- The nine commands of R92. -/
inductive Instr where
  | nop
  | clear
  | count
  | build
  | extract
  | assign
  | pack
  | header
  | run
deriving DecidableEq, Repr

/-- One operation of the outside world on the block: a bus transaction `(kind, address, size, data)`
(R97), the POLL of R95 (32-bit reads of `addr` until `(read AND mask) = value`), or a change of the
reset input (R270). A size is a number of bytes; a size no rule allows gets a bus error (R63, R64). -/
inductive BusOp where
  | write (addr : Word) (size : Nat) (data : Word)
  | read (addr : Word) (size : Nat)
  | poll (addr mask value : Word)
  | resetAssert
  | resetRelease
deriving DecidableEq, Repr

end Sys2Proof
end

