-- ==== Sys2Proof/Decode.lean ====
section
/-! DEFINITION. The command word (spec/30_encoding.md rules R90 to R94, spec/40_command_control.md rule
R122): fields, opcode table, decoder and encoder. -/

namespace Sys2Proof

/-- Field OPC of a command word, bits 7:0 (R90). -/
def opcOf (w : Word) : Byte := w.extractLsb' 0 8

/-- Field RSV of a command word, bits 31:8, which must be 0 (R90). -/
def rsvOf (w : Word) : BitVec 24 := w.extractLsb' 8 24

/-- Why a word is no command (R93). -/
inductive DecodeError where
  | reservedBits    -- RSV is not 0
  | unlistedOpcode  -- RSV is 0 and OPC is not in the table of R92
deriving DecidableEq, Repr

/-- The opcode column of R92. -/
def opcodeTable : List (Byte × Instr) :=
  [(0x00, .nop), (0x01, .clear), (0x10, .count), (0x11, .build), (0x12, .extract), (0x13, .assign),
   (0x14, .pack), (0x15, .header), (0x20, .run)]

/-- The row of R92 with opcode `c`, if there is one. -/
def lookupOpcode (c : Byte) : Option Instr :=
  (opcodeTable.find? fun row => row.1 == c).map Prod.snd

/-- Decode a command word (R122): legal when RSV = 0 and OPC is listed. Total on all words. -/
def decode (w : Word) : Except DecodeError Instr :=
  if rsvOf w = 0 then
    match lookupOpcode (opcOf w) with
    | some i => .ok i
    | none => .error .unlistedOpcode
  else .error .reservedBits

/-- The opcode of a command (R92). -/
def opcode : Instr → Byte
  | .nop => 0x00
  | .clear => 0x01
  | .count => 0x10
  | .build => 0x11
  | .extract => 0x12
  | .assign => 0x13
  | .pack => 0x14
  | .header => 0x15
  | .run => 0x20

/-- The word of a command: RSV zero, OPC its opcode (R90, R92). -/
def encode (i : Instr) : Word := (0 : BitVec 24) ++ opcode i

/-- The instruction the decoder reads from the low `nbits` bits of `w` (bits above are 0; a command is
one 32-bit word, R94). -/
def decodeTableWord (nbits w : Nat) : Option Instr :=
  if w % 2 ^ nbits < 2 ^ 32 then
    match decode (BitVec.ofNat 32 (w % 2 ^ nbits)) with
    | .ok i => some i
    | .error _ => none
  else none

end Sys2Proof
end

