-- ==== Sys2Proof/Config.lean ====
section
/-! DEFINITION. What the specification fixes for every block (R7), the suggested parameter values (R6),
and the free values: constants with no body, about which nothing can be proved. -/

namespace Sys2Proof

/-- Number of byte values (R7). -/
abbrev Config.alphabet : Nat := 256

/-- Number of node records: 256 leaves and 255 internal nodes (R7, R48). -/
abbrev Config.nodeCount : Nat := 511

/-- The largest number of distinct symbols that uses the sparse header (R7, R102). -/
abbrev Config.sparseMax : Nat := 127

/-- The suggested IN_MAX of R6. DESIGN CHOICE (log 1): only `State.reset` uses it. -/
abbrev Config.defaultInMax : Word := 65536

/-- The suggested OBUF_SIZE of R6. DESIGN CHOICE (log 1): only `State.reset` uses it. -/
abbrev Config.defaultObufSize : Word := 262144

/-- FREE VALUE (log 6): the word of an unspecified read (U5, R270) or an unspecified register (U11);
the argument is the state's counter. -/
opaque Config.freeWord : Nat → Word

/-- FREE VALUE (log 5): how many steps pass between the acceptance of a command and its completion
step (R281, U16: finite, unspecified). -/
opaque Config.completionDelay : Nat → Nat

/-- FREE VALUE (log 3): the unspecified contents of a buffer after a reset event (U4), as a list of
(offset, byte) pairs; offsets outside the buffer are dropped by the operation that uses it. -/
opaque Config.resetImage : Nat → List Host.Cell

end Sys2Proof
end

