-- ==== Sys2Proof/Machine/State.lean ====
section
/-! DEFINITION. The state of the block (spec/10_state.md), the reasons a step can stop, and the state
after reset (R53, R271). -/

namespace Sys2Proof.Machine

/-- STATUS.STAGE (R26); the reserved value 7 is never written (U7). -/
inductive Stage where
  | idle | counted | built | extracted | assigned | packed | done
deriving DecidableEq, Repr

/-- The error codes of R241; codes 7 to 15 are never written (U8). -/
inductive ErrCode where
  | none | illegalCmd | sequence | inLen | emptyInput | lookup | outOverflow
deriving DecidableEq, Repr

/-- A node record (R48). -/
structure Node where
  valid  : Bool
  isLeaf : Bool
  sym    : Byte
  weight : Word
  left   : NodeIx
  right  : NodeIx
deriving DecidableEq, Repr

/-- The record with every field 0. -/
abbrev Node.empty : Node := ⟨false, false, 0, 0, 0, 0⟩

/-- A table indexed by a byte value (R42 to R47). -/
abbrev Table (α : Type) := Vector α Config.alphabet

/-- The node arena (R48). -/
abbrev Arena := Vector Node Config.nodeCount

/-- A buffer: (offset, byte) pairs, offsets rising, no pair with the byte an unlisted offset reads as. -/
abbrev Memory := List Host.Cell

/-- What the bus answers to one host access (R66): the data of a read (0 for a write) and whether the
access got a bus error response. -/
structure BusReply where
  data     : Word
  busError : Bool
deriving DecidableEq, Repr

/-- The block: architectural state, then the model's own four fields. -/
structure State where
  /-- STATUS.BUSY (R23) -/
  busy        : Bool
  /-- STATUS.DONE (R24) -/
  done        : Bool
  /-- STATUS.ERR (R25) -/
  err         : Bool
  /-- STATUS.ERRCODE (R25, R241) -/
  errCode     : ErrCode
  /-- STATUS.STAGE (R26) -/
  stage       : Stage
  /-- STATUS.DEGEN (R27) -/
  degen       : Bool
  /-- STATUS.WBUSY (R28) -/
  wbusy       : Bool
  /-- STATUS.DENSE (R29) -/
  dense       : Bool
  /-- CTRL.IRQ_EN (R31) -/
  irqEn       : Bool
  /-- IN_LEN (R34) -/
  inLen       : Word
  /-- NSYM (R35) -/
  nsym        : BitVec 9
  /-- ROOT (R36) -/
  root        : NodeIx
  /-- ROOT_WEIGHT (R36) -/
  rootWeight  : Word
  /-- MAXLEN (R37) -/
  maxLen      : Byte
  /-- HDR_LEN (R38) -/
  hdrLen      : BitVec 9
  /-- PAYLOAD_LEN (R39) -/
  payloadLen  : Word
  /-- LEFTOVER (R39) -/
  leftover    : BitVec 3
  /-- OUT_LEN (R40) -/
  outLen      : Word
  /-- ERR_INFO (R41) -/
  errInfo     : Word
  /-- CAP_IN_MAX: the parameter IN_MAX (R6, R33) -/
  capInMax    : Word
  /-- CAP_OBUF_SIZE: the parameter OBUF_SIZE (R6, R33) -/
  capObufSize : Word
  /-- FREQ (R42) -/
  freq        : Table Word
  /-- ORDER (R43) -/
  order       : Table Byte
  /-- LEN (R44) -/
  len         : Table Byte
  /-- CLEN (R45) -/
  clen        : Table Byte
  /-- BLCOUNT (R46) -/
  blcount     : Table (BitVec 9)
  /-- CODE (R47) -/
  code        : Table Code
  /-- NODE (R48) -/
  node        : Arena
  /-- IBUF (R49) -/
  ibuf        : Memory
  /-- OBUF (R50) -/
  obuf        : Memory
  /-- PENDING, the latched command word (R51) -/
  pending     : Word
  /-- the reset input is asserted (R270) -/
  inReset     : Bool
  /-- model: steps left before the completion step (log 5) -/
  delay       : Nat
  /-- model: how many free values have been taken (log 6) -/
  freeCount   : Nat
  /-- model: host operations not yet performed, in program order (log 7) -/
  inbox       : List BusOp
  /-- model: the bus's answers so far, newest first (log 17) -/
  replies     : List BusReply
deriving DecidableEq, Repr

/-- Why the machine stops. Each is safe: no state a run from reset reaches raises one. -/
inductive Fault where
  /-- BUILD with NSYM > 256: it would read an element of ORDER that does not exist. Safe (log 10). -/
  | orderIndex
  /-- EXTRACT, when the walk leaves the arena or goes deeper than 255 levels: it would never end or
  would write a length that LEN cannot hold. Safe (log 11). -/
  | walkDiverges
  /-- HEADER, when its bytes would not fit OBUF. Safe (log 12). -/
  | obufRange
deriving DecidableEq, Repr

/-- Why an instruction has no meaning. -/
inductive Refusal where
  /-- raised by `exec` for a command with no meaning yet (none is left); safe -/
  | notModelled (mnemonic : String)
deriving DecidableEq, Repr

/-- The state right after reset (R52, R53, R271): every register and table 0, the capability registers
at the suggested parameters (log 1), the buffers and PENDING at the values of logs 2 and 4, nothing
queued. -/
def State.reset : State where
  busy := false
  done := false
  err := false
  errCode := .none
  stage := .idle
  degen := false
  wbusy := false
  dense := false
  irqEn := false
  inLen := 0
  nsym := 0
  root := 0
  rootWeight := 0
  maxLen := 0
  hdrLen := 0
  payloadLen := 0
  leftover := 0
  outLen := 0
  errInfo := 0
  capInMax := Config.defaultInMax
  capObufSize := Config.defaultObufSize
  freq := Vector.replicate 256 0
  order := Vector.replicate 256 0
  len := Vector.replicate 256 0
  clen := Vector.replicate 256 0
  blcount := Vector.replicate 256 0
  code := Vector.replicate 256 0
  node := Vector.replicate 511 Node.empty
  ibuf := []
  obuf := []
  pending := 0
  inReset := false
  delay := 0
  freeCount := 0
  inbox := []
  replies := []

end Sys2Proof.Machine
end

