-- ==== Sys2Proof/Machine/Flags.lean ====
section
/-! DEFINITION. The status register: the numbers of its coded fields, the word the host reads, the
interrupt output, and the two fields a stage command computes (DEGEN, DENSE). -/

namespace Sys2Proof.Machine

/-- The 3-bit value of STATUS.STAGE (R26). -/
def Stage.bits : Stage → BitVec 3
  | .idle => 0
  | .counted => 1
  | .built => 2
  | .extracted => 3
  | .assigned => 4
  | .packed => 5
  | .done => 6

/-- The 4-bit value of STATUS.ERRCODE (R241). -/
def ErrCode.bits : ErrCode → BitVec 4
  | .none => 0
  | .illegalCmd => 1
  | .sequence => 2
  | .inLen => 3
  | .emptyInput => 4
  | .lookup => 5
  | .outOverflow => 6

/-- The interrupt output (R30, R255): CTRL.IRQ_EN AND STATUS.DONE. -/
def State.irq (s : State) : Bool := s.irqEn && s.done

/-- The word a host read of STATUS returns (R22); bits 31:15 and bit 3 read 0. -/
def State.statusWord (s : State) : Word :=
  (0 : BitVec 17) ++ BitVec.ofBool s.irq ++ BitVec.ofBool s.dense ++ BitVec.ofBool s.wbusy ++
    BitVec.ofBool s.degen ++ s.stage.bits ++ s.errCode.bits ++ (0 : BitVec 1) ++
    BitVec.ofBool s.err ++ BitVec.ofBool s.done ++ BitVec.ofBool s.busy

/-- The word a host read of CTRL returns (R31): bit 0 IRQ_EN, the rest 0. -/
def State.ctrlWord (s : State) : Word := (BitVec.ofBool s.irqEn).setWidth 32

/-- STATUS.DENSE as ASSIGN writes it (R29, R102, R186): more than 127 distinct symbols. -/
def denseFlag (nsym : Nat) : Bool := Config.sparseMax < nsym

/-- HDR_LEN as ASSIGN computes it (R105). -/
def headerLength (dense : Bool) (maxLen nsym : Nat) : Nat :=
  if dense then 257 else 2 + maxLen + nsym

/-- The control byte of the archive (R101, R201): bits 7:5 LEFTOVER, bit 4 DENSE, bits 3:0 zero. -/
def controlByte (leftover : BitVec 3) (dense : Bool) : Byte :=
  leftover ++ BitVec.ofBool dense ++ (0 : BitVec 4)

end Sys2Proof.Machine
end

