-- ==== Sys2Proof/Machine/Ops.lean ====
section
/-! DEFINITION. The shared operations: tables, buffers, bit strings, sequences, the command frame (R120,
R121, R123, R124), the effects of an error (R245), ClearRun (R127) and the reset event (R270). -/

namespace Sys2Proof.Machine

/-! ### Tables and the arena -/

/-- A vector given element by element. -/
def vecOfFn {α : Type} (n : Nat) (f : Nat → α) : Vector α n :=
  ⟨((List.range n).map f).toArray, by simp⟩

/-- `T[b]` (R12). -/
def Table.look {α : Type} (t : Table α) (b : Byte) : α := t[b.toNat]'b.isLt

/-- `T[b] <- v` (R12). -/
def Table.put {α : Type} (t : Table α) (b : Byte) (v : α) : Table α := t.set b.toNat v b.isLt

/-- The 256 byte values in ascending order. -/
def allBytes : List Byte := (List.range 256).map (BitVec.ofNat 8)

/-- `NODE[n].WEIGHT`, 0 for an index that does not exist. -/
def weightOf (a : Arena) (n : Nat) : Word := (a[n]?.getD Node.empty).weight

/-! ### Buffers -/

/-- What an offset no pair lists reads as. DESIGN CHOICE (log 2): the spec leaves it open (U4). -/
def Memory.blank : Byte := 0

/-- Read the byte at an offset. -/
def Memory.read : Memory → Nat → Byte
  | [], _ => Memory.blank
  | (b, v) :: m, a => if b = a then v else Memory.read m a

/-- Write the byte at an offset, keeping the canonical form. -/
def Memory.write : Memory → Nat → Byte → Memory
  | [], a, v => if v = Memory.blank then [] else [(a, v)]
  | (b, w) :: m, a, v =>
    if a < b then (if v = Memory.blank then (b, w) :: m else (a, v) :: (b, w) :: m)
    else if a = b then (if v = Memory.blank then m else (a, v) :: m)
    else (b, w) :: Memory.write m a v

/-- Write consecutive bytes from offset `o` up. -/
def Memory.writeRange : Memory → Nat → List Byte → Memory
  | m, _, [] => m
  | m, o, v :: vs => Memory.writeRange (m.write o v) (o + 1) vs

/-- The `n` bytes from offset `o` up. -/
def Memory.readRange (m : Memory) : Nat → Nat → List Byte
  | _, 0 => []
  | o, n + 1 => m.read o :: Memory.readRange m (o + 1) n

/-- The canonical form: offsets strictly rising, no pair equal to what an unlisted offset reads as. -/
abbrev Memory.wf (m : Memory) : Prop :=
  m.Pairwise (fun c d => c.1 < d.1) ∧ ∀ c ∈ m, c.2 ≠ Memory.blank

/-- Every listed offset is one of the buffer's (R49, R50, R60). -/
abbrev Memory.within (m : Memory) (size : Nat) : Prop := ∀ c ∈ m, c.1 < size

/-- A buffer of `size` bytes with the contents `image` gives. -/
def Memory.ofImage (size : Nat) (image : List Host.Cell) : Memory :=
  (image.filter fun c => c.1 < size).foldl (fun m c => m.write c.1 c.2) []

/-! ### Bit strings (R10) -/

/-- `bin(v, n)`: the `n`-bit string of `v mod 2^n`, most significant bit first. -/
def bin (v : Nat) : Nat → BitString
  | 0 => []
  | n + 1 => v.testBit n :: bin v n

/-- `val(s)`: the unsigned value of `s` read most significant bit first. -/
def val (s : BitString) : Nat := s.foldl (fun acc b => 2 * acc + b.toNat) 0

/-- `ones(n)`: a string of `n` one bits. -/
def ones (n : Nat) : BitString := List.replicate n true

/-! ### Sequences (R11) -/

/-- `insert_at(q, i, x)`. -/
def insertAt {α : Type} (q : List α) (i : Nat) (x : α) : List α := q.take i ++ x :: q.drop i

/-- Two `pop_tail`s: the tail, the element before it, and what remains. -/
def popTwo {α : Type} (q : List α) : Option (α × α × List α) :=
  match q.reverse with
  | a :: c :: rest => some (a, c, rest.reverse)
  | _ => none

/-- Put `x` at the first position, from the head, whose key is at most that of `x`, or at the tail
(R153). -/
def reinsert {α : Type} (key : α → Nat) (x : α) (q : List α) : List α :=
  insertAt q (q.findIdx fun y => key y ≤ key x) x

/-- `stable_sort_desc(q, key)`: keys descending, elements of equal keys in their old order. -/
def stableSortDesc {α : Type} (key : α → Nat) (q : List α) : List α := q.foldr (reinsert key) []

/-! ### The command frame -/

/-- How a command's check and body end: normally, by `raise e(info)` with what was written before it
kept (R13), or stuck. -/
inductive BodyResult where
  | ok (s : State)
  | raised (e : ErrCode) (info : Word) (s : State)
  | stuck (f : Fault)
deriving DecidableEq, Repr

/-- Go on with `f` unless an error was raised. -/
def BodyResult.andThen : BodyResult → (State → BodyResult) → BodyResult
  | .ok s, f => f s
  | .raised e info s, _ => .raised e info s
  | .stuck r, _ => .stuck r

/-- The errors that abort the run: all but ERR_ILLEGAL_CMD and ERR_SEQUENCE (R245). -/
def ErrCode.aborts : ErrCode → Bool
  | .none => false
  | .illegalCmd => false
  | .sequence => false
  | .inLen => true
  | .emptyInput => true
  | .lookup => true
  | .outOverflow => true

/-- `raise e(info)`: the effects of R245, before the frame's last two lines. -/
def State.takeError (e : ErrCode) (info : Word) (s : State) : State :=
  { s with
    err := true
    errCode := e
    errInfo := info
    stage := if e.aborts then .idle else s.stage
    outLen := if e.aborts then 0 else s.outLen }

/-- The last two lines of the completion step (R121). -/
def State.endCommand (s : State) : State := { s with busy := false, done := true }

/-- The end of a completion step, whether or not an error was raised (R121). -/
def BodyResult.complete : BodyResult → Host.Outcome State Fault Refusal
  | .ok s => .next s.endCommand
  | .raised e info s => .next (s.takeError e info).endCommand
  | .stuck f => .fault f

/-- Acceptance of the word `w` (R120); the completion step follows after `delay` steps. -/
def State.accept (w : Word) (delay : Nat) (s : State) : State :=
  { s with
    pending := w
    busy := true
    done := false
    err := false
    errCode := .none
    errInfo := 0
    delay := delay }

/-- ERR_INFO of ERR_SEQUENCE: `(OPC << 8) | STAGE` (R123, R243). -/
def sequenceInfo (i : Instr) (st : Stage) : Word :=
  ((opcode i).setWidth 32 <<< 8) ||| st.bits.setWidth 32

/-- StageCheck of a command that requires the stage `need`, then its body (R123). -/
def withStage (i : Instr) (need : Stage) (body : State → BodyResult) (s : State) : BodyResult :=
  if s.stage = need then body s else .raised .sequence (sequenceInfo i s.stage) s

/-- ClearRun() (R127). -/
def State.clearRun (s : State) : State :=
  { s with
    freq := Vector.replicate 256 0
    order := Vector.replicate 256 0
    len := Vector.replicate 256 0
    clen := Vector.replicate 256 0
    code := Vector.replicate 256 0
    blcount := Vector.replicate 256 0
    node := Vector.replicate 511 Node.empty
    nsym := 0
    root := 0
    rootWeight := 0
    maxLen := 0
    hdrLen := 0
    payloadLen := 0
    leftover := 0
    outLen := 0
    degen := false
    dense := false }

/-- Asserting the reset input (R270 to R272): the reset state, with the parameters kept (R33), the
buffers and PENDING at free values (U4, U11, log 3), and the input held. -/
def State.resetEvent (s : State) : State :=
  { State.reset with
    capInMax := s.capInMax
    capObufSize := s.capObufSize
    ibuf := Memory.ofImage s.capInMax.toNat (Config.resetImage s.freeCount)
    obuf := Memory.ofImage s.capObufSize.toNat (Config.resetImage (s.freeCount + 1))
    pending := Config.freeWord (s.freeCount + 2)
    freeCount := s.freeCount + 3
    inReset := true
    inbox := s.inbox
    replies := s.replies }

end Sys2Proof.Machine
end

