-- ==== Sys2Proof/Machine/Operands.lean ====
section
/-! DEFINITION. Where the commands take their operands from: a command has no operand field (R91), so
every operand is read from state. -/

namespace Sys2Proof.Machine

/-- The input, `IBUF[0 .. IN_LEN − 1]` in ascending order (R15, R34, R71). -/
def State.input (s : State) : List Byte := s.ibuf.readRange 0 s.inLen.toNat

/-- IN_LEN exceeds the capacity of IBUF (R244). -/
def State.inputTooLong (s : State) : Bool := s.capInMax.toNat < s.inLen.toNat

/-- A byte is present in the run exactly when its count is at least 1 (R42, R181). -/
def State.present (s : State) (b : Byte) : Bool := s.freq.look b ≠ 0

/-- The canonical length ASSIGN gives byte `b` (R180, R182): 0 for an absent byte, the forced 1 for the
only symbol of a degenerate alphabet, else LEN. -/
def State.canonicalLength (s : State) (b : Byte) : Byte :=
  if s.present b then (if s.nsym = 1 then 1 else s.len.look b) else 0

/-- Bucket `n`: the bytes of length `n` in ascending order (R46, R183). -/
def bucket (lengths : Byte → Nat) (n : Nat) : List Byte := allBytes.filter fun b => lengths b = n

end Sys2Proof.Machine
end

