-- ==== Sys2Proof/Machine/BitPacker.lean ====
section
/-! DEFINITION. bit_packer: PACK (spec/46_bit_packer.md). -/

namespace Sys2Proof.Machine

/-- PACK's local state: the bit buffer, the payload bytes written, and OBUF as written so far. -/
structure Packer where
  bits  : BitString
  count : Nat
  obuf  : Memory
deriving DecidableEq, Repr

/-- How a part of PACK ends: it goes on, or an error is raised with OBUF as written so far (R225). -/
inductive PackResult where
  | ok (p : Packer)
  | raised (e : ErrCode) (info : Word) (obuf : Memory)
deriving DecidableEq, Repr

/-- `Emit(v)` (R220, R225), leaving `bits` in the buffer. -/
def emit (hdrLen obufSize : Nat) (v : BitString) (bits : BitString) (p : Packer) : PackResult :=
  if obufSize ≤ hdrLen + p.count then
    .raised .outOverflow (BitVec.ofNat 32 (hdrLen + p.count)) p.obuf
  else
    .ok ⟨bits, p.count + 1, p.obuf.write (hdrLen + p.count) (BitVec.ofNat 8 (val v))⟩

/-- Slice off whole bytes while the buffer holds 8 bits or more (R222); `fuel` bounds how many. -/
def drain (hdrLen obufSize : Nat) : Nat → Packer → PackResult
  | 0, p => .ok p
  | fuel + 1, p =>
    if 8 ≤ p.bits.length then
      match emit hdrLen obufSize (p.bits.take 8) (p.bits.drop 8) p with
      | .ok p' => drain hdrLen obufSize fuel p'
      | .raised e info m => .raised e info m
    else .ok p

/-- The code of byte `b` as a bit string (R47, R184). -/
def State.codeBits (s : State) (b : Byte) : BitString :=
  bin (s.code.look b).toNat (s.clen.look b).toNat

/-- One turn of the loop of R220: look the byte up, append its code, slice. -/
def State.packByte (s : State) (i : Nat) (b : Byte) (p : Packer) : PackResult :=
  if s.clen.look b = 0 then .raised .lookup (BitVec.ofNat 32 i) p.obuf
  else
    let bits := p.bits ++ s.codeBits b
    drain s.hdrLen.toNat s.capObufSize.toNat bits.length { p with bits := bits }

/-- The loop of R220 over the input bytes from index `i` on. -/
def State.packBytes (s : State) : Nat → List Byte → Packer → PackResult
  | _, [], p => .ok p
  | i, b :: bs, p =>
    match s.packByte i b p with
    | .ok p' => State.packBytes s (i + 1) bs p'
    | .raised e info m => .raised e info m

/-- The final partial byte, padded on the right with ones (R223); the buffer is kept. -/
def State.packLast (s : State) (p : Packer) : PackResult :=
  if p.bits.length = 0 then .ok p
  else emit s.hdrLen.toNat s.capObufSize.toNat (p.bits ++ ones (8 - p.bits.length)) p.bits p

/-- Body(PACK) (R220 to R226). -/
def bodyPack (s : State) : BodyResult :=
  if s.inputTooLong then .raised .inLen s.inLen s
  else
    match s.packBytes 0 s.input ⟨[], 0, s.obuf⟩ with
    | .raised e info m => .raised e info { s with obuf := m }
    | .ok p =>
      match s.packLast p with
      | .raised e info m => .raised e info { s with obuf := m }
      | .ok p' =>
        .ok { s with
          obuf := p'.obuf
          leftover := BitVec.ofNat 3 p'.bits.length
          payloadLen := BitVec.ofNat 32 p'.count
          stage := .packed }

/-- PACK: requires STAGE = ASSIGNED (R123, R220). -/
def execPack (s : State) : Host.Outcome State Fault Refusal :=
  (withStage .pack .assigned bodyPack s).complete

end Sys2Proof.Machine
end

