-- ==== Sys2Proof/Machine/CodeAssigner.lean ====
section
/-! DEFINITION. canonical_code_assigner: ASSIGN (spec/44_canonical_code_assigner.md). The numbering is on
unbounded naturals and is narrowed to the 255 bits of CODE at the end. -/

namespace Sys2Proof.Machine

/-- Give the members of bucket `n` consecutive codes from `code` on; answer the next running value
(R184). -/
def assignBucket (n : Nat) : List Byte → Nat → Table Nat → Nat × Table Nat
  | [], code, t => (code, t)
  | b :: bs, code, t => assignBucket n bs (code + 1) (t.put b (code % 2 ^ n))

/-- The numbering loop of R180 from length `n` on, for `k` lengths: number the bucket, then shift the
running value left by one, empty bucket or not (R184). -/
def assignFrom (lengths : Byte → Nat) : Nat → Nat → Nat → Table Nat → Table Nat
  | 0, _, _, t => t
  | k + 1, n, code, t =>
    let r := assignBucket n (bucket lengths n) code t
    assignFrom lengths k (n + 1) (2 * r.1) r.2

/-- The canonical code values of a length table whose largest length is `maxLen` (R184): 0 for a byte of
length 0. -/
def canonicalCodes (lengths : Byte → Nat) (maxLen : Nat) : Table Nat :=
  assignFrom lengths maxLen 1 0 (Vector.replicate 256 0)

/-- The largest length of a length table (R183). -/
def largestLength (lengths : Byte → Nat) : Nat := allBytes.foldl (fun m b => max m (lengths b)) 0

/-- The size of bucket `n`; BLCOUNT[0] is 0 (R46, R180). -/
def bucketSize (lengths : Byte → Nat) (n : Nat) : Nat :=
  if n = 0 then 0 else (bucket lengths n).length

/-- CLEN (R180 to R182). -/
def State.canonicalLengths (s : State) : Table Byte :=
  vecOfFn 256 fun i => s.canonicalLength (BitVec.ofNat 8 i)

/-- A byte table as lengths. -/
def lengthsOf (t : Table Byte) (b : Byte) : Nat := (t.look b).toNat

/-- CODE after the numbering: the bytes that got no code keep what they had (R180). -/
def State.assignedCodes (s : State) (clen : Table Byte) (maxLen : Nat) : Table Code :=
  let codes := canonicalCodes (lengthsOf clen) maxLen
  vecOfFn 256 fun i =>
    let b := BitVec.ofNat 8 i
    if clen.look b = 0 then s.code.look b else BitVec.ofNat 255 (codes.look b)

/-- Body(ASSIGN) (R180, R186). -/
def bodyAssign (s : State) : BodyResult :=
  let clen := s.canonicalLengths
  let maxLen := largestLength (lengthsOf clen)
  let dense := denseFlag s.nsym.toNat
  .ok { s with
    clen := clen
    maxLen := BitVec.ofNat 8 maxLen
    blcount := vecOfFn 256 fun n => BitVec.ofNat 9 (bucketSize (lengthsOf clen) n)
    code := s.assignedCodes clen maxLen
    dense := dense
    hdrLen := BitVec.ofNat 9 (headerLength dense maxLen s.nsym.toNat)
    stage := .assigned }

/-- ASSIGN: requires STAGE = EXTRACTED (R123, R180). -/
def execAssign (s : State) : Host.Outcome State Fault Refusal :=
  (withStage .assign .extracted bodyAssign s).complete

end Sys2Proof.Machine
end

