-- ==== Sys2Proof/Machine/Counter.lean ====
section
/-! DEFINITION. frequency_counter: COUNT (spec/41_frequency_counter.md). -/

namespace Sys2Proof.Machine

/-- What COUNT builds: FREQ, ORDER and NSYM. -/
structure Counts where
  freq  : Table Word
  order : Table Byte
  nsym  : BitVec 9
deriving DecidableEq, Repr

/-- One turn of the loop of R140: a first occurrence is appended to ORDER, then the count rises. -/
def Counts.add (c : Counts) (b : Byte) : Counts :=
  if c.freq.look b = 0 then
    { freq := c.freq.put b (c.freq.look b + 1)
      order := c.order.setIfInBounds c.nsym.toNat b
      nsym := c.nsym + 1 }
  else { c with freq := c.freq.put b (c.freq.look b + 1) }

/-- Body(COUNT) (R140). -/
def bodyCount (s : State) : BodyResult :=
  if s.inputTooLong then .raised .inLen s.inLen s
  else
    let s := s.clearRun
    let c := s.input.foldl Counts.add ⟨s.freq, s.order, s.nsym⟩
    .ok { s with freq := c.freq, order := c.order, nsym := c.nsym, stage := .counted }

/-- COUNT: legal in every stage (R123, R140). -/
def execCount (s : State) : Host.Outcome State Fault Refusal := (bodyCount s).complete

end Sys2Proof.Machine
end

