-- ==== Sys2Proof/Machine/HeaderSerializer.lean ====
section
/-! DEFINITION. huffman_header_serializer: HEADER (spec/45_header_serializer.md, spec/30_encoding.md rules
R100 to R105). -/

namespace Sys2Proof.Machine

/-- The table dump of the dense format (R104, R203): CLEN[0] to CLEN[255]. -/
def State.denseTable (s : State) : List Byte := allBytes.map s.clen.look

/-- The symbols in canonical order (R103, R202): ascending length, then ascending byte value. -/
def State.canonicalOrder (s : State) : List Byte :=
  (List.range' 1 s.maxLen.toNat).flatMap fun n => bucket (lengthsOf s.clen) n

/-- The table dump of the sparse format (R103, R202): NSYM, one count byte per length, the symbols. -/
def State.sparseTable (s : State) : List Byte :=
  s.nsym.setWidth 8 ::
    (List.range' 1 s.maxLen.toNat).map (fun n => (s.blcount[n]?.getD 0).setWidth 8) ++
    s.canonicalOrder

/-- The header block: control byte, then the table dump the DENSE flag selects (R101, R201). -/
def State.headerBytes (s : State) : List Byte :=
  controlByte s.leftover s.dense :: if s.dense then s.denseTable else s.sparseTable

/-- Body(HEADER) (R200, R204). -/
def bodyHeader (s : State) : BodyResult :=
  if s.capObufSize.toNat < s.headerBytes.length then .stuck .obufRange
  else
    .ok { s with
      obuf := s.obuf.writeRange 0 s.headerBytes
      outLen := s.hdrLen.setWidth 32 + s.payloadLen
      stage := .done }

/-- HEADER: requires STAGE = PACKED (R123, R200). -/
def execHeader (s : State) : Host.Outcome State Fault Refusal :=
  (withStage .header .packed bodyHeader s).complete

end Sys2Proof.Machine
end

