-- ==== Sys2Proof/Machine/LengthExtractor.lean ====
section
/-! DEFINITION. code_length_extractor: EXTRACT (spec/43_code_length_extractor.md). -/

namespace Sys2Proof.Machine

/-- `Walk(n, d)` of R170 on the table `len`, with room for `fuel` levels: each leaf's symbol gets its
depth. No result when the walk leaves the arena or runs out of levels (log 11). -/
def walk (nodes : Arena) : Nat → Nat → Nat → Table Byte → Option (Table Byte)
  | 0, _, _, _ => none
  | fuel + 1, n, d, len =>
    match nodes[n]? with
    | none => none
    | some nd =>
      if nd.isLeaf then some (len.put nd.sym (BitVec.ofNat 8 d))
      else
        match walk nodes fuel nd.left.toNat (d + 1) len with
        | none => none
        | some len' => walk nodes fuel nd.right.toNat (d + 1) len'

/-- `NODE[n].IS_LEAF`, false for an index that does not exist. -/
def isLeafAt (nodes : Arena) (n : Nat) : Bool := (nodes[n]?.getD Node.empty).isLeaf

/-- Body(EXTRACT) (R170): depths 0 to 255 are the ones LEN can hold (R7). -/
def bodyExtract (s : State) : BodyResult :=
  match walk s.node 256 s.root.toNat 0 s.len with
  | none => .stuck .walkDiverges
  | some len' =>
    .ok { s with
      len := len'
      degen := isLeafAt s.node s.root.toNat
      node := Vector.replicate 511 Node.empty
      root := 0
      stage := .extracted }

/-- EXTRACT: requires STAGE = BUILT (R123, R170). -/
def execExtract (s : State) : Host.Outcome State Fault Refusal :=
  (withStage .extract .built bodyExtract s).complete

end Sys2Proof.Machine
end

