-- ==== Sys2Proof/Machine/TreeBuilder.lean ====
section
/-! DEFINITION. huffman_tree_builder: BUILD (spec/42_tree_builder.md). -/

namespace Sys2Proof.Machine

/-- The leaf of the rank-`r` symbol (R150, R156). -/
def State.leafNode (s : State) (r : Nat) : Node :=
  let b := s.order[r]?.getD 0
  ⟨true, true, b, s.freq.look b, 0, 0⟩

/-- The arena with the leaves of the `n` symbols at the indices 0 to n − 1 (R150, R156). -/
def State.leafArena (s : State) (n : Nat) : Arena :=
  vecOfFn 511 fun i => if i < n then s.leafNode i else s.node[i]?.getD Node.empty

/-- The internal node made of the removed elements `a` (first, lowest) and `c` (R152, R156). -/
def mergedNode (nodes : Arena) (a c : Nat) : Node :=
  ⟨true, false, 0, weightOf nodes a + weightOf nodes c, BitVec.ofNat 9 a, BitVec.ofNat 9 c⟩

/-- The arena after the `j`-th merge, of `a` and `c` (R156). -/
def mergeArena (nodes : Arena) (j a c : Nat) : Arena :=
  nodes.setIfInBounds (256 + j) (mergedNode nodes a c)

/-- The merging loop (R150, R152, R153) with at most `fuel` merges, the next one being the `j`-th; `q`
is the priority sequence, highest weight at its head. -/
def mergeLoop : Nat → Nat → Arena → List Nat → Arena × List Nat
  | 0, _, nodes, q => (nodes, q)
  | fuel + 1, j, nodes, q =>
    match popTwo q with
    | none => (nodes, q)
    | some (a, c, rest) =>
      let nodes' := mergeArena nodes j a c
      mergeLoop fuel (j + 1) nodes' (reinsert (fun n => (weightOf nodes' n).toNat) (256 + j) rest)

/-- The priority sequence before the first merge (R151). -/
def initialSequence (nodes : Arena) (n : Nat) : List Nat :=
  stableSortDesc (fun i => (weightOf nodes i).toNat) (List.range n)

/-- Body(BUILD) (R150). The loop ends after exactly NSYM − 1 merges (R157). -/
def bodyBuild (s : State) : BodyResult :=
  let n := s.nsym.toNat
  if n = 0 then .raised .emptyInput 0 s
  else if 256 < n then .stuck .orderIndex
  else
    let leaves := s.leafArena n
    let r := mergeLoop n 0 leaves (initialSequence leaves n)
    let root := r.2.headD 0
    .ok { s with
      node := r.1
      root := BitVec.ofNat 9 root
      rootWeight := weightOf r.1 root
      stage := .built }

/-- BUILD: requires STAGE = COUNTED (R123, R150). -/
def execBuild (s : State) : Host.Outcome State Fault Refusal :=
  (withStage .build .counted bodyBuild s).complete

end Sys2Proof.Machine
end

