-- ==== Sys2Proof/Machine/Control.lean ====
section
/-! DEFINITION. The commands that are no sub-block: NOP, CLEAR and RUN (spec/40_command_control.md). -/

namespace Sys2Proof.Machine

/-- Body(NOP) (R125). -/
def bodyNop (s : State) : BodyResult := .ok s

/-- NOP: legal in every stage (R123, R125). -/
def execNop (s : State) : Host.Outcome State Fault Refusal := (bodyNop s).complete

/-- Body(CLEAR) (R126). -/
def bodyClear (s : State) : BodyResult :=
  .ok { s.clearRun with stage := .idle, wbusy := false }

/-- CLEAR: legal in every stage (R123, R126). -/
def execClear (s : State) : Host.Outcome State Fault Refusal := (bodyClear s).complete

/-- Body(RUN) (R128): the six stage bodies in order, each without its stage check, up to the first
raise. -/
def bodyRun (s : State) : BodyResult :=
  (((((bodyCount s).andThen bodyBuild).andThen bodyExtract).andThen bodyAssign).andThen
    bodyPack).andThen bodyHeader

/-- RUN: legal in every stage (R123, R128). -/
def execRun (s : State) : Host.Outcome State Fault Refusal := (bodyRun s).complete

end Sys2Proof.Machine
end

