-- ==== Sys2Proof/Machine/Dispatch.lean ====
section
/-! DEFINITION. The meaning of each command at its completion step: one arm per constructor. -/

namespace Sys2Proof.Machine

def exec (i : Instr) (s : State) : Host.Outcome State Fault Refusal :=
  match i with
  | .nop => Sys2Proof.Machine.execNop s
  | .clear => Sys2Proof.Machine.execClear s
  | .count => Sys2Proof.Machine.execCount s
  | .build => Sys2Proof.Machine.execBuild s
  | .extract => Sys2Proof.Machine.execExtract s
  | .assign => Sys2Proof.Machine.execAssign s
  | .pack => Sys2Proof.Machine.execPack s
  | .header => Sys2Proof.Machine.execHeader s
  | .run => Sys2Proof.Machine.execRun s

end Sys2Proof.Machine
end

