-- ==== Sys2Proof/Machine/HostBus.lean ====
section
/-! DEFINITION. The host's side of the block (spec/20_memory.md, spec/10_state.md rule R52): the region
map, legal accesses, reads, writes, accesses while BUSY or while reset is asserted, and one turn of the
host program. -/

namespace Sys2Proof.Machine

/-- The regions of R62. -/
inductive Region where
  | reg | ibuf | obuf | reserved
deriving DecidableEq, Repr

/-- The region of a host address (R62). -/
def regionOf (a : Word) : Region :=
  if a.toNat < 0x00010000 then .reg
  else if a.toNat < 0x40000000 then .reserved
  else if a.toNat < 0x80000000 then .ibuf
  else if a.toNat < 0xC0000000 then .obuf
  else .reserved

/-- Host addresses of the two windows (R62). -/
def ibufBase : Nat := 0x40000000

/-- See `ibufBase`. -/
def obufBase : Nat := 0x80000000

/-- A legal access (R63, R64); any other gets a bus error (R66). -/
def legalAccess (a : Word) (size : Nat) : Bool :=
  match regionOf a with
  | .ibuf | .obuf => (size == 1 || size == 2 || size == 4) && a.toNat % size == 0
  | .reg | .reserved => size == 4 && a.toNat % 4 == 0

/-- The byte at an offset of a window over a buffer of `size` bytes: past the buffer it reads 0 (R68). -/
def windowByte (m : Memory) (size o : Nat) : Byte := if o < size then m.read o else 0

/-- The little-endian value of the `n` bytes a window shows from offset `o` up (R65). -/
def gather (m : Memory) (size : Nat) : Nat → Nat → Nat
  | _, 0 => 0
  | o, n + 1 => (windowByte m size o).toNat + 256 * gather m size (o + 1) n

/-- Write the low `n` bytes of `v`, least significant first, from offset `o` up; a byte past the buffer
is ignored (R65, R68). -/
def scatter (size : Nat) : Memory → Nat → Nat → Nat → Memory
  | m, _, 0, _ => m
  | m, o, n + 1, v =>
    scatter size (if o < size then m.write o (BitVec.ofNat 8 v) else m) (o + 1) n (v / 256)

/-- The four words of a node record (R52). -/
def nodeWord (n : Node) : Nat → Word
  | 0 => n.weight
  | 1 => n.left.setWidth 32
  | 2 => n.right.setWidth 32
  | _ => BitVec.ofBool n.valid ++ (0 : BitVec 22) ++ BitVec.ofBool n.isLeaf ++ n.sym

/-- The scalar registers, by register number (offset / 4) (R52). -/
def scalarReg (s : State) : Nat → Word
  | 1 => s.statusWord
  | 2 => s.ctrlWord
  | 3 => s.inLen
  | 4 => s.nsym.setWidth 32
  | 5 => s.root.setWidth 32
  | 6 => s.rootWeight
  | 7 => s.maxLen.setWidth 32
  | 8 => s.hdrLen.setWidth 32
  | 9 => s.payloadLen
  | 10 => s.outLen
  | 11 => s.leftover.setWidth 32
  | 12 => s.errInfo
  | 13 => s.capInMax
  | 14 => s.capObufSize
  | _ => 0   -- CMD (write only, R32) and the reserved offsets (R67)

/-- A read of the register region at an offset that is a multiple of 4 (R52). -/
def regRead (s : State) (o : Nat) : Word :=
  if o < 0x400 then scalarReg s (o / 4)
  else if o < 0x800 then s.freq.look (BitVec.ofNat 8 ((o - 0x400) / 4))
  else if o < 0xC00 then (s.order.look (BitVec.ofNat 8 ((o - 0x800) / 4))).setWidth 32
  else if o < 0x1000 then (s.len.look (BitVec.ofNat 8 ((o - 0xC00) / 4))).setWidth 32
  else if o < 0x1400 then (s.clen.look (BitVec.ofNat 8 ((o - 0x1000) / 4))).setWidth 32
  else if o < 0x1800 then (s.blcount.look (BitVec.ofNat 8 ((o - 0x1400) / 4))).setWidth 32
  else if o < 0x2000 then 0
  else if o < 0x4000 then
    ((s.code.look (BitVec.ofNat 8 ((o - 0x2000) / 32))).setWidth 256).extractLsb'
      (32 * (o % 32 / 4)) 32
  else if o < 0x5FF0 then nodeWord (s.node[(o - 0x4000) / 16]?.getD Node.empty) (o % 16 / 4)
  else 0

/-- A write of the register region while BUSY = 0 (R24, R31, R32, R34, R67). -/
def regWrite (s : State) (o : Nat) (v : Word) : State :=
  if o = 0x000 then
    { s.accept v (Config.completionDelay s.freeCount) with freeCount := s.freeCount + 1 }
  else if o = 0x004 then { s with done := s.done && !v.getLsbD 1 }
  else if o = 0x008 then { s with irqEn := v.getLsbD 0 }
  else if o = 0x00C then { s with inLen := v }
  else s

/-- The data of a legal read while BUSY = 0 (R64 to R69). -/
def busData (s : State) (a : Word) (size : Nat) : Word :=
  match regionOf a with
  | .reg => regRead s a.toNat
  | .reserved => 0
  | .ibuf => BitVec.ofNat 32 (gather s.ibuf s.capInMax.toNat (a.toNat - ibufBase) size)
  | .obuf => BitVec.ofNat 32 (gather s.obuf s.capObufSize.toNat (a.toNat - obufBase) size)

/-- What stays defined while BUSY = 1 (R70): the registers STATUS, CAP_IN_MAX, CAP_OBUF_SIZE. -/
def readableWhileBusy (a : Word) : Bool := a == 0x004 || a == 0x034 || a == 0x038

/-- An unspecified value of `size` bytes (U5, R270); FREE VALUE, log 6. -/
def State.freeData (s : State) (size : Nat) : Word :=
  BitVec.ofNat 32 ((Config.freeWord s.freeCount).toNat % 2 ^ (8 * size))

/-- The bus's answer to a read (R66, R70, R270). -/
def busReadReply (s : State) (a : Word) (size : Nat) : BusReply :=
  if !legalAccess a size then ⟨0, true⟩
  else if s.inReset then ⟨s.freeData size, false⟩
  else if s.busy && !readableWhileBusy a then ⟨s.freeData size, false⟩
  else ⟨busData s a size, false⟩

/-- A read: it changes no state of the block (R75); the answer is logged. -/
def busRead (a : Word) (size : Nat) (s : State) : State :=
  { s with replies := busReadReply s a size :: s.replies, freeCount := s.freeCount + 1 }

/-- The effect of a legal write while BUSY = 0 (R64 to R69, R75). -/
def writeEffect (a : Word) (size : Nat) (v : Word) (s : State) : State :=
  match regionOf a with
  | .reg => regWrite s a.toNat v
  | .reserved => s
  | .ibuf => { s with ibuf := scatter s.capInMax.toNat s.ibuf (a.toNat - ibufBase) size v.toNat }
  | .obuf => s

/-- A write: an illegal one gets a bus error (R66), one during reset has no effect (R270), one while
BUSY is dropped and sets WBUSY (R28, R70). -/
def busWrite (a : Word) (size : Nat) (v : Word) (s : State) : State :=
  if !legalAccess a size then { s with replies := ⟨0, true⟩ :: s.replies }
  else
    let s' := { s with replies := ⟨0, false⟩ :: s.replies }
    if s.inReset then s'
    else if s.busy then { s' with wbusy := true }
    else writeEffect a size v s'

/-- One turn of the host program: its next operation, if it has one (R76, R95, R97, R270). A POLL stays
at the head until its condition holds. -/
def hostTurn (s : State) : State :=
  match s.inbox with
  | [] => s
  | .write a n v :: ops => busWrite a n v { s with inbox := ops }
  | .read a n :: ops => busRead a n { s with inbox := ops }
  | .poll a mask v :: ops =>
    if (busReadReply s a 4).data &&& mask = v then busRead a 4 { s with inbox := ops }
    else busRead a 4 s
  | .resetAssert :: ops => State.resetEvent { s with inbox := ops }
  | .resetRelease :: ops => { s with inbox := ops, inReset := false }

/-- A step of waiting for the completion step of the command in progress (R281). -/
def State.tick (s : State) : State := if s.busy then { s with delay := s.delay - 1 } else s

end Sys2Proof.Machine
end

