-- ==== Sys2Proof/Machine/Engine.lean ====
section
/-! DEFINITION. The engine's completion step (R121, R122). -/

namespace Sys2Proof.Machine

/-- The engine's step is due: a command is in progress, its delay is over, reset is not asserted. -/
def State.completionDue (s : State) : Bool := !s.inReset && s.busy && s.delay == 0

/-- The completion step of an illegal word (R93, R122, R242). -/
def illegalCommand (s : State) : Host.Outcome State Fault Refusal :=
  (BodyResult.raised .illegalCmd s.pending s).complete

/-- The completion step: decode PENDING, then the command's check and body (R121, R122). -/
def completionStep (s : State) : Host.Outcome State Fault Refusal :=
  match decode s.pending with
  | .ok i => exec i s
  | .error _ => illegalCommand s

end Sys2Proof.Machine
end

