-- ==== Sys2Proof/Machine/Step.lean ====
section
/-! DEFINITION. One step of the whole machine, and how a command word is placed where the next step takes
it from. -/

namespace Sys2Proof.Machine

/-- One step (R76: one total order of host accesses and completion steps): the completion step when it
is due, else one turn of the host. -/
def step (s : State) : Host.Outcome State Fault Refusal :=
  if s.completionDue then completionStep s else .next (hostTurn s.tick)

/-- The block takes its commands from PENDING: the command word is accepted (R120) with reset released
and no delay left, so the very next step is its completion step (log 7). -/
def State.withFetchWord (s : State) (nbits w : Nat) : State :=
  State.accept (BitVec.ofNat 32 (w % 2 ^ nbits)) 0 { s with inReset := false }

end Sys2Proof.Machine
end

