-- ==== Sys2Proof/Machine/Reference.lean ====
section
/-! DEFINITION. Reference functions outside the block, used only to state laws: the decoder of R210
(spec/45_header_serializer.md) and the heap-based merge of R160 (spec/42_tree_builder.md). -/

namespace Sys2Proof.Machine

/-! ### The reference decoder (R210) -/

/-- The sparse header's counts: read count bytes until they sum to `l`, from `s` on. Answers the counts
(length 1 first) and the rest of the archive; REJECT when the bytes run out or overshoot. -/
def readCounts (l : Nat) : Nat → List Byte → Option (List Nat × List Byte)
  | s, bytes =>
    if l < s then none
    else if s = l then some ([], bytes)
    else
      match bytes with
      | [] => none
      | b :: rest =>
        match readCounts l (s + b.toNat) rest with
        | none => none
        | some (cs, r) => some (b.toNat :: cs, r)

/-- `n` symbols of length `len`: each new, ascending within the length (`prev`, if any). -/
def readSymbols (len : Nat) : Nat → Option Byte → List Byte → Table Nat →
    Option (List Byte × Table Nat)
  | 0, _, bytes, cl => some (bytes, cl)
  | _ + 1, _, [], _ => none
  | n + 1, prev, b :: rest, cl =>
    if cl.look b ≠ 0 ∨ (prev.any fun p => b.toNat ≤ p.toNat) then none
    else readSymbols len n (some b) rest (cl.put b len)

/-- The symbol list of the sparse header, for the counts of the lengths from `len` on. -/
def readBuckets : Nat → List Nat → List Byte → Table Nat → Option (List Byte × Table Nat)
  | _, [], bytes, cl => some (bytes, cl)
  | len, c :: cs, bytes, cl =>
    match readSymbols len c none bytes cl with
    | none => none
    | some (rest, cl') => readBuckets (len + 1) cs rest cl'

/-- The length table CL and the payload bytes of an archive; none is REJECT. -/
def readHeader : List Byte → Option (Table Nat × List Byte)
  | ctl :: rest =>
    if ctl.extractLsb' 0 4 ≠ 0 then none
    else if ctl.getLsbD 4 then
      if rest.length < 256 then none
      else
        let cl : Table Nat := vecOfFn 256 fun v => (rest[v]?.getD 0).toNat
        if (rest.take 256).all (· = 0) then none else some (cl, rest.drop 256)
    else
      match rest with
      | [] => none
      | l :: rest' =>
        if l = 0 ∨ 127 < l.toNat then none
        else
          match readCounts l.toNat 0 rest' with
          | none => none
          | some (cs, r) =>
            match readBuckets 1 cs r (Vector.replicate 256 0) with
            | none => none
            | some (p, cl) => some (cl, p)
  | [] => none

/-- The byte whose code is `cur`, if there is one (the lowest such byte, log 19). -/
def matchCode (cl codes : Table Nat) (cur : BitString) : Option Byte :=
  allBytes.find? fun b => cl.look b ≠ 0 && cur == bin (codes.look b) (cl.look b)

/-- Cut a bit stream into codes; `cur` holds the bits since the last code. -/
def cutCodes (cl codes : Table Nat) : BitString → BitString → Option (List Byte)
  | [], cur => if cur = [] then some [] else none
  | x :: bits, cur =>
    match matchCode cl codes (cur ++ [x]) with
    | some b =>
      match cutCodes cl codes bits [] with
      | some out => some (b :: out)
      | none => none
    | none => cutCodes cl codes bits (cur ++ [x])

/-- The bit stream of the payload bytes. -/
def bitsOfBytes (bytes : List Byte) : BitString := bytes.flatMap fun b => bin b.toNat 8

/-- `Decode(A)` (R210); none is REJECT. -/
def refDecode (a : List Byte) : Option (List Byte) :=
  match readHeader a with
  | none => none
  | some (cl, p) =>
    let r := ((a.headD 0).extractLsb' 5 3).toNat
    if p.length = 0 ∧ r ≠ 0 then none
    else
      let t := 8 * p.length - (if r = 0 then 0 else 8 - r)
      let maxLen := largestLength cl.look
      cutCodes cl (canonicalCodes cl.look maxLen) ((bitsOfBytes p).take t) []

/-- The archive the block presents: `OBUF[0 .. OUT_LEN − 1]` (R100, R204). -/
def State.archive (s : State) : List Byte := s.obuf.readRange 0 s.outLen.toNat

/-! ### The heap-based merge (R160) -/

/-- An element of the heap: node index, weight, insertion time. -/
structure HeapItem where
  node   : Nat
  weight : Nat
  time   : Nat
deriving DecidableEq, Repr

/-- Before in the heap: less weight, and among equal weights the earlier time. -/
def HeapItem.before (x y : HeapItem) : Bool :=
  x.weight < y.weight || (x.weight == y.weight && x.time < y.time)

/-- Remove the first item of the heap order from an unordered list. -/
def popMin : List HeapItem → Option (HeapItem × List HeapItem)
  | [] => none
  | x :: xs =>
    match popMin xs with
    | none => some (x, [])
    | some (y, ys) => if y.before x then some (y, x :: ys) else some (x, y :: ys)

/-- Merge by heap: at most `fuel` merges, the next one being the `j`-th of `n` leaves. -/
def heapLoop (n : Nat) : Nat → Nat → Arena → List HeapItem → Arena × List HeapItem
  | 0, _, nodes, h => (nodes, h)
  | fuel + 1, j, nodes, h =>
    match popMin h with
    | none => (nodes, h)
    | some (a, h₁) =>
      match popMin h₁ with
      | none => (nodes, h)
      | some (c, h₂) =>
        let nodes' := mergeArena nodes j a.node c.node
        heapLoop n fuel (j + 1) nodes'
          (⟨256 + j, (weightOf nodes' (256 + j)).toNat, n + j⟩ :: h₂)

/-- The heap before the first merge: leaf `r` has the time `n − 1 − r` (R160). -/
def initialHeap (nodes : Arena) (n : Nat) : List HeapItem :=
  (List.range n).map fun r => ⟨r, (weightOf nodes r).toNat, n - 1 - r⟩

/-- BUILD's arena and root by the heap of R160. -/
def heapBuild (s : State) : Arena × Nat :=
  let n := s.nsym.toNat
  let leaves := s.leafArena n
  let r := heapLoop n n 0 leaves (initialHeap leaves n)
  (r.1, ((r.2.head?).map HeapItem.node).getD 0)

end Sys2Proof.Machine
end

