-- ==== Sys2Proof/WellFormed.lean ====
section
/-! DEFINITION. Which terms are well formed: the parameters (R6) and the operations of a host program
(R95). A command has no operand, so each of the nine is well formed (R91). -/

namespace Sys2Proof

/-- A command names no register and carries no immediate (R91): nothing of it can be ill formed. -/
def Instr.wf : Instr → Bool
  | .nop => true
  | .clear => true
  | .count => true
  | .build => true
  | .extract => true
  | .assign => true
  | .pack => true
  | .header => true
  | .run => true

/-- The constraints of R6 on IN_MAX and OBUF_SIZE. -/
def paramsWf (inMax obufSize : Word) : Bool :=
  1 ≤ inMax.toNat && inMax.toNat ≤ 2 ^ 30 && 257 ≤ obufSize.toNat && obufSize.toNat ≤ 2 ^ 30

/-- An operation the notation of R95 can write: an access of 1, 2 or 4 bytes whose data fits it. DESIGN
CHOICE (log 21): a POLL whose value has bits outside its mask, which can never match, is called ill formed;
R95 sets no such limit, and the host performs it all the same. -/
def BusOp.wf : BusOp → Bool
  | .write _ n v => (n == 1 || n == 2 || n == 4) && v.toNat < 2 ^ (8 * n)
  | .read _ n => n == 1 || n == 2 || n == 4
  | .poll _ mask value => value &&& mask == value
  | .resetAssert => true
  | .resetRelease => true

end Sys2Proof
end

