-- ==== Sys2Proof/Safety.lean ====
section
/-! DEFINITION. The words the claims are stated in: Huffman trees and what it means for the arena to hold
one, Kraft sums, bit costs, and the states a run can be in (R54). -/

namespace Sys2Proof.Machine

/-! ### Huffman trees (the source's data model, R15, R48) -/

/-- `Leaf(byte, weight)` or `Node(left, right)`. -/
inductive HuffTree where
  | leaf (sym : Byte) (weight : Nat)
  | node (left right : HuffTree)
deriving DecidableEq, Repr

/-- A leaf's count, or the sum of the children's weights. -/
def HuffTree.weight : HuffTree → Nat
  | .leaf _ w => w
  | .node l r => l.weight + r.weight

/-- The depth of the deepest leaf. -/
def HuffTree.height : HuffTree → Nat
  | .leaf _ _ => 0
  | .node l r => max l.height r.height + 1

/-- The bytes of the leaves. -/
def HuffTree.symbols : HuffTree → List Byte
  | .leaf b _ => [b]
  | .node l r => l.symbols ++ r.symbols

/-- Each leaf's byte with its depth, the root being at depth `d` (R171). -/
def HuffTree.depths : HuffTree → Nat → List (Byte × Nat)
  | .leaf b _, d => [(b, d)]
  | .node l r, d => l.depths (d + 1) ++ r.depths (d + 1)

/-- The tree is a bare leaf (R154, R172). -/
def HuffTree.isLeaf : HuffTree → Bool
  | .leaf _ _ => true
  | .node _ _ => false

/-- The arena holds the tree with its root at index `n` (R48, R157). -/
def Represents (nodes : Arena) : Nat → HuffTree → Prop
  | n, .leaf b w =>
    ∃ nd, nodes[n]? = some nd ∧ nd.valid = true ∧ nd.isLeaf = true ∧ nd.sym = b ∧
      nd.weight.toNat = w
  | n, .node l r =>
    ∃ nd, nodes[n]? = some nd ∧ nd.valid = true ∧ nd.isLeaf = false ∧
      nd.weight.toNat = l.weight + r.weight ∧
      Represents nodes nd.left.toNat l ∧ Represents nodes nd.right.toNat r

/-! ### Lengths and costs -/

/-- `Σ 2^(255 − len)` over the bytes with a length: Kraft's sum scaled by 2^255 (R174, R185). -/
def kraftSum (lengths : Byte → Nat) : Nat :=
  (allBytes.map fun b => if lengths b = 0 then 0 else 2 ^ (255 - lengths b)).sum

/-- The bit cost of an input under a length table (R224). -/
def bitCost (lengths : Byte → Nat) (input : List Byte) : Nat := (input.map lengths).sum

/-- The payload's bit stream: the codes of the input bytes in input order (R106). -/
def State.bitStream (s : State) (input : List Byte) : BitString := input.flatMap s.codeBits

/-- Byte `k` of a bit stream cut into bytes, padded on the right with ones (R106, R222, R223). -/
def streamByte (bits : BitString) (k : Nat) : Byte :=
  BitVec.ofNat 8 (val ((bits ++ ones 7).drop (8 * k) |>.take 8))

/-- Σ FREQ, the number of bytes counted (R142). -/
def State.total (s : State) : Nat := (allBytes.map fun b => (s.freq.look b).toNat).sum

/-- `ORDER[0 .. NSYM − 1]`. -/
def State.symbols (s : State) : List Byte := s.order.toList.take s.nsym.toNat

/-! ### Host accesses -/

/-- The accesses R63 and R64 allow: 1, 2 or 4 bytes naturally aligned in the two windows, 4 bytes aligned
elsewhere. -/
def AccessAllowed (a : Word) (n : Nat) : Prop :=
  if 0x40000000 ≤ a.toNat ∧ a.toNat < 0xC0000000 then (n = 1 ∨ n = 2 ∨ n = 4) ∧ n ∣ a.toNat
  else n = 4 ∧ 4 ∣ a.toNat

/-- A read of `n` bytes at `a`, when it is the host's next operation, is answered with the data `d` and
changes nothing of the block (R75). -/
def ReadGives (s : State) (a : Word) (n : Nat) (d : Word) : Prop :=
  step { s with inbox := [.read a n] } =
    .next { s with inbox := [], freeCount := s.freeCount + 1, replies := ⟨d, false⟩ :: s.replies }

/-- A write of the low `n` bytes of `v` at `a`, when it is the host's next operation, is answered without
a bus error and leaves the block as `t`. -/
def WriteLeaves (s : State) (a : Word) (n : Nat) (v : Word) (t : State) : Prop :=
  step { s with inbox := [.write a n v] } =
    .next { t with inbox := [], replies := ⟨0, false⟩ :: s.replies }

/-- Commands run one after the other, each on the state the one before left, until one ends in an error. -/
def runUntilError : List Instr → State → Host.Outcome State Fault Refusal
  | [], s => .next s
  | i :: is, s =>
    match exec i s with
    | .next t => if t.err then .next t else runUntilError is t
    | .fault f => .fault f
    | .refused r => .refused r

/-! ### States of a run (R54) -/

/-- The parameters satisfy R6. -/
def State.ParamsOk (s : State) : Prop := paramsWf s.capInMax s.capObufSize = true

/-- The buffers are in canonical form and inside their capacities (R49, R50). -/
structure State.BuffersOk (s : State) : Prop where
  ibufWf     : s.ibuf.wf
  ibufWithin : s.ibuf.within s.capInMax.toNat
  obufWf     : s.obuf.wf
  obufWithin : s.obuf.within s.capObufSize.toNat

/-- ERR = 1 exactly when ERRCODE is not 0 (R25). -/
def State.ErrOk (s : State) : Prop := s.err = true ↔ s.errCode ≠ .none

/-- FREQ, ORDER and NSYM as COUNT leaves them (R142). -/
structure State.Counted (s : State) : Prop where
  nsymLe    : s.nsym.toNat ≤ 256
  nodup     : s.symbols.Nodup
  mem       : ∀ b, b ∈ s.symbols ↔ s.freq.look b ≠ 0
  orderZero : ∀ r, s.nsym.toNat ≤ r → ∀ h : r < 256, s.order[r] = 0
  totalLe   : s.total ≤ s.capInMax.toNat

/-- No tree is stored. -/
structure State.NoTree (s : State) : Prop where
  node : s.node = Vector.replicate 511 Node.empty
  root : s.root = 0

/-- No lengths are stored. -/
structure State.NoLengths (s : State) : Prop where
  len   : s.len = Vector.replicate 256 0
  degen : s.degen = false

/-- No codes are stored. -/
structure State.NoCodes (s : State) : Prop where
  clen    : s.clen = Vector.replicate 256 0
  code    : s.code = Vector.replicate 256 0
  blcount : s.blcount = Vector.replicate 256 0
  maxLen  : s.maxLen = 0
  hdrLen  : s.hdrLen = 0
  dense   : s.dense = false

/-- No payload is recorded. -/
structure State.NoPayload (s : State) : Prop where
  payloadLen : s.payloadLen = 0
  leftover   : s.leftover = 0

/-- The tree BUILD leaves: its leaves are the symbols, its depth fits LEN (R157). -/
structure State.HasTree (s : State) : Prop where
  tree       : ∃ t : HuffTree, Represents s.node s.root.toNat t ∧ t.symbols.Perm s.symbols ∧
                 t.height ≤ 255 ∧ t.weight = s.total
  rootWeight : s.rootWeight.toNat = s.total

/-- The lengths EXTRACT leaves (R172, R174). -/
structure State.HasLengths (s : State) : Prop where
  nsymPos    : 1 ≤ s.nsym.toNat
  rootWeight : s.rootWeight.toNat = s.total
  degen      : s.degen = decide (s.nsym = 1)
  absent     : ∀ b, s.freq.look b = 0 → s.len.look b = 0
  single     : s.nsym = 1 → ∀ b, s.len.look b = 0
  many       : 2 ≤ s.nsym.toNat → ∀ b, s.freq.look b ≠ 0 → s.len.look b ≠ 0
  bound      : 2 ≤ s.nsym.toNat → ∀ b, (s.len.look b).toNat ≤ s.nsym.toNat - 1
  kraft      : 2 ≤ s.nsym.toNat → kraftSum (lengthsOf s.len) = 2 ^ 255

/-- The codes ASSIGN leaves (R180 to R186). -/
structure State.HasCodes (s : State) : Prop where
  clen    : ∀ b, s.clen.look b = s.canonicalLength b
  maxLen  : s.maxLen.toNat = largestLength (lengthsOf s.clen)
  blcount : ∀ n : Byte, (s.blcount.look n).toNat = bucketSize (lengthsOf s.clen) n.toNat
  code    : ∀ b, (s.code.look b).toNat =
              (canonicalCodes (lengthsOf s.clen) s.maxLen.toNat).look b
  dense   : s.dense = denseFlag s.nsym.toNat
  hdrLen  : s.hdrLen.toNat = headerLength s.dense s.maxLen.toNat s.nsym.toNat

/-- The payload PACK leaves: it fits behind the header, and with LEFTOVER and PAYLOAD_LEN it is the packed
code stream of some coded input, the one PACK read (R106, R222 to R225); the host may have rewritten IBUF
since. -/
structure State.HasPayload (s : State) : Prop where
  fits    : s.payloadLen ≠ 0 → s.hdrLen.toNat + s.payloadLen.toNat ≤ s.capObufSize.toNat
  empty   : s.payloadLen = 0 → s.leftover = 0
  written : ∃ input : List Byte, (∀ b ∈ input, s.clen.look b ≠ 0) ∧
              s.leftover.toNat = bitCost (lengthsOf s.clen) input % 8 ∧
              s.payloadLen.toNat = (bitCost (lengthsOf s.clen) input + 7) / 8 ∧
              ∀ k, k < s.payloadLen.toNat →
                s.obuf.read (s.hdrLen.toNat + k) = streamByte (s.bitStream input) k

/-- The header HEADER leaves: OBUF[0 .. HDR_LEN − 1] is the header block, and OUT_LEN the archive's length
(R200, R201, R204). -/
structure State.HasArchive (s : State) : Prop where
  header : s.obuf.readRange 0 s.hdrLen.toNat = s.headerBytes
  outLen : s.outLen.toNat = s.hdrLen.toNat + s.payloadLen.toNat

/-- The row of R54's table for the current STAGE, all its columns: the counts, the tree, the lengths, the
codes, the payload with its bytes in OBUF, and OUT_LEN with the header in OBUF. -/
def State.StageOk (s : State) : Prop :=
  match s.stage with
  | .idle => s.outLen = 0
  | .counted => s.Counted ∧ s.NoTree ∧ s.rootWeight = 0 ∧ s.NoLengths ∧ s.NoCodes ∧ s.NoPayload ∧
      s.outLen = 0
  | .built => s.Counted ∧ s.HasTree ∧ s.NoLengths ∧ s.NoCodes ∧ s.NoPayload ∧ s.outLen = 0
  | .extracted => s.Counted ∧ s.NoTree ∧ s.HasLengths ∧ s.NoCodes ∧ s.NoPayload ∧ s.outLen = 0
  | .assigned => s.Counted ∧ s.NoTree ∧ s.HasLengths ∧ s.HasCodes ∧ s.NoPayload ∧ s.outLen = 0
  | .packed => s.Counted ∧ s.NoTree ∧ s.HasLengths ∧ s.HasCodes ∧ s.HasPayload ∧ s.outLen = 0
  | .done => s.Counted ∧ s.NoTree ∧ s.HasLengths ∧ s.HasCodes ∧ s.HasPayload ∧ s.HasArchive

/-- A good state: what every reachable state satisfies, whatever the host does. -/
structure State.Good (s : State) : Prop where
  params  : s.ParamsOk
  buffers : s.BuffersOk
  errFlag : s.ErrOk
  stage   : s.StageOk

end Sys2Proof.Machine
end

