-- ==== Sys2Proof/Certificates/Slice0/Obligations.lean ====
section
/-! DEFINITION. The statements for the provers, file by file of spec/. A statement about every state holds
also in states no run reaches, unless it names a condition. -/

open Sys2Proof Sys2Proof.Machine

/-! ### Encoding (spec/30_encoding.md) -/

/-- R92: the words of the opcode table, and three words it does not list. -/
def Obligations.CommandWordsOfTheTable : Prop :=
  decode 0x00000000 = .ok .nop ∧ decode 0x00000001 = .ok .clear ∧ decode 0x00000010 = .ok .count ∧
  decode 0x00000011 = .ok .build ∧ decode 0x00000012 = .ok .extract ∧
  decode 0x00000013 = .ok .assign ∧ decode 0x00000014 = .ok .pack ∧
  decode 0x00000015 = .ok .header ∧ decode 0x00000020 = .ok .run ∧
  decode 0x00000016 = .error .unlistedOpcode ∧ decode 0x00000110 = .error .reservedBits ∧
  decode 0xFFFFFF20 = .error .reservedBits

/-- R90, R92: decoding an encoded command gives it back, through the opcode table's numbering too. -/
def Obligations.DecodeInvertsEncode : Prop :=
  ∀ i : Instr, i.wf = true →
    decode (encode i) = .ok i ∧ decodeTableWord 32 (encode i).toNat = some i

/-- R93, R122: a word is a command exactly when RSV is 0 and OPC is listed, and each command has exactly
one word. -/
def Obligations.DecodeAcceptsExactlyListedWords : Prop :=
  ∀ w : Word,
    ((∃ i, decode w = .ok i) ↔
      w.toNat / 256 = 0 ∧ w.toNat % 256 ∈ [0x00, 0x01, 0x10, 0x11, 0x12, 0x13, 0x14, 0x15, 0x20]) ∧
    ∀ i, decode w = .ok i → w = encode i

/-! ### The command frame (spec/40_command_control.md, spec/60_exceptions.md) -/

/-- R120: acceptance of a command word written to CMD while BUSY = 0, and none while BUSY = 1. How long the
completion step then takes is not said (R281): `delay` and `freeCount` are the model's own fields (logs 5,
6) and the statement leaves their new values open. -/
def Obligations.CommandAcceptance : Prop :=
  (∀ (s : State) (w : Word) (ops : List BusOp),
    s.inReset = false → s.busy = false → s.inbox = .write 0x000 4 w :: ops →
    ∃ delay freeCount : Nat, step s = .next { s with
      pending := w, busy := true, done := false, err := false, errCode := .none, errInfo := 0,
      delay := delay, freeCount := freeCount, inbox := ops, replies := ⟨0, false⟩ :: s.replies }) ∧
  (∀ (s : State) (w : Word) (ops : List BusOp),
    s.inReset = false → s.busy = true → 0 < s.delay → s.inbox = .write 0x000 4 w :: ops →
    ∃ t, step s = .next t ∧ t.pending = s.pending ∧ t.busy = true ∧ t.done = s.done ∧
      t.err = s.err ∧ t.errCode = s.errCode ∧ t.errInfo = s.errInfo)

/-- R121, R122: when the completion step is due and PENDING is a command's word, a step is that command's
meaning on the same state, and nothing else. -/
def Obligations.StepRunsDecodedCommand : Prop :=
  ∀ (s : State) (i : Instr),
    s.inReset = false → s.busy = true → s.delay = 0 → i.wf = true → decode s.pending = .ok i →
    step s = exec i s

/-- R93, R242: an unlisted word completes with ERR_ILLEGAL_CMD, ERR_INFO the word, all else unchanged. -/
def Obligations.IllegalWordCompletes : Prop :=
  ∀ s : State,
    s.inReset = false → s.busy = true → s.delay = 0 →
    (s.pending.toNat / 256 ≠ 0 ∨
      s.pending.toNat % 256 ∉ [0x00, 0x01, 0x10, 0x11, 0x12, 0x13, 0x14, 0x15, 0x20]) →
    step s = .next { s with
      busy := false, done := true, err := true, errCode := .illegalCmd, errInfo := s.pending }

/-- R123, R243: a stage command in another stage than the one it requires completes with ERR_SEQUENCE,
ERR_INFO = OPC·256 + STAGE with the stage numbers of R26, all else unchanged; NOP, CLEAR, COUNT and RUN
never raise ERR_SEQUENCE. -/
def Obligations.StageCheckRefuses : Prop :=
  (∀ (s : State) (i : Instr) (need : Stage) (opc num : Nat),
    (i, need, opc) ∈ [(Instr.build, Stage.counted, 0x11), (.extract, .built, 0x12),
      (.assign, .extracted, 0x13), (.pack, .assigned, 0x14), (.header, .packed, 0x15)] →
    (s.stage, num) ∈ [(Stage.idle, 0), (.counted, 1), (.built, 2), (.extracted, 3),
      (.assigned, 4), (.packed, 5), (.done, 6)] →
    s.stage ≠ need →
    exec i s = .next { s with
      busy := false, done := true, err := true, errCode := .sequence,
      errInfo := BitVec.ofNat 32 (opc * 256 + num) }) ∧
  (∀ (s t : State) (i : Instr), i ∈ [Instr.nop, .clear, .count, .run] → exec i s = .next t →
    t.errCode = .sequence → s.errCode = .sequence)

/-- R121, R124, R255: every completion step, successful or not, clears BUSY, sets DONE, and drives the
interrupt output to IRQ_EN. -/
def Obligations.CompletionEndsCommand : Prop :=
  ∀ s t : State, s.inReset = false → s.busy = true → s.delay = 0 → step s = .next t →
    t.busy = false ∧ t.done = true ∧ t.irq = s.irqEn ∧ t.statusWord.getLsbD 14 = s.irqEn

/-- R245: what an error leaves. From the error fields acceptance left, a completion step that ends in
ERR_ILLEGAL_CMD or ERR_SEQUENCE changes nothing but the frame's and the error's fields; any other error
leaves STAGE = IDLE and OUT_LEN = 0; without an error ERRCODE is NONE and ERR_INFO stays 0 (R124). -/
def Obligations.ErrorEffects : Prop :=
  ∀ s t : State, s.inReset = false → s.busy = true → s.delay = 0 →
    s.err = false → s.errCode = .none → s.errInfo = 0 → step s = .next t →
    (t.err = true ↔ t.errCode ≠ .none) ∧
    (t.err = false → t.errInfo = 0) ∧
    (t.errCode = .illegalCmd ∨ t.errCode = .sequence →
      t = { s with busy := false, done := true, err := true, errCode := t.errCode,
                   errInfo := t.errInfo }) ∧
    (t.err = true → t.errCode ≠ .illegalCmd → t.errCode ≠ .sequence →
      t.stage = .idle ∧ t.outLen = 0)

/-- R125: NOP changes nothing but the frame's fields; after an acceptance the error fields are clear. -/
def Obligations.NopCompletes : Prop :=
  (∀ s : State, exec .nop s = .next { s with busy := false, done := true }) ∧
  (∀ (s : State) (w : Word) (d : Nat), exec .nop (s.accept w d) = .next { s with
    busy := false, done := true, err := false, errCode := .none, errInfo := 0, pending := w,
    delay := d })

/-- R126, R127: CLEAR zeroes every table and run register, sets STAGE = IDLE and clears WBUSY; nothing
else changes. -/
def Obligations.ClearCompletes : Prop :=
  ∀ s : State, exec .clear s = .next { s with
    freq := Vector.replicate 256 0, order := Vector.replicate 256 0,
    len := Vector.replicate 256 0, clen := Vector.replicate 256 0,
    code := Vector.replicate 256 0, blcount := Vector.replicate 256 0,
    node := Vector.replicate 511 ⟨false, false, 0, 0, 0, 0⟩,
    nsym := 0, root := 0, rootWeight := 0, maxLen := 0, hdrLen := 0, payloadLen := 0,
    leftover := 0, outLen := 0, degen := false, dense := false,
    stage := .idle, wbusy := false, busy := false, done := true }

/-- R244: COUNT, PACK and RUN with IN_LEN > IN_MAX: ERR_IN_LEN, ERR_INFO = IN_LEN, before anything else
of the command is written. -/
def Obligations.TooLongInputRefused : Prop :=
  ∀ (s : State) (i : Instr), s.capInMax.toNat < s.inLen.toNat →
    (i = .count ∨ i = .run ∨ (i = .pack ∧ s.stage = .assigned)) →
    exec i s = .next { s with
      busy := false, done := true, err := true, errCode := .inLen, errInfo := s.inLen,
      stage := .idle, outLen := 0 }

/-! ### COUNT (spec/41_frequency_counter.md) -/

/-- R142, R143: COUNT completes for every input that fits IBUF, and leaves the frequency table of R142;
every other table is zero and nothing else changes. No later stage command writes FREQ, ORDER or NSYM. -/
def Obligations.CountBuildsFrequencyTable : Prop :=
  (∀ s : State, s.inLen.toNat ≤ s.capInMax.toNat →
    ∃ (freq : Table Word) (order : Table Byte) (nsym : BitVec 9),
      exec .count s = .next { s.clearRun with
        freq := freq, order := order, nsym := nsym, stage := .counted, busy := false,
        done := true } ∧
      (∀ b, (freq.look b).toNat = ((List.range s.inLen.toNat).map s.ibuf.read).count b) ∧
      (allBytes.map fun b => (freq.look b).toNat).sum = s.inLen.toNat ∧
      nsym.toNat = (allBytes.filter fun b => freq.look b ≠ 0).length ∧
      (order.toList.take nsym.toNat).Nodup ∧
      (∀ b, b ∈ order.toList.take nsym.toNat ↔ freq.look b ≠ 0) ∧
      (∀ r, nsym.toNat ≤ r → ∀ h : r < 256, order[r] = 0)) ∧
  (∀ (i : Instr) (s t : State), i ∈ [Instr.build, .extract, .assign, .pack, .header] →
    exec i s = .next t → t.freq = s.freq ∧ t.order = s.order ∧ t.nsym = s.nsym)

/-- R141: ORDER lists the distinct input bytes in the order of their first occurrences. -/
def Obligations.CountKeepsFirstOccurrenceOrder : Prop :=
  ∀ s t : State, s.inLen.toNat ≤ s.capInMax.toNat → exec .count s = .next t →
    (∀ b, b ∈ t.symbols ↔ b ∈ (List.range s.inLen.toNat).map s.ibuf.read) ∧ t.symbols.Nodup ∧
    ∀ (r q : Nat) (hr : r < 256) (hq : q < 256), r < q → q < t.nsym.toNat →
      ((List.range s.inLen.toNat).map s.ibuf.read).idxOf t.order[r] <
        ((List.range s.inLen.toNat).map s.ibuf.read).idxOf t.order[q]

/-! ### BUILD (spec/42_tree_builder.md) -/

/-- R155, R246: BUILD without symbols raises ERR_EMPTY_INPUT and writes no node. -/
def Obligations.BuildRefusesEmptyInput : Prop :=
  ∀ s : State, s.stage = .counted → s.nsym = 0 →
    exec .build s = .next { s with
      busy := false, done := true, err := true, errCode := .emptyInput, errInfo := 0,
      stage := .idle, outLen := 0 }

/-- R154: BUILD of one symbol makes no merge: the root is the bare leaf NODE[0]. -/
def Obligations.BuildOfOneSymbolIsBareLeaf : Prop :=
  ∀ s : State, s.stage = .counted → s.nsym = 1 →
    ∃ node : Arena,
      exec .build s = .next { s with
        node := node, root := 0, rootWeight := s.freq.look s.order[0], stage := .built,
        busy := false, done := true } ∧
      node[0] = ⟨true, true, s.order[0], s.freq.look s.order[0], 0, 0⟩ ∧
      ∀ i, 0 < i → node[i]? = s.node[i]?

/-- R150 to R153, R156, R157: BUILD completes for 1 to 256 symbols whose counts add up to a 32-bit number.
It writes the leaves at the indices 0 to NSYM − 1 and exactly NSYM − 1 internal nodes from index 256 on,
which form one full binary tree under ROOT; each node's weight is the sum below it. `Q j` is the priority
sequence before merge `j`: merge `j` removes its tail `a`, which becomes LEFT, then the element `c` before
it, which becomes RIGHT, and reinserts the new node (`PrioritySequenceStaysSorted` says what the first
sequence and a reinsertion are). -/
def Obligations.BuildMakesTree : Prop :=
  ∀ s : State, s.stage = .counted → 1 ≤ s.nsym.toNat → s.nsym.toNat ≤ 256 →
    (s.symbols.map fun b => (s.freq.look b).toNat).sum < 2 ^ 32 →
    ∃ (node : Arena) (root : NodeIx) (rootWeight : Word) (t : HuffTree) (Q : Nat → List Nat),
      exec .build s = .next { s with
        node := node, root := root, rootWeight := rootWeight, stage := .built, busy := false,
        done := true } ∧
      Represents node root.toNat t ∧ t.symbols.Perm s.symbols ∧
      rootWeight.toNat = t.weight ∧
      t.weight = (s.symbols.map fun b => (s.freq.look b).toNat).sum ∧
      (∀ r, r < s.nsym.toNat → node[r]? = some ⟨true, true, s.order[r]?.getD 0,
        s.freq.look (s.order[r]?.getD 0), 0, 0⟩) ∧
      Q 0 = initialSequence node s.nsym.toNat ∧
      (∀ j, j < s.nsym.toNat - 1 → ∃ (a c : Nat) (rest : List Nat) (nd : Node),
        Q j = rest ++ [c, a] ∧ node[256 + j]? = some nd ∧ nd.valid = true ∧ nd.isLeaf = false ∧
        nd.sym = 0 ∧ nd.left.toNat = a ∧ nd.right.toNat = c ∧
        nd.weight = weightOf node a + weightOf node c ∧
        Q (j + 1) = reinsert (fun i => (weightOf node i).toNat) (256 + j) rest) ∧
      Q (s.nsym.toNat - 1) = [root.toNat] ∧
      (∀ i, s.nsym.toNat ≤ i → i < 256 ∨ 256 + (s.nsym.toNat - 1) ≤ i → node[i]? = s.node[i]?)

/-- R151, R153, R157: the sequence before the first merge holds the leaves by descending weight, leaves of
equal weight by rank; a merged node goes to the first position, from the head, whose weight is at most its
own, so that it stands headward of its equals, and a descending sequence stays descending. -/
def Obligations.PrioritySequenceStaysSorted : Prop :=
  (∀ (nodes : Arena) (n : Nat),
    (initialSequence nodes n).Perm (List.range n) ∧
    (initialSequence nodes n).Pairwise fun i j =>
      (weightOf nodes j).toNat < (weightOf nodes i).toNat ∨
        ((weightOf nodes i).toNat = (weightOf nodes j).toNat ∧ i < j)) ∧
  (∀ (key : Nat → Nat) (x : Nat) (q : List Nat),
    (∃ pre post, q = pre ++ post ∧ reinsert key x q = pre ++ x :: post ∧
      (∀ y ∈ pre, key x < key y) ∧ (∀ y, post.head? = some y → key y ≤ key x)) ∧
    (q.Pairwise (fun a b => key b ≤ key a) →
      (reinsert key x q).Pairwise fun a b => key b ≤ key a))

/-- R160: the heap keyed by (weight, insertion time), with leaf `r` at the time NSYM − 1 − r and the
`j`-th new node at NSYM + j, writes the same NODE records, ROOT and ROOT_WEIGHT as BUILD. -/
def Obligations.HeapMergeMatchesBuild : Prop :=
  ∀ s t : State, s.stage = .counted → 1 ≤ s.nsym.toNat → s.nsym.toNat ≤ 256 →
    (s.symbols.map fun b => (s.freq.look b).toNat).sum < 2 ^ 32 →
    exec .build s = .next t →
    t.node = (heapBuild s).1 ∧ t.root.toNat = (heapBuild s).2 ∧
      t.rootWeight = weightOf (heapBuild s).1 (heapBuild s).2

/-! ### EXTRACT (spec/43_code_length_extractor.md) -/

/-- R170 to R173: EXTRACT completes on every stored tree of depth at most 255 with distinct symbols. LEN
of each symbol becomes its depth, DEGEN says whether the tree is a bare leaf, the arena and ROOT are
cleared, and nothing else changes. -/
def Obligations.ExtractGivesDepths : Prop :=
  ∀ (s : State) (t : HuffTree), s.stage = .built → Represents s.node s.root.toNat t →
    t.height ≤ 255 → t.symbols.Nodup →
    ∃ len : Table Byte,
      exec .extract s = .next { s with
        len := len, degen := t.isLeaf, node := Vector.replicate 511 ⟨false, false, 0, 0, 0, 0⟩,
        root := 0, stage := .extracted, busy := false, done := true } ∧
      (∀ p ∈ t.depths 0, (len.look p.1).toNat = p.2) ∧
      (∀ b, b ∉ t.symbols → len.look b = s.len.look b)

/-! ### ASSIGN (spec/44_canonical_code_assigner.md) -/

/-- R180 to R183, R186, R105: ASSIGN completes in every state with STAGE = EXTRACTED; the canonical
lengths, MAXLEN, the bucket sizes, DENSE and HDR_LEN it leaves; nothing but these and CODE changes. -/
def Obligations.AssignGivesLengthsAndHeader : Prop :=
  ∀ s : State, s.stage = .extracted →
    ∃ (clen : Table Byte) (maxLen : Byte) (blcount : Table (BitVec 9)) (code : Table Code)
      (dense : Bool) (hdrLen : BitVec 9),
      exec .assign s = .next { s with
        clen := clen, maxLen := maxLen, blcount := blcount, code := code, dense := dense,
        hdrLen := hdrLen, stage := .assigned, busy := false, done := true } ∧
      (∀ b, clen.look b =
        if s.freq.look b = 0 then 0 else if s.nsym = 1 then 1 else s.len.look b) ∧
      (∀ b, (clen.look b).toNat ≤ maxLen.toNat) ∧
      (maxLen = 0 ∨ ∃ b, clen.look b = maxLen) ∧
      blcount.look 0 = 0 ∧
      (∀ n : Byte, n ≠ 0 →
        (blcount.look n).toNat = (allBytes.filter fun b => clen.look b = n).length) ∧
      (dense = true ↔ 127 < s.nsym.toNat) ∧
      (hdrLen.toNat = if 127 < s.nsym.toNat then 257 else 2 + maxLen.toNat + s.nsym.toNat) ∧
      (∀ b, clen.look b = 0 → code.look b = s.code.look b)

/-- R184, R185: the code of a byte of length L is the sum of R185, `Σ_{L' < L} BLCOUNT[L']·2^(L − L')`
plus its position in its bucket, mod 2^L; under Kraft's inequality the mod changes nothing. -/
def Obligations.AssignNumbersCanonically : Prop :=
  ∀ (s t : State) (b : Byte), s.stage = .extracted → exec .assign s = .next t →
    t.clen.look b ≠ 0 →
    let L := (t.clen.look b).toNat
    let v := ((List.range' 1 (L - 1)).map fun n =>
        (allBytes.filter fun c => (t.clen.look c).toNat = n).length * 2 ^ (L - n)).sum +
      (allBytes.filter fun c => c.toNat < b.toNat ∧ t.clen.look c = t.clen.look b).length
    (t.code.look b).toNat = v % 2 ^ L ∧
    (kraftSum (lengthsOf t.clen) ≤ 2 ^ 255 → (t.code.look b).toNat = v ∧ v < 2 ^ L)

/-- R187: codes of equal length are consecutive integers: they differ by the difference of the bytes'
positions in their bucket. -/
def Obligations.EqualLengthCodesAreConsecutive : Prop :=
  ∀ (s t : State) (b c : Byte), s.stage = .extracted → exec .assign s = .next t →
    kraftSum (lengthsOf t.clen) ≤ 2 ^ 255 → t.clen.look b ≠ 0 →
    t.clen.look b = t.clen.look c → b.toNat < c.toNat →
    (t.code.look c).toNat = (t.code.look b).toNat +
      (allBytes.filter fun d =>
        b.toNat ≤ d.toNat ∧ d.toNat < c.toNat ∧ t.clen.look d = t.clen.look b).length

/-- R187: the set of codes is prefix free. -/
def Obligations.CodesArePrefixFree : Prop :=
  ∀ (s t : State) (b c : Byte), s.stage = .extracted → exec .assign s = .next t →
    kraftSum (lengthsOf t.clen) ≤ 2 ^ 255 →
    t.clen.look b ≠ 0 → t.clen.look c ≠ 0 → b ≠ c → ¬ t.codeBits b <+: t.codeBits c

/-! ### PACK (spec/46_bit_packer.md) -/

/-- R106, R222 to R225: PACK completes when the input fits IBUF, every input byte has a code and the
payload fits OBUF. LEFTOVER and PAYLOAD_LEN are those of R224, payload byte `k` at OBUF[HDR_LEN + k] is
byte `k` of the codes' bit stream padded with ones, every other byte of OBUF and all else stays. -/
def Obligations.PackWritesPayload : Prop :=
  ∀ s : State, s.stage = .assigned → s.obuf.wf → s.inLen.toNat ≤ s.capInMax.toNat →
    let input := (List.range s.inLen.toNat).map s.ibuf.read
    let T := bitCost (lengthsOf s.clen) input
    (∀ b ∈ input, s.clen.look b ≠ 0) →
    s.hdrLen.toNat + (T + 7) / 8 ≤ s.capObufSize.toNat →
    ∃ (obuf : Memory) (leftover : BitVec 3) (payloadLen : Word),
      exec .pack s = .next { s with
        obuf := obuf, leftover := leftover, payloadLen := payloadLen, stage := .packed,
        busy := false, done := true } ∧
      leftover.toNat = T % 8 ∧ payloadLen.toNat = (T + 7) / 8 ∧
      (∀ k, k < (T + 7) / 8 →
        obuf.read (s.hdrLen.toNat + k) = streamByte (s.bitStream input) k) ∧
      (∀ o, o < s.hdrLen.toNat ∨ s.hdrLen.toNat + (T + 7) / 8 ≤ o →
        obuf.read o = s.obuf.read o)

/-- R221, R247, R250: PACK meets a byte without a code at index `i`, all earlier ones having codes whose
whole bytes fit: ERR_LOOKUP with ERR_INFO = i; those payload bytes stay written, nothing else changes but
the error's fields. -/
def Obligations.PackMissingCodeRaisesLookup : Prop :=
  ∀ (s : State) (i : Nat), s.stage = .assigned → s.obuf.wf → s.inLen.toNat ≤ s.capInMax.toNat →
    i < s.inLen.toNat → s.clen.look (s.ibuf.read i) = 0 →
    let before := (List.range i).map s.ibuf.read
    let T := bitCost (lengthsOf s.clen) before
    (∀ b ∈ before, s.clen.look b ≠ 0) → s.hdrLen.toNat + T / 8 ≤ s.capObufSize.toNat →
    ∃ obuf : Memory,
      exec .pack s = .next { s with
        obuf := obuf, busy := false, done := true, err := true, errCode := .lookup,
        errInfo := BitVec.ofNat 32 i, stage := .idle, outLen := 0 } ∧
      (∀ k, k < T / 8 → obuf.read (s.hdrLen.toNat + k) = streamByte (s.bitStream before) k) ∧
      (∀ o, o < s.hdrLen.toNat ∨ s.hdrLen.toNat + T / 8 ≤ o → obuf.read o = s.obuf.read o)

/-- R225, R248, R250: PACK overflows OBUF within the first `n` input bytes, all of which have codes (their
whole bytes do not fit, or, for the whole input, its padded payload): ERR_OUT_OVERFLOW with ERR_INFO =
OBUF_SIZE, whether or not a later byte has a code; the payload bytes that fit stay written, nothing else
changes but the error's fields. -/
def Obligations.PackOverflowRaisesOutOverflow : Prop :=
  ∀ (s : State) (n : Nat), s.stage = .assigned → s.obuf.wf →
    s.inLen.toNat ≤ s.capInMax.toNat → n ≤ s.inLen.toNat →
    let input := (List.range n).map s.ibuf.read
    let T := bitCost (lengthsOf s.clen) input
    (∀ b ∈ input, s.clen.look b ≠ 0) →
    s.hdrLen.toNat ≤ s.capObufSize.toNat →
    s.capObufSize.toNat < s.hdrLen.toNat + (if n = s.inLen.toNat then (T + 7) / 8 else T / 8) →
    ∃ obuf : Memory,
      exec .pack s = .next { s with
        obuf := obuf, busy := false, done := true, err := true, errCode := .outOverflow,
        errInfo := s.capObufSize, stage := .idle, outLen := 0 } ∧
      (∀ k, s.hdrLen.toNat + k < s.capObufSize.toNat →
        obuf.read (s.hdrLen.toNat + k) = streamByte (s.bitStream input) k) ∧
      (∀ o, o < s.hdrLen.toNat ∨ s.capObufSize.toNat ≤ o → obuf.read o = s.obuf.read o)

/-! ### HEADER (spec/45_header_serializer.md) -/

/-- R104, R201, R203, R204: HEADER in the dense format. -/
def Obligations.HeaderWritesDenseTable : Prop :=
  ∀ s : State, s.stage = .packed → s.dense = true → s.obuf.wf → 257 ≤ s.capObufSize.toNat →
    ∃ obuf : Memory,
      exec .header s = .next { s with
        obuf := obuf, outLen := s.hdrLen.setWidth 32 + s.payloadLen, stage := .done,
        busy := false, done := true } ∧
      (obuf.read 0).toNat = s.leftover.toNat * 32 + 16 ∧
      (∀ v : Byte, obuf.read (1 + v.toNat) = s.clen.look v) ∧
      (∀ o, 257 ≤ o → obuf.read o = s.obuf.read o)

/-- R103, R201, R202, R204: HEADER in the sparse format: control byte, NSYM, one count byte per length,
then the symbols by ascending length and, within a length, ascending value. -/
def Obligations.HeaderWritesSparseTable : Prop :=
  ∀ s : State, s.stage = .packed → s.dense = false → s.obuf.wf → s.nsym.toNat ≤ 127 →
    let coded := (allBytes.filter fun b =>
      1 ≤ (s.clen.look b).toNat ∧ (s.clen.look b).toNat ≤ s.maxLen.toNat).length
    2 + s.maxLen.toNat + coded ≤ s.capObufSize.toNat →
    ∃ (obuf : Memory) (syms : List Byte),
      exec .header s = .next { s with
        obuf := obuf, outLen := s.hdrLen.setWidth 32 + s.payloadLen, stage := .done,
        busy := false, done := true } ∧
      (obuf.read 0).toNat = s.leftover.toNat * 32 ∧
      (obuf.read 1).toNat = s.nsym.toNat ∧
      (∀ n : Byte, 1 ≤ n.toNat → n.toNat ≤ s.maxLen.toNat →
        obuf.read (1 + n.toNat) = (s.blcount.look n).setWidth 8) ∧
      syms.length = coded ∧
      (∀ b, b ∈ syms ↔ 1 ≤ (s.clen.look b).toNat ∧ (s.clen.look b).toNat ≤ s.maxLen.toNat) ∧
      (syms.Pairwise fun a b => (s.clen.look a).toNat < (s.clen.look b).toNat ∨
        (s.clen.look a = s.clen.look b ∧ a.toNat < b.toNat)) ∧
      (∀ i, i < coded → obuf.read (2 + s.maxLen.toNat + i) = syms[i]?.getD 0) ∧
      (∀ o, 2 + s.maxLen.toNat + coded ≤ o → obuf.read o = s.obuf.read o)

/-! ### RUN (spec/40_command_control.md) -/

/-- R128, R274: RUN is the six stage commands one after the other, up to the first error. -/
def Obligations.RunIsTheSixStages : Prop :=
  ∀ s : State, s.err = false →
    exec .run s = runUntilError [.count, .build, .extract, .assign, .pack, .header] s

/-- R128, R246: RUN of an empty input ends in ERR_EMPTY_INPUT with every table zero and STAGE = IDLE. -/
def Obligations.RunOfEmptyInputRaisesEmptyInput : Prop :=
  ∀ s : State, s.inLen = 0 →
    exec .run s = .next { s.clearRun with
      busy := false, done := true, err := true, errCode := .emptyInput, errInfo := 0,
      stage := .idle, outLen := 0 }

/-- R128, R204, R248: RUN completes on every input of N = 1 to IN_MAX bytes when OBUF has 257 + N bytes
(the payload of N bytes is at most N bytes, by the optimality of Huffman codes): the archive is complete,
the error fields are as acceptance left them, and the run registers are those of the input. Without that
room RUN completes, or ends in ERR_OUT_OVERFLOW with ERR_INFO = OBUF_SIZE, and in nothing else. -/
def Obligations.RunCompletes : Prop :=
  (∀ s : State, s.ParamsOk → 1 ≤ s.inLen.toNat → s.inLen.toNat ≤ s.capInMax.toNat →
    257 + s.inLen.toNat ≤ s.capObufSize.toNat →
    ∃ t : State, exec .run s = .next t ∧
      t.stage = .done ∧ t.busy = false ∧ t.done = true ∧ t.err = s.err ∧ t.errCode = s.errCode ∧
      t.errInfo = s.errInfo ∧ t.wbusy = s.wbusy ∧
      (∀ b, (t.freq.look b).toNat = ((List.range s.inLen.toNat).map s.ibuf.read).count b) ∧
      t.nsym.toNat = (allBytes.filter fun b => t.freq.look b ≠ 0).length ∧
      t.rootWeight = s.inLen ∧ (t.degen = true ↔ t.nsym = 1) ∧
      (t.dense = true ↔ 127 < t.nsym.toNat) ∧
      (∀ b, t.clen.look b ≠ 0 ↔ t.freq.look b ≠ 0) ∧
      t.payloadLen.toNat = (bitCost (lengthsOf t.clen)
        ((List.range s.inLen.toNat).map s.ibuf.read) + 7) / 8 ∧
      t.payloadLen.toNat ≤ s.inLen.toNat ∧
      t.outLen.toNat = t.hdrLen.toNat + t.payloadLen.toNat) ∧
  (∀ s : State, s.ParamsOk → 1 ≤ s.inLen.toNat → s.inLen.toNat ≤ s.capInMax.toNat →
    ∃ t : State, exec .run s = .next t ∧
      (t.stage = .done ∨ (t.stage = .idle ∧ t.err = true ∧ t.errCode = .outOverflow ∧
        t.errInfo = s.capObufSize ∧ t.outLen = 0)))

/-- R129: no RUN ends in ERR_LOOKUP (its ERRCODE is ERR_LOOKUP only if it was before). -/
def Obligations.RunNeverRaisesLookup : Prop :=
  ∀ s t : State, exec .run s = .next t → t.errCode = .lookup → s.errCode = .lookup

/-- R211: the round-trip laws: after a RUN without error, or the six stage commands one after the other
without error, the reference decoder of R210 gives back the input from the archive, and the length table
it reads is CLEN. -/
def Obligations.ArchiveDecodesToInput : Prop :=
  ∀ s t : State, s.ParamsOk → s.obuf.wf → 1 ≤ s.inLen.toNat →
    exec .run s = .next t ∨
      runUntilError [.count, .build, .extract, .assign, .pack, .header] s = .next t →
    t.stage = .done →
    refDecode t.archive = some ((List.range s.inLen.toNat).map s.ibuf.read) ∧
    ∃ cl payload, readHeader t.archive = some (cl, payload) ∧
      ∀ b, cl.look b = (t.clen.look b).toNat

/-- R276: in a staged run the archive decodes to the bytes PACK read, whatever the host did to IBUF and
IN_LEN after COUNT. -/
def Obligations.StagedArchiveDecodesToPackedBytes : Prop :=
  ∀ s t u : State, s.Good → s.stage = .assigned → exec .pack s = .next t → t.stage = .packed →
    exec .header t = .next u →
    refDecode u.archive = some ((List.range s.inLen.toNat).map s.ibuf.read)

/-- The model's choice (logs 10, 11, 12): where a rule's pseudocode would use an element that does not
exist or never end, the command stops with a named fault: BUILD of more than 256 symbols, EXTRACT where the
root is its own left child, HEADER whose dense header does not fit OBUF. No run reaches such a state
(`GoodStatesNeverStop`). -/
def Obligations.UnreachableStatesStop : Prop :=
  (∀ s : State, s.stage = .counted → 256 < s.nsym.toNat → exec .build s = .fault .orderIndex) ∧
  (∀ (s : State) (nd : Node), s.stage = .built → s.node[s.root.toNat]? = some nd →
    nd.isLeaf = false → nd.left = s.root → exec .extract s = .fault .walkDiverges) ∧
  (∀ s : State, s.stage = .packed → s.dense = true → s.capObufSize.toNat < 257 →
    exec .header s = .fault .obufRange)

/-! ### Frames over all commands -/

/-- R31, R33, R34, R49, R76: no command writes CTRL, IN_LEN, IBUF or the capability registers, and none
touches the reset input or what belongs to the host. That PENDING keeps its word at the completion step is
the model's choice (log 4): U11 leaves it open while BUSY = 0. -/
def Obligations.CommandsKeepHostState : Prop :=
  ∀ (i : Instr) (s t : State), exec i s = .next t →
    t.irqEn = s.irqEn ∧ t.inLen = s.inLen ∧ t.capInMax = s.capInMax ∧
    t.capObufSize = s.capObufSize ∧ (∀ o, t.ibuf.read o = s.ibuf.read o) ∧ t.ibuf = s.ibuf ∧
    t.pending = s.pending ∧ t.inReset = s.inReset ∧ t.delay = s.delay ∧
    t.freeCount = s.freeCount ∧ t.inbox = s.inbox ∧ t.replies = s.replies

/-- R50, R72: which commands write OBUF and where. NOP, CLEAR, COUNT, BUILD, EXTRACT and ASSIGN write no
byte; PACK only payload bytes from HDR_LEN up; HEADER only header bytes; RUN nothing beyond the buffer. -/
def Obligations.CommandsKeepOutputBuffer : Prop :=
  (∀ (i : Instr) (s t : State) (o : Nat),
    i ∈ [Instr.nop, .clear, .count, .build, .extract, .assign] → exec i s = .next t →
    t.obuf.read o = s.obuf.read o) ∧
  (∀ (s t : State) (o : Nat), exec .pack s = .next t →
    o < s.hdrLen.toNat ∨ s.capObufSize.toNat ≤ o ∨
      s.hdrLen.toNat + (bitCost (lengthsOf s.clen)
        ((List.range s.inLen.toNat).map s.ibuf.read) + 7) / 8 ≤ o →
    t.obuf.read o = s.obuf.read o) ∧
  (∀ (s t : State) (o : Nat), exec .header s = .next t →
    s.capObufSize.toNat ≤ o ∨ (if s.dense then 257 else 2 + s.maxLen.toNat +
      (allBytes.filter fun b => 1 ≤ (s.clen.look b).toNat ∧
        (s.clen.look b).toNat ≤ s.maxLen.toNat).length) ≤ o →
    t.obuf.read o = s.obuf.read o) ∧
  (∀ (s t : State) (o : Nat), exec .run s = .next t → s.capObufSize.toNat ≤ o →
    t.obuf.read o = s.obuf.read o)

/-- R33: the capability registers are constant for the life of the block, across reset too. -/
def Obligations.CapabilitiesAreConstant : Prop :=
  ∀ s t : State, step s = .next t →
    t.capInMax = s.capInMax ∧ t.capObufSize = s.capObufSize

/-- R28: WBUSY is sticky: it is set by a legal host write while BUSY, and only the completion of CLEAR or
a reset clears it. -/
def Obligations.WbusyIsSticky : Prop :=
  (∀ (s : State) (a : Word) (n : Nat) (v : Word) (ops : List BusOp),
    s.inReset = false → s.busy = true → 0 < s.delay → s.inbox = .write a n v :: ops →
    AccessAllowed a n → ∃ t, step s = .next t ∧ t.wbusy = true) ∧
  (∀ s t : State, step s = .next t → s.wbusy = true → t.wbusy = false →
    (s.completionDue = true ∧ decode s.pending = .ok .clear) ∨
      (s.completionDue = false ∧ s.inbox.head? = some .resetAssert))

/-! ### Registers and the host bus (spec/10_state.md, spec/20_memory.md) -/

/-- R22, R26, R30, R241: the STATUS word, with the stage numbers of R26 and the error codes of R241. -/
def Obligations.StatusWordLayout : Prop :=
  ∀ s : State,
    s.statusWord.getLsbD 0 = s.busy ∧ s.statusWord.getLsbD 1 = s.done ∧
    s.statusWord.getLsbD 2 = s.err ∧ s.statusWord.getLsbD 3 = false ∧
    (s.errCode, (s.statusWord.extractLsb' 4 4).toNat) ∈ [(ErrCode.none, 0), (.illegalCmd, 1),
      (.sequence, 2), (.inLen, 3), (.emptyInput, 4), (.lookup, 5), (.outOverflow, 6)] ∧
    (s.stage, (s.statusWord.extractLsb' 8 3).toNat) ∈ [(Stage.idle, 0), (.counted, 1), (.built, 2),
      (.extracted, 3), (.assigned, 4), (.packed, 5), (.done, 6)] ∧
    s.statusWord.getLsbD 11 = s.degen ∧ s.statusWord.getLsbD 12 = s.wbusy ∧
    s.statusWord.getLsbD 13 = s.dense ∧ s.statusWord.getLsbD 14 = (s.irqEn && s.done) ∧
    ∀ k, 15 ≤ k → s.statusWord.getLsbD k = false

/-- R52, R67: what a read of the register region answers while BUSY = 0; reserved places read 0. -/
def Obligations.RegisterMapReads : Prop :=
  ∀ s : State, s.inReset = false → s.busy = false →
    ReadGives s 0x000 4 0 ∧ ReadGives s 0x004 4 s.statusWord ∧
    ReadGives s 0x008 4 (if s.irqEn then 1 else 0) ∧ ReadGives s 0x00C 4 s.inLen ∧
    ReadGives s 0x010 4 (s.nsym.setWidth 32) ∧ ReadGives s 0x014 4 (s.root.setWidth 32) ∧
    ReadGives s 0x018 4 s.rootWeight ∧ ReadGives s 0x01C 4 (s.maxLen.setWidth 32) ∧
    ReadGives s 0x020 4 (s.hdrLen.setWidth 32) ∧ ReadGives s 0x024 4 s.payloadLen ∧
    ReadGives s 0x028 4 s.outLen ∧ ReadGives s 0x02C 4 (s.leftover.setWidth 32) ∧
    ReadGives s 0x030 4 s.errInfo ∧ ReadGives s 0x034 4 s.capInMax ∧
    ReadGives s 0x038 4 s.capObufSize ∧
    (∀ b : Byte,
      ReadGives s (BitVec.ofNat 32 (0x400 + 4 * b.toNat)) 4 (s.freq.look b) ∧
      ReadGives s (BitVec.ofNat 32 (0x800 + 4 * b.toNat)) 4 ((s.order.look b).setWidth 32) ∧
      ReadGives s (BitVec.ofNat 32 (0xC00 + 4 * b.toNat)) 4 ((s.len.look b).setWidth 32) ∧
      ReadGives s (BitVec.ofNat 32 (0x1000 + 4 * b.toNat)) 4 ((s.clen.look b).setWidth 32) ∧
      ReadGives s (BitVec.ofNat 32 (0x1400 + 4 * b.toNat)) 4 ((s.blcount.look b).setWidth 32) ∧
      ∀ w, w < 8 → ReadGives s (BitVec.ofNat 32 (0x2000 + 32 * b.toNat + 4 * w)) 4
        (BitVec.ofNat 32 ((s.code.look b).toNat / 2 ^ (32 * w)))) ∧
    (∀ (n : Nat) (h : n < 511),
      ReadGives s (BitVec.ofNat 32 (0x4000 + 16 * n)) 4 s.node[n].weight ∧
      ReadGives s (BitVec.ofNat 32 (0x4000 + 16 * n + 4)) 4 (s.node[n].left.setWidth 32) ∧
      ReadGives s (BitVec.ofNat 32 (0x4000 + 16 * n + 8)) 4 (s.node[n].right.setWidth 32) ∧
      ReadGives s (BitVec.ofNat 32 (0x4000 + 16 * n + 12)) 4 (BitVec.ofNat 32
        (s.node[n].valid.toNat * 2 ^ 31 + s.node[n].isLeaf.toNat * 2 ^ 8 +
          s.node[n].sym.toNat))) ∧
    (∀ a : Word, 4 ∣ a.toNat →
      (0x03C ≤ a.toNat ∧ a.toNat < 0x400) ∨ (0x1800 ≤ a.toNat ∧ a.toNat < 0x2000) ∨
        (0x5FF0 ≤ a.toNat ∧ a.toNat < 0x40000000) ∨ 0xC0000000 ≤ a.toNat →
      ReadGives s a 4 0)

/-- R64, R65, R68: reads of the two windows while BUSY = 0 are little-endian; bytes past the buffer
read 0. -/
def Obligations.WindowReadsAreLittleEndian : Prop :=
  ∀ (s : State) (o n : Nat), s.inReset = false → s.busy = false → o < 2 ^ 30 →
    (n = 1 ∨ n = 2 ∨ n = 4) → n ∣ o →
    ReadGives s (BitVec.ofNat 32 (0x40000000 + o)) n (BitVec.ofNat 32
      ((List.range n).map fun k => 256 ^ k *
        (if o + k < s.capInMax.toNat then (s.ibuf.read (o + k)).toNat else 0)).sum) ∧
    ReadGives s (BitVec.ofNat 32 (0x80000000 + o)) n (BitVec.ofNat 32
      ((List.range n).map fun k => 256 ^ k *
        (if o + k < s.capObufSize.toNat then (s.obuf.read (o + k)).toNat else 0)).sum)

/-- R64, R65, R68: a host write to the IBUF window while BUSY = 0 sets exactly the bytes it covers that
exist, byte `k` of the data at offset `o + k`. -/
def Obligations.InputWindowWrites : Prop :=
  ∀ (s : State) (o n : Nat) (v : Word), s.inReset = false → s.busy = false → s.ibuf.wf →
    o < 2 ^ 30 → (n = 1 ∨ n = 2 ∨ n = 4) → n ∣ o →
    ∃ ibuf : Memory,
      WriteLeaves s (BitVec.ofNat 32 (0x40000000 + o)) n v { s with ibuf := ibuf } ∧
      ∀ i, ibuf.read i = if o ≤ i ∧ i < o + n ∧ i < s.capInMax.toNat then
        v.extractLsb' (8 * (i - o)) 8 else s.ibuf.read i

/-- R24, R31, R34: writes of STATUS, CTRL and IN_LEN while BUSY = 0. -/
def Obligations.ControlRegisterWrites : Prop :=
  ∀ (s : State) (v : Word), s.inReset = false → s.busy = false →
    WriteLeaves s 0x004 4 v { s with done := if v.getLsbD 1 then false else s.done } ∧
    WriteLeaves s 0x008 4 v { s with irqEn := v.getLsbD 0 } ∧
    WriteLeaves s 0x00C 4 v { s with inLen := v }

/-- R67, R69: writes of read-only and reserved places and of the OBUF window are ignored. -/
def Obligations.ReadOnlyPlacesIgnoreWrites : Prop :=
  ∀ (s : State) (a : Word) (n : Nat) (v : Word), s.inReset = false → s.busy = false →
    AccessAllowed a n → 0x010 ≤ a.toNat →
    a.toNat < 0x40000000 ∨ 0x80000000 ≤ a.toNat →
    WriteLeaves s a n v s

/-- R63, R64, R66, R257: with reset released, an access R63 and R64 do not allow gets a bus error and no
effect, a read with data 0; an allowed one gets no bus error. A command in progress goes on (`delay` is the
model's own field, log 5). Accesses while reset is asserted are in `AccessesDuringReset`. -/
def Obligations.BusErrorExactlyOnIllegalAccess : Prop :=
  ∀ (s : State) (a : Word) (n : Nat) (v : Word) (ops : List BusOp),
    s.inReset = false → s.busy = false ∨ 0 < s.delay →
    (s.inbox = .write a n v :: ops → ¬ AccessAllowed a n →
      step s = .next { s with
        delay := if s.busy then s.delay - 1 else s.delay, inbox := ops,
        replies := ⟨0, true⟩ :: s.replies }) ∧
    (s.inbox = .read a n :: ops → ¬ AccessAllowed a n →
      step s = .next { s with
        delay := if s.busy then s.delay - 1 else s.delay, inbox := ops,
        freeCount := s.freeCount + 1, replies := ⟨0, true⟩ :: s.replies }) ∧
    (s.inbox = .write a n v :: ops ∨ s.inbox = .read a n :: ops → AccessAllowed a n →
      ∃ (t : State) (d : Word), step s = .next t ∧ t.replies = ⟨d, false⟩ :: s.replies)

/-- R70, R258: a legal host write while BUSY = 1 is dropped and sets WBUSY, nothing else. -/
def Obligations.WritesWhileBusyAreDropped : Prop :=
  ∀ (s : State) (a : Word) (n : Nat) (v : Word) (ops : List BusOp),
    s.inReset = false → s.busy = true → 0 < s.delay → s.inbox = .write a n v :: ops →
    AccessAllowed a n →
    step s = .next { s with
      wbusy := true, delay := s.delay - 1, inbox := ops, replies := ⟨0, false⟩ :: s.replies }

/-- R70: host reads while BUSY = 1: STATUS and the capability registers answer as ever, any other allowed
read answers some value, and no read has an effect on the block. -/
def Obligations.ReadsWhileBusy : Prop :=
  ∀ (s : State) (a : Word) (n : Nat) (ops : List BusOp),
    s.inReset = false → s.busy = true → 0 < s.delay → s.inbox = .read a n :: ops →
    AccessAllowed a n →
    ∃ d : Word,
      step s = .next { s with
        delay := s.delay - 1, inbox := ops, freeCount := s.freeCount + 1,
        replies := ⟨d, false⟩ :: s.replies } ∧
      (a = 0x004 → d = s.statusWord) ∧ (a = 0x034 → d = s.capInMax) ∧
      (a = 0x038 → d = s.capObufSize)

/-- R95: a POLL repeats its 32-bit read until `(read AND mask) = value`; each read is one step (log 15).
WAIT goes on polling while a command is in progress. -/
def Obligations.PollRepeatsUntilMatch : Prop :=
  (∀ (s : State) (a mask v d : Word) (ops : List BusOp), s.busy = false → ReadGives s a 4 d →
    step { s with inbox := .poll a mask v :: ops } = .next { s with
      inbox := if d &&& mask = v then ops else .poll a mask v :: ops,
      freeCount := s.freeCount + 1, replies := ⟨d, false⟩ :: s.replies }) ∧
  (∀ (s : State) (ops : List BusOp), s.inReset = false → s.busy = true → 0 < s.delay →
    s.inbox = .poll 0x004 1 0 :: ops →
    step s = .next { s with
      delay := s.delay - 1, freeCount := s.freeCount + 1,
      replies := ⟨s.statusWord, false⟩ :: s.replies })

/-- R264, R276: a block that is not BUSY does nothing until the host acts. -/
def Obligations.IdleBlockWaits : Prop :=
  ∀ s : State, s.busy = false → s.inbox = [] → step s = .next s

/-! ### Reset and completion (spec/70_reset_and_hazards.md) -/

/-- R271, R273: the reset state: STATUS, CTRL, every run register and every table 0, no interrupt. -/
def Obligations.ResetStateValues : Prop :=
  State.reset.statusWord = 0 ∧ State.reset.irq = false ∧ State.reset.irqEn = false ∧
  State.reset.inLen = 0 ∧ State.reset.nsym = 0 ∧ State.reset.root = 0 ∧
  State.reset.rootWeight = 0 ∧ State.reset.maxLen = 0 ∧ State.reset.hdrLen = 0 ∧
  State.reset.payloadLen = 0 ∧ State.reset.outLen = 0 ∧ State.reset.leftover = 0 ∧
  State.reset.errInfo = 0 ∧
  (∀ b, State.reset.freq.look b = 0 ∧ State.reset.order.look b = 0 ∧
    State.reset.len.look b = 0 ∧ State.reset.clen.look b = 0 ∧ State.reset.blcount.look b = 0 ∧
    State.reset.code.look b = 0) ∧
  (∀ (n : Nat) (h : n < 511), State.reset.node[n] = ⟨false, false, 0, 0, 0, 0⟩) ∧
  paramsWf State.reset.capInMax State.reset.capObufSize = true

/-- R270 to R272: asserting reset, also while a command is in progress, puts the block into the reset
state in one step, with the capability registers kept and the buffers and PENDING at some values. -/
def Obligations.ResetEvent : Prop :=
  ∀ (s : State) (ops : List BusOp), s.inbox = .resetAssert :: ops →
    s.inReset = true ∨ s.busy = false ∨ 0 < s.delay →
    ∃ (ibuf obuf : Memory) (pending : Word) (freeCount : Nat),
      step s = .next { State.reset with
        capInMax := s.capInMax, capObufSize := s.capObufSize, ibuf := ibuf, obuf := obuf,
        pending := pending, freeCount := freeCount, inReset := true, inbox := ops,
        replies := s.replies } ∧
      ibuf.wf ∧ ibuf.within s.capInMax.toNat ∧ obuf.wf ∧ obuf.within s.capObufSize.toNat

/-- R270: while reset is asserted no host access has an effect on the block; releasing it changes nothing
else. Which accesses get a bus error then is the model's choice (log 14): those R63 and R64 do not allow,
with data 0, and no others; R270 says nothing of it. -/
def Obligations.AccessesDuringReset : Prop :=
  ∀ (s : State) (a : Word) (n : Nat) (v : Word) (ops : List BusOp),
    s.inReset = true → s.busy = false →
    (s.inbox = .write a n v :: ops ∨ s.inbox = .read a n :: ops →
      ∃ (r : BusReply) (f : Nat),
        step s = .next { s with inbox := ops, freeCount := f, replies := r :: s.replies } ∧
        (AccessAllowed a n → r.busError = false) ∧ (¬ AccessAllowed a n → r = ⟨0, true⟩)) ∧
    (s.inbox = .resetRelease :: ops → step s = .next { s with inbox := ops, inReset := false })

/-- R121, R281: an accepted command reaches its completion step after its finite delay, whatever the host
does short of a reset; after each number `k` of steps up to then only WBUSY has changed of the block. That
the delay is a count of steps in the field `delay` is the model's choice (log 5). -/
def Obligations.AcceptedCommandCompletes : Prop :=
  ∀ (s : State) (k : Nat), s.inReset = false → s.busy = true →
    (∀ op ∈ s.inbox, op ≠ .resetAssert) → k ≤ s.delay →
    ∃ (wbusy : Bool) (inbox : List BusOp) (freeCount : Nat) (replies : List BusReply),
      Sys2Proof.core.run k s = .next { s with
        wbusy := wbusy, delay := s.delay - k, inbox := inbox, freeCount := freeCount,
        replies := replies }

/-! ### Invariants of every step -/

/-- The reset state is a good state. -/
def Obligations.ResetStateIsGood : Prop := State.reset.Good

/-- R49, R50, R71, R72: every step keeps both buffers in canonical form and inside their capacities. -/
def Obligations.StepKeepsBuffers : Prop :=
  ∀ s t : State, s.BuffersOk → step s = .next t → t.BuffersOk

/-- R25: every step keeps ERR = 1 exactly when ERRCODE ≠ 0. -/
def Obligations.StepKeepsErrorFlag : Prop :=
  ∀ s t : State, (s.err = true ↔ s.errCode ≠ .none) → step s = .next t →
    (t.err = true ↔ t.errCode ≠ .none)

/-- R40: in a good state OUT_LEN is nonzero exactly when STAGE = DONE, and then it is HDR_LEN +
PAYLOAD_LEN, an archive that lies inside OBUF. -/
def Obligations.ArchivePresentExactlyWhenDone : Prop :=
  ∀ s : State, s.Good →
    (s.outLen ≠ 0 ↔ s.stage = .done) ∧
    (s.stage = .done → s.outLen.toNat = s.hdrLen.toNat + s.payloadLen.toNat ∧
      s.outLen.toNat ≤ s.capObufSize.toNat)

/-- R54: every step keeps the state good: the parameters, the buffers, the error flag and the stage
table of R54 with the payload and the header in OBUF (`State.StageOk`), whatever the host does; and no good
state stops. -/
def Obligations.GoodStatesNeverStop : Prop :=
  ∀ s : State, s.Good → ∃ t : State, step s = .next t ∧ t.Good
end

