-- ==== Sys2Proof/Laws/Bits.lean ====
section
/-! SUPPORT. Laws of bit strings (R10): lengths, values, and that `bin` and `val` are inverse. -/

namespace Sys2Proof.Machine

@[simp] theorem length_bin (v n : Nat) : (bin v n).length = n := by
  induction n with
  | zero => rfl
  | succ n ih => simp [bin, ih]

@[simp] theorem length_ones (n : Nat) : (ones n).length = n := by simp [ones]

@[simp] theorem val_nil : val [] = 0 := rfl

theorem val_foldl (s : BitString) (a : Nat) :
    s.foldl (fun acc b => 2 * acc + b.toNat) a = a * 2 ^ s.length + val s := by
  induction s generalizing a with
  | nil => simp [val]
  | cons b s ih =>
    simp only [List.foldl_cons, List.length_cons, val]
    rw [ih, ih (2 * 0 + b.toNat)]
    ring

theorem val_cons (b : Bool) (s : BitString) : val (b :: s) = b.toNat * 2 ^ s.length + val s := by
  have := val_foldl s (2 * 0 + b.toNat)
  simpa [val] using this

theorem val_append (s t : BitString) : val (s ++ t) = val s * 2 ^ t.length + val t := by
  rw [val, List.foldl_append, val_foldl]
  rfl

theorem val_lt (s : BitString) : val s < 2 ^ s.length := by
  induction s with
  | nil => simp
  | cons b s ih =>
    rw [val_cons, List.length_cons, pow_succ]
    cases b <;> (simp; omega)

/-- `val(bin(v, n)) = v mod 2^n`. -/
theorem val_bin (v n : Nat) : val (bin v n) = v % 2 ^ n := by
  induction n with
  | zero => simp [bin, Nat.mod_one]
  | succ n ih =>
    rw [bin, val_cons, ih, length_bin, Nat.mod_pow_succ, Nat.testBit_eq_decide_div_mod_eq]
    rcases Nat.mod_two_eq_zero_or_one (v / 2 ^ n) with h | h
    · simp [h]
    · simp [h]; omega

/-- A bit string is determined by its length and value. -/
theorem val_inj (s t : BitString) (hl : s.length = t.length) (hv : val s = val t) : s = t := by
  induction s generalizing t with
  | nil => exact (List.length_eq_zero_iff.1 hl.symm).symm
  | cons b s ih =>
    cases t with
    | nil => simp at hl
    | cons c t =>
      have hl' : s.length = t.length := by simpa using hl
      rw [val_cons, val_cons, hl'] at hv
      have h1 := val_lt s
      have h2 := val_lt t
      rw [hl'] at h1
      cases b <;> cases c <;> simp at hv ⊢
      · exact ih t hl' hv
      · omega
      · omega
      · exact ih t hl' hv

/-- `bin(val(s), |s|) = s`. -/
theorem bin_val (s : BitString) : bin (val s) s.length = s :=
  val_inj _ _ (by simp) (by rw [val_bin, Nat.mod_eq_of_lt (val_lt s)])

theorem bin_mod (v n : Nat) : bin (v % 2 ^ n) n = bin v n :=
  val_inj _ _ (by simp) (by simp [val_bin])

end Sys2Proof.Machine
end

