-- ==== Sys2Proof/Laws/State.lean ====
section
/-! SUPPORT. What each named update of State does to each field: one lemma per field, true by rfl. -/

namespace Sys2Proof.Machine

/-! ### State.accept -/

@[simp] theorem State.accept_busy (w : Word) (d : Nat) (s : State) :
    (s.accept w d).busy = true := rfl
@[simp] theorem State.accept_done (w : Word) (d : Nat) (s : State) :
    (s.accept w d).done = false := rfl
@[simp] theorem State.accept_err (w : Word) (d : Nat) (s : State) :
    (s.accept w d).err = false := rfl
@[simp] theorem State.accept_errCode (w : Word) (d : Nat) (s : State) :
    (s.accept w d).errCode = .none := rfl
@[simp] theorem State.accept_stage (w : Word) (d : Nat) (s : State) :
    (s.accept w d).stage = s.stage := rfl
@[simp] theorem State.accept_degen (w : Word) (d : Nat) (s : State) :
    (s.accept w d).degen = s.degen := rfl
@[simp] theorem State.accept_wbusy (w : Word) (d : Nat) (s : State) :
    (s.accept w d).wbusy = s.wbusy := rfl
@[simp] theorem State.accept_dense (w : Word) (d : Nat) (s : State) :
    (s.accept w d).dense = s.dense := rfl
@[simp] theorem State.accept_irqEn (w : Word) (d : Nat) (s : State) :
    (s.accept w d).irqEn = s.irqEn := rfl
@[simp] theorem State.accept_inLen (w : Word) (d : Nat) (s : State) :
    (s.accept w d).inLen = s.inLen := rfl
@[simp] theorem State.accept_nsym (w : Word) (d : Nat) (s : State) :
    (s.accept w d).nsym = s.nsym := rfl
@[simp] theorem State.accept_root (w : Word) (d : Nat) (s : State) :
    (s.accept w d).root = s.root := rfl
@[simp] theorem State.accept_rootWeight (w : Word) (d : Nat) (s : State) :
    (s.accept w d).rootWeight = s.rootWeight := rfl
@[simp] theorem State.accept_maxLen (w : Word) (d : Nat) (s : State) :
    (s.accept w d).maxLen = s.maxLen := rfl
@[simp] theorem State.accept_hdrLen (w : Word) (d : Nat) (s : State) :
    (s.accept w d).hdrLen = s.hdrLen := rfl
@[simp] theorem State.accept_payloadLen (w : Word) (d : Nat) (s : State) :
    (s.accept w d).payloadLen = s.payloadLen := rfl
@[simp] theorem State.accept_leftover (w : Word) (d : Nat) (s : State) :
    (s.accept w d).leftover = s.leftover := rfl
@[simp] theorem State.accept_outLen (w : Word) (d : Nat) (s : State) :
    (s.accept w d).outLen = s.outLen := rfl
@[simp] theorem State.accept_errInfo (w : Word) (d : Nat) (s : State) :
    (s.accept w d).errInfo = 0 := rfl
@[simp] theorem State.accept_capInMax (w : Word) (d : Nat) (s : State) :
    (s.accept w d).capInMax = s.capInMax := rfl
@[simp] theorem State.accept_capObufSize (w : Word) (d : Nat) (s : State) :
    (s.accept w d).capObufSize = s.capObufSize := rfl
@[simp] theorem State.accept_freq (w : Word) (d : Nat) (s : State) :
    (s.accept w d).freq = s.freq := rfl
@[simp] theorem State.accept_order (w : Word) (d : Nat) (s : State) :
    (s.accept w d).order = s.order := rfl
@[simp] theorem State.accept_len (w : Word) (d : Nat) (s : State) :
    (s.accept w d).len = s.len := rfl
@[simp] theorem State.accept_clen (w : Word) (d : Nat) (s : State) :
    (s.accept w d).clen = s.clen := rfl
@[simp] theorem State.accept_blcount (w : Word) (d : Nat) (s : State) :
    (s.accept w d).blcount = s.blcount := rfl
@[simp] theorem State.accept_code (w : Word) (d : Nat) (s : State) :
    (s.accept w d).code = s.code := rfl
@[simp] theorem State.accept_node (w : Word) (d : Nat) (s : State) :
    (s.accept w d).node = s.node := rfl
@[simp] theorem State.accept_ibuf (w : Word) (d : Nat) (s : State) :
    (s.accept w d).ibuf = s.ibuf := rfl
@[simp] theorem State.accept_obuf (w : Word) (d : Nat) (s : State) :
    (s.accept w d).obuf = s.obuf := rfl
@[simp] theorem State.accept_pending (w : Word) (d : Nat) (s : State) :
    (s.accept w d).pending = w := rfl
@[simp] theorem State.accept_inReset (w : Word) (d : Nat) (s : State) :
    (s.accept w d).inReset = s.inReset := rfl
@[simp] theorem State.accept_delay (w : Word) (d : Nat) (s : State) :
    (s.accept w d).delay = d := rfl
@[simp] theorem State.accept_freeCount (w : Word) (d : Nat) (s : State) :
    (s.accept w d).freeCount = s.freeCount := rfl
@[simp] theorem State.accept_inbox (w : Word) (d : Nat) (s : State) :
    (s.accept w d).inbox = s.inbox := rfl
@[simp] theorem State.accept_replies (w : Word) (d : Nat) (s : State) :
    (s.accept w d).replies = s.replies := rfl

/-! ### State.takeError -/

@[simp] theorem State.takeError_busy (e : ErrCode) (i : Word) (s : State) :
    (s.takeError e i).busy = s.busy := rfl
@[simp] theorem State.takeError_done (e : ErrCode) (i : Word) (s : State) :
    (s.takeError e i).done = s.done := rfl
@[simp] theorem State.takeError_err (e : ErrCode) (i : Word) (s : State) :
    (s.takeError e i).err = true := rfl
@[simp] theorem State.takeError_errCode (e : ErrCode) (i : Word) (s : State) :
    (s.takeError e i).errCode = e := rfl
@[simp] theorem State.takeError_stage (e : ErrCode) (i : Word) (s : State) :
    (s.takeError e i).stage = if e.aborts then .idle else s.stage := rfl
@[simp] theorem State.takeError_degen (e : ErrCode) (i : Word) (s : State) :
    (s.takeError e i).degen = s.degen := rfl
@[simp] theorem State.takeError_wbusy (e : ErrCode) (i : Word) (s : State) :
    (s.takeError e i).wbusy = s.wbusy := rfl
@[simp] theorem State.takeError_dense (e : ErrCode) (i : Word) (s : State) :
    (s.takeError e i).dense = s.dense := rfl
@[simp] theorem State.takeError_irqEn (e : ErrCode) (i : Word) (s : State) :
    (s.takeError e i).irqEn = s.irqEn := rfl
@[simp] theorem State.takeError_inLen (e : ErrCode) (i : Word) (s : State) :
    (s.takeError e i).inLen = s.inLen := rfl
@[simp] theorem State.takeError_nsym (e : ErrCode) (i : Word) (s : State) :
    (s.takeError e i).nsym = s.nsym := rfl
@[simp] theorem State.takeError_root (e : ErrCode) (i : Word) (s : State) :
    (s.takeError e i).root = s.root := rfl
@[simp] theorem State.takeError_rootWeight (e : ErrCode) (i : Word) (s : State) :
    (s.takeError e i).rootWeight = s.rootWeight := rfl
@[simp] theorem State.takeError_maxLen (e : ErrCode) (i : Word) (s : State) :
    (s.takeError e i).maxLen = s.maxLen := rfl
@[simp] theorem State.takeError_hdrLen (e : ErrCode) (i : Word) (s : State) :
    (s.takeError e i).hdrLen = s.hdrLen := rfl
@[simp] theorem State.takeError_payloadLen (e : ErrCode) (i : Word) (s : State) :
    (s.takeError e i).payloadLen = s.payloadLen := rfl
@[simp] theorem State.takeError_leftover (e : ErrCode) (i : Word) (s : State) :
    (s.takeError e i).leftover = s.leftover := rfl
@[simp] theorem State.takeError_outLen (e : ErrCode) (i : Word) (s : State) :
    (s.takeError e i).outLen = if e.aborts then 0 else s.outLen := rfl
@[simp] theorem State.takeError_errInfo (e : ErrCode) (i : Word) (s : State) :
    (s.takeError e i).errInfo = i := rfl
@[simp] theorem State.takeError_capInMax (e : ErrCode) (i : Word) (s : State) :
    (s.takeError e i).capInMax = s.capInMax := rfl
@[simp] theorem State.takeError_capObufSize (e : ErrCode) (i : Word) (s : State) :
    (s.takeError e i).capObufSize = s.capObufSize := rfl
@[simp] theorem State.takeError_freq (e : ErrCode) (i : Word) (s : State) :
    (s.takeError e i).freq = s.freq := rfl
@[simp] theorem State.takeError_order (e : ErrCode) (i : Word) (s : State) :
    (s.takeError e i).order = s.order := rfl
@[simp] theorem State.takeError_len (e : ErrCode) (i : Word) (s : State) :
    (s.takeError e i).len = s.len := rfl
@[simp] theorem State.takeError_clen (e : ErrCode) (i : Word) (s : State) :
    (s.takeError e i).clen = s.clen := rfl
@[simp] theorem State.takeError_blcount (e : ErrCode) (i : Word) (s : State) :
    (s.takeError e i).blcount = s.blcount := rfl
@[simp] theorem State.takeError_code (e : ErrCode) (i : Word) (s : State) :
    (s.takeError e i).code = s.code := rfl
@[simp] theorem State.takeError_node (e : ErrCode) (i : Word) (s : State) :
    (s.takeError e i).node = s.node := rfl
@[simp] theorem State.takeError_ibuf (e : ErrCode) (i : Word) (s : State) :
    (s.takeError e i).ibuf = s.ibuf := rfl
@[simp] theorem State.takeError_obuf (e : ErrCode) (i : Word) (s : State) :
    (s.takeError e i).obuf = s.obuf := rfl
@[simp] theorem State.takeError_pending (e : ErrCode) (i : Word) (s : State) :
    (s.takeError e i).pending = s.pending := rfl
@[simp] theorem State.takeError_inReset (e : ErrCode) (i : Word) (s : State) :
    (s.takeError e i).inReset = s.inReset := rfl
@[simp] theorem State.takeError_delay (e : ErrCode) (i : Word) (s : State) :
    (s.takeError e i).delay = s.delay := rfl
@[simp] theorem State.takeError_freeCount (e : ErrCode) (i : Word) (s : State) :
    (s.takeError e i).freeCount = s.freeCount := rfl
@[simp] theorem State.takeError_inbox (e : ErrCode) (i : Word) (s : State) :
    (s.takeError e i).inbox = s.inbox := rfl
@[simp] theorem State.takeError_replies (e : ErrCode) (i : Word) (s : State) :
    (s.takeError e i).replies = s.replies := rfl

/-! ### State.endCommand -/

@[simp] theorem State.endCommand_busy (s : State) :
    s.endCommand.busy = false := rfl
@[simp] theorem State.endCommand_done (s : State) :
    s.endCommand.done = true := rfl
@[simp] theorem State.endCommand_err (s : State) :
    s.endCommand.err = s.err := rfl
@[simp] theorem State.endCommand_errCode (s : State) :
    s.endCommand.errCode = s.errCode := rfl
@[simp] theorem State.endCommand_stage (s : State) :
    s.endCommand.stage = s.stage := rfl
@[simp] theorem State.endCommand_degen (s : State) :
    s.endCommand.degen = s.degen := rfl
@[simp] theorem State.endCommand_wbusy (s : State) :
    s.endCommand.wbusy = s.wbusy := rfl
@[simp] theorem State.endCommand_dense (s : State) :
    s.endCommand.dense = s.dense := rfl
@[simp] theorem State.endCommand_irqEn (s : State) :
    s.endCommand.irqEn = s.irqEn := rfl
@[simp] theorem State.endCommand_inLen (s : State) :
    s.endCommand.inLen = s.inLen := rfl
@[simp] theorem State.endCommand_nsym (s : State) :
    s.endCommand.nsym = s.nsym := rfl
@[simp] theorem State.endCommand_root (s : State) :
    s.endCommand.root = s.root := rfl
@[simp] theorem State.endCommand_rootWeight (s : State) :
    s.endCommand.rootWeight = s.rootWeight := rfl
@[simp] theorem State.endCommand_maxLen (s : State) :
    s.endCommand.maxLen = s.maxLen := rfl
@[simp] theorem State.endCommand_hdrLen (s : State) :
    s.endCommand.hdrLen = s.hdrLen := rfl
@[simp] theorem State.endCommand_payloadLen (s : State) :
    s.endCommand.payloadLen = s.payloadLen := rfl
@[simp] theorem State.endCommand_leftover (s : State) :
    s.endCommand.leftover = s.leftover := rfl
@[simp] theorem State.endCommand_outLen (s : State) :
    s.endCommand.outLen = s.outLen := rfl
@[simp] theorem State.endCommand_errInfo (s : State) :
    s.endCommand.errInfo = s.errInfo := rfl
@[simp] theorem State.endCommand_capInMax (s : State) :
    s.endCommand.capInMax = s.capInMax := rfl
@[simp] theorem State.endCommand_capObufSize (s : State) :
    s.endCommand.capObufSize = s.capObufSize := rfl
@[simp] theorem State.endCommand_freq (s : State) :
    s.endCommand.freq = s.freq := rfl
@[simp] theorem State.endCommand_order (s : State) :
    s.endCommand.order = s.order := rfl
@[simp] theorem State.endCommand_len (s : State) :
    s.endCommand.len = s.len := rfl
@[simp] theorem State.endCommand_clen (s : State) :
    s.endCommand.clen = s.clen := rfl
@[simp] theorem State.endCommand_blcount (s : State) :
    s.endCommand.blcount = s.blcount := rfl
@[simp] theorem State.endCommand_code (s : State) :
    s.endCommand.code = s.code := rfl
@[simp] theorem State.endCommand_node (s : State) :
    s.endCommand.node = s.node := rfl
@[simp] theorem State.endCommand_ibuf (s : State) :
    s.endCommand.ibuf = s.ibuf := rfl
@[simp] theorem State.endCommand_obuf (s : State) :
    s.endCommand.obuf = s.obuf := rfl
@[simp] theorem State.endCommand_pending (s : State) :
    s.endCommand.pending = s.pending := rfl
@[simp] theorem State.endCommand_inReset (s : State) :
    s.endCommand.inReset = s.inReset := rfl
@[simp] theorem State.endCommand_delay (s : State) :
    s.endCommand.delay = s.delay := rfl
@[simp] theorem State.endCommand_freeCount (s : State) :
    s.endCommand.freeCount = s.freeCount := rfl
@[simp] theorem State.endCommand_inbox (s : State) :
    s.endCommand.inbox = s.inbox := rfl
@[simp] theorem State.endCommand_replies (s : State) :
    s.endCommand.replies = s.replies := rfl

/-! ### State.clearRun -/

@[simp] theorem State.clearRun_busy (s : State) :
    s.clearRun.busy = s.busy := rfl
@[simp] theorem State.clearRun_done (s : State) :
    s.clearRun.done = s.done := rfl
@[simp] theorem State.clearRun_err (s : State) :
    s.clearRun.err = s.err := rfl
@[simp] theorem State.clearRun_errCode (s : State) :
    s.clearRun.errCode = s.errCode := rfl
@[simp] theorem State.clearRun_stage (s : State) :
    s.clearRun.stage = s.stage := rfl
@[simp] theorem State.clearRun_degen (s : State) :
    s.clearRun.degen = false := rfl
@[simp] theorem State.clearRun_wbusy (s : State) :
    s.clearRun.wbusy = s.wbusy := rfl
@[simp] theorem State.clearRun_dense (s : State) :
    s.clearRun.dense = false := rfl
@[simp] theorem State.clearRun_irqEn (s : State) :
    s.clearRun.irqEn = s.irqEn := rfl
@[simp] theorem State.clearRun_inLen (s : State) :
    s.clearRun.inLen = s.inLen := rfl
@[simp] theorem State.clearRun_nsym (s : State) :
    s.clearRun.nsym = 0 := rfl
@[simp] theorem State.clearRun_root (s : State) :
    s.clearRun.root = 0 := rfl
@[simp] theorem State.clearRun_rootWeight (s : State) :
    s.clearRun.rootWeight = 0 := rfl
@[simp] theorem State.clearRun_maxLen (s : State) :
    s.clearRun.maxLen = 0 := rfl
@[simp] theorem State.clearRun_hdrLen (s : State) :
    s.clearRun.hdrLen = 0 := rfl
@[simp] theorem State.clearRun_payloadLen (s : State) :
    s.clearRun.payloadLen = 0 := rfl
@[simp] theorem State.clearRun_leftover (s : State) :
    s.clearRun.leftover = 0 := rfl
@[simp] theorem State.clearRun_outLen (s : State) :
    s.clearRun.outLen = 0 := rfl
@[simp] theorem State.clearRun_errInfo (s : State) :
    s.clearRun.errInfo = s.errInfo := rfl
@[simp] theorem State.clearRun_capInMax (s : State) :
    s.clearRun.capInMax = s.capInMax := rfl
@[simp] theorem State.clearRun_capObufSize (s : State) :
    s.clearRun.capObufSize = s.capObufSize := rfl
@[simp] theorem State.clearRun_freq (s : State) :
    s.clearRun.freq = Vector.replicate 256 0 := rfl
@[simp] theorem State.clearRun_order (s : State) :
    s.clearRun.order = Vector.replicate 256 0 := rfl
@[simp] theorem State.clearRun_len (s : State) :
    s.clearRun.len = Vector.replicate 256 0 := rfl
@[simp] theorem State.clearRun_clen (s : State) :
    s.clearRun.clen = Vector.replicate 256 0 := rfl
@[simp] theorem State.clearRun_blcount (s : State) :
    s.clearRun.blcount = Vector.replicate 256 0 := rfl
@[simp] theorem State.clearRun_code (s : State) :
    s.clearRun.code = Vector.replicate 256 0 := rfl
@[simp] theorem State.clearRun_node (s : State) :
    s.clearRun.node = Vector.replicate 511 Node.empty := rfl
@[simp] theorem State.clearRun_ibuf (s : State) :
    s.clearRun.ibuf = s.ibuf := rfl
@[simp] theorem State.clearRun_obuf (s : State) :
    s.clearRun.obuf = s.obuf := rfl
@[simp] theorem State.clearRun_pending (s : State) :
    s.clearRun.pending = s.pending := rfl
@[simp] theorem State.clearRun_inReset (s : State) :
    s.clearRun.inReset = s.inReset := rfl
@[simp] theorem State.clearRun_delay (s : State) :
    s.clearRun.delay = s.delay := rfl
@[simp] theorem State.clearRun_freeCount (s : State) :
    s.clearRun.freeCount = s.freeCount := rfl
@[simp] theorem State.clearRun_inbox (s : State) :
    s.clearRun.inbox = s.inbox := rfl
@[simp] theorem State.clearRun_replies (s : State) :
    s.clearRun.replies = s.replies := rfl

end Sys2Proof.Machine
end

