-- ==== Sys2Proof/Laws/Commands.lean ====
section
/-! SUPPORT. What the command frame, the stage check and each command's body can do: one lemma each. -/

namespace Sys2Proof.Machine

/-! ### How a body ends -/

/-- The state a body's end hands to the frame, if it is not stuck. -/
def BodyResult.leaves (r : BodyResult) (t : State) : Prop :=
  r = .ok t ∨ ∃ e info, r = .raised e info t

@[simp] theorem BodyResult.leaves_ok (s t : State) : (BodyResult.ok s).leaves t ↔ s = t := by
  simp [BodyResult.leaves]

@[simp] theorem BodyResult.leaves_raised (e : ErrCode) (info : Word) (s t : State) :
    (BodyResult.raised e info s).leaves t ↔ s = t := by
  simp [BodyResult.leaves]

@[simp] theorem BodyResult.leaves_stuck (f : Fault) (t : State) :
    ¬ (BodyResult.stuck f).leaves t := by
  simp [BodyResult.leaves]

@[simp] theorem BodyResult.complete_ok (s : State) :
    (BodyResult.ok s).complete = .next s.endCommand := rfl

@[simp] theorem BodyResult.complete_raised (e : ErrCode) (info : Word) (s : State) :
    (BodyResult.raised e info s).complete = .next (s.takeError e info).endCommand := rfl

@[simp] theorem BodyResult.complete_stuck (f : Fault) :
    (BodyResult.stuck f).complete = .fault f := rfl

/-- The end of a completion step, taken apart (R121). -/
theorem BodyResult.complete_next {r : BodyResult} {t : State} (h : r.complete = .next t) :
    (∃ u, r = .ok u ∧ t = u.endCommand) ∨
    (∃ e info u, r = .raised e info u ∧ t = (u.takeError e info).endCommand) := by
  cases r with
  | ok u => exact .inl ⟨u, rfl, by cases h; rfl⟩
  | raised e info u => exact .inr ⟨e, info, u, rfl, by cases h; rfl⟩
  | stuck f => cases h

/-- A body never refuses. -/
theorem BodyResult.complete_ne_refused (r : BodyResult) (q : Refusal) : r.complete ≠ .refused q := by
  cases r <;> simp [BodyResult.complete]

@[simp] theorem BodyResult.andThen_ok (s : State) (f : State → BodyResult) :
    (BodyResult.ok s).andThen f = f s := rfl

@[simp] theorem BodyResult.andThen_raised (e : ErrCode) (info : Word) (s : State)
    (f : State → BodyResult) : (BodyResult.raised e info s).andThen f = .raised e info s := rfl

@[simp] theorem BodyResult.andThen_stuck (r : Fault) (f : State → BodyResult) :
    (BodyResult.stuck r).andThen f = .stuck r := rfl

/-- What two bodies in a row leave. -/
theorem BodyResult.andThen_leaves {r : BodyResult} {f : State → BodyResult} {t : State}
    (h : (r.andThen f).leaves t) : r.leaves t ∨ ∃ u, r = .ok u ∧ (f u).leaves t := by
  cases r with
  | ok u => exact .inr ⟨u, rfl, h⟩
  | raised e info u => exact .inl h
  | stuck q => exact absurd h (by simp)

/-! ### The check and body of each command -/

/-- Check and body of a command: `exec` is this, completed. -/
def commandBody : Instr → State → BodyResult
  | .nop => bodyNop
  | .clear => bodyClear
  | .count => bodyCount
  | .build => withStage .build .counted bodyBuild
  | .extract => withStage .extract .built bodyExtract
  | .assign => withStage .assign .extracted bodyAssign
  | .pack => withStage .pack .assigned bodyPack
  | .header => withStage .header .packed bodyHeader
  | .run => bodyRun

/-- Every command is its check and body inside the one frame (R121). -/
theorem exec_eq_complete (i : Instr) (s : State) : exec i s = (commandBody i s).complete := by
  cases i <;> rfl

/-- The stage check passed or raised ERR_SEQUENCE (R123). -/
theorem withStage_of_eq (i : Instr) (need : Stage) (body : State → BodyResult) (s : State)
    (h : s.stage = need) : withStage i need body s = body s := if_pos h

theorem withStage_of_ne (i : Instr) (need : Stage) (body : State → BodyResult) (s : State)
    (h : s.stage ≠ need) :
    withStage i need body s = .raised .sequence (sequenceInfo i s.stage) s := if_neg h

theorem withStage_leaves {i : Instr} {need : Stage} {body : State → BodyResult} {s t : State}
    (h : (withStage i need body s).leaves t) : s = t ∨ (s.stage = need ∧ (body s).leaves t) := by
  by_cases hs : s.stage = need
  · rw [withStage_of_eq _ _ _ _ hs] at h; exact .inr ⟨hs, h⟩
  · rw [withStage_of_ne _ _ _ _ hs] at h; exact .inl (by simpa using h)

/-! ### What no body touches -/

/-- Two states agree on all that belongs to the host, the frame and the model itself. -/
structure SameHost (s t : State) : Prop where
  busy        : t.busy = s.busy
  done        : t.done = s.done
  err         : t.err = s.err
  errCode     : t.errCode = s.errCode
  errInfo     : t.errInfo = s.errInfo
  irqEn       : t.irqEn = s.irqEn
  inLen       : t.inLen = s.inLen
  capInMax    : t.capInMax = s.capInMax
  capObufSize : t.capObufSize = s.capObufSize
  ibuf        : t.ibuf = s.ibuf
  pending     : t.pending = s.pending
  inReset     : t.inReset = s.inReset
  delay       : t.delay = s.delay
  freeCount   : t.freeCount = s.freeCount
  inbox       : t.inbox = s.inbox
  replies     : t.replies = s.replies

theorem SameHost.refl (s : State) : SameHost s s := by constructor <;> rfl

theorem SameHost.trans {s t u : State} (h : SameHost s t) (k : SameHost t u) : SameHost s u where
  busy := k.busy.trans h.busy
  done := k.done.trans h.done
  err := k.err.trans h.err
  errCode := k.errCode.trans h.errCode
  errInfo := k.errInfo.trans h.errInfo
  irqEn := k.irqEn.trans h.irqEn
  inLen := k.inLen.trans h.inLen
  capInMax := k.capInMax.trans h.capInMax
  capObufSize := k.capObufSize.trans h.capObufSize
  ibuf := k.ibuf.trans h.ibuf
  pending := k.pending.trans h.pending
  inReset := k.inReset.trans h.inReset
  delay := k.delay.trans h.delay
  freeCount := k.freeCount.trans h.freeCount
  inbox := k.inbox.trans h.inbox
  replies := k.replies.trans h.replies

/-! ### Inversion: what each body leaves, named field by field -/

/-- COUNT: nothing at all (ERR_IN_LEN), or the cleared run with new counts. -/
theorem bodyCount_leaves {s t : State} (h : (bodyCount s).leaves t) :
    t = s ∨ ∃ freq order nsym, t = { s.clearRun with
      freq := freq, order := order, nsym := nsym, stage := .counted } := by
  unfold bodyCount at h
  split at h
  · simp only [BodyResult.leaves_raised] at h
    exact .inl h.symm
  · simp only [BodyResult.leaves_ok] at h
    exact .inr ⟨_, _, _, h.symm⟩

/-- BUILD: nothing at all (ERR_EMPTY_INPUT), or a new arena and root. -/
theorem bodyBuild_leaves {s t : State} (h : (bodyBuild s).leaves t) :
    t = s ∨ ∃ node root rootWeight, t = { s with
      node := node, root := root, rootWeight := rootWeight, stage := .built } := by
  simp only [bodyBuild] at h
  split at h
  · simp only [BodyResult.leaves_raised] at h
    exact .inl h.symm
  · split at h
    · simp at h
    · simp only [BodyResult.leaves_ok] at h
      exact .inr ⟨_, _, _, h.symm⟩

/-- EXTRACT: new lengths and DEGEN, the tree destroyed. -/
theorem bodyExtract_leaves {s t : State} (h : (bodyExtract s).leaves t) :
    ∃ len degen, t = { s with
      len := len, degen := degen, node := Vector.replicate 511 Node.empty, root := 0,
      stage := .extracted } := by
  unfold bodyExtract at h
  split at h
  · simp at h
  · simp only [BodyResult.leaves_ok] at h
    exact ⟨_, _, h.symm⟩

/-- ASSIGN: the code tables and what the header needs. -/
theorem bodyAssign_leaves {s t : State} (h : (bodyAssign s).leaves t) :
    ∃ clen maxLen blcount code dense hdrLen, t = { s with
      clen := clen, maxLen := maxLen, blcount := blcount, code := code, dense := dense,
      hdrLen := hdrLen, stage := .assigned } := by
  simp only [bodyAssign, BodyResult.leaves_ok] at h
  exact ⟨_, _, _, _, _, _, h.symm⟩

/-- PACK: OBUF, and unless it raised LEFTOVER, PAYLOAD_LEN and STAGE. -/
theorem bodyPack_leaves {s t : State} (h : (bodyPack s).leaves t) :
    ∃ obuf leftover payloadLen stage, t = { s with
      obuf := obuf, leftover := leftover, payloadLen := payloadLen, stage := stage } := by
  unfold bodyPack at h
  split at h
  · simp only [BodyResult.leaves_raised] at h
    exact ⟨_, _, _, _, h.symm⟩
  · split at h
    · simp only [BodyResult.leaves_raised] at h
      exact ⟨_, _, _, _, h.symm⟩
    · split at h
      · simp only [BodyResult.leaves_raised] at h
        exact ⟨_, _, _, _, h.symm⟩
      · simp only [BodyResult.leaves_ok] at h
        exact ⟨_, _, _, _, h.symm⟩

/-- HEADER: the header bytes, OUT_LEN and STAGE. -/
theorem bodyHeader_leaves {s t : State} (h : (bodyHeader s).leaves t) :
    s.headerBytes.length ≤ s.capObufSize.toNat ∧ t = { s with
      obuf := s.obuf.writeRange 0 s.headerBytes, outLen := s.hdrLen.setWidth 32 + s.payloadLen,
      stage := .done } := by
  unfold bodyHeader at h
  split at h
  · simp at h
  · rename_i hl
    simp only [BodyResult.leaves_ok] at h
    exact ⟨by omega, h.symm⟩

/-! ### RUN, body by body -/

/-- A transitive relation that holds across two bodies in a row. -/
theorem BodyResult.andThen_rel {R : State → State → Prop} (htrans : ∀ a b c, R a b → R b c → R a c)
    {r : BodyResult} {f : State → BodyResult} {s t : State} (hr : ∀ u, r.leaves u → R s u)
    (hf : ∀ u v, (f u).leaves v → R u v) (h : (r.andThen f).leaves t) : R s t := by
  rcases BodyResult.andThen_leaves h with h | ⟨u, hu, h⟩
  · exact hr t h
  · exact htrans s u t (hr u (.inl hu)) (hf u t h)

/-- A transitive relation that every stage body keeps, RUN keeps (R128). -/
theorem bodyRun_rel {R : State → State → Prop} (htrans : ∀ a b c, R a b → R b c → R a c)
    (hc : ∀ u v, (bodyCount u).leaves v → R u v) (hb : ∀ u v, (bodyBuild u).leaves v → R u v)
    (he : ∀ u v, (bodyExtract u).leaves v → R u v) (ha : ∀ u v, (bodyAssign u).leaves v → R u v)
    (hp : ∀ u v, (bodyPack u).leaves v → R u v) (hh : ∀ u v, (bodyHeader u).leaves v → R u v)
    {s t : State} (h : (bodyRun s).leaves t) : R s t :=
  BodyResult.andThen_rel htrans (fun _ => BodyResult.andThen_rel htrans
    (fun _ => BodyResult.andThen_rel htrans (fun _ => BodyResult.andThen_rel htrans
      (fun _ => BodyResult.andThen_rel htrans (hc s) hb) he) ha) hp) hh h

/-- No command's body touches what belongs to the host or the frame. -/
theorem commandBody_sameHost {i : Instr} {s t : State} (h : (commandBody i s).leaves t) :
    SameHost s t := by
  have hc : ∀ u v, (bodyCount u).leaves v → SameHost u v := fun u v h => by
    rcases bodyCount_leaves h with rfl | ⟨_, _, _, rfl⟩ <;> constructor <;> rfl
  have hb : ∀ u v, (bodyBuild u).leaves v → SameHost u v := fun u v h => by
    rcases bodyBuild_leaves h with rfl | ⟨_, _, _, rfl⟩ <;> constructor <;> rfl
  have he : ∀ u v, (bodyExtract u).leaves v → SameHost u v := fun u v h => by
    obtain ⟨_, _, rfl⟩ := bodyExtract_leaves h; constructor <;> rfl
  have ha : ∀ u v, (bodyAssign u).leaves v → SameHost u v := fun u v h => by
    obtain ⟨_, _, _, _, _, _, rfl⟩ := bodyAssign_leaves h; constructor <;> rfl
  have hp : ∀ u v, (bodyPack u).leaves v → SameHost u v := fun u v h => by
    obtain ⟨_, _, _, _, rfl⟩ := bodyPack_leaves h; constructor <;> rfl
  have hh : ∀ u v, (bodyHeader u).leaves v → SameHost u v := fun u v h => by
    obtain ⟨-, rfl⟩ := bodyHeader_leaves h; constructor <;> rfl
  have staged : ∀ {i need body}, (∀ u v, (body u).leaves v → SameHost u v) →
      (withStage i need body s).leaves t → SameHost s t := fun hk h => by
    rcases withStage_leaves h with rfl | ⟨-, h⟩
    · exact .refl _
    · exact hk _ _ h
  cases i with
  | nop => simp only [commandBody, bodyNop, BodyResult.leaves_ok] at h; subst h; exact .refl _
  | clear =>
    simp only [commandBody, bodyClear, BodyResult.leaves_ok] at h
    subst h; constructor <;> rfl
  | count => exact hc _ _ h
  | build => exact staged hb h
  | extract => exact staged he h
  | assign => exact staged ha h
  | pack => exact staged hp h
  | header => exact staged hh h
  | run => exact @bodyRun_rel SameHost (fun _ _ _ => SameHost.trans) hc hb he ha hp hh _ _ h

/-- Only CLEAR writes WBUSY (R28). -/
theorem commandBody_wbusy {i : Instr} {s t : State} (hi : i ≠ .clear)
    (h : (commandBody i s).leaves t) : t.wbusy = s.wbusy := by
  let R : State → State → Prop := fun u v => v.wbusy = u.wbusy
  have htr : ∀ a b c, R a b → R b c → R a c := fun _ _ _ h k => k.trans h
  have hc : ∀ u v, (bodyCount u).leaves v → R u v := fun u v h => by
    rcases bodyCount_leaves h with rfl | ⟨_, _, _, rfl⟩ <;> rfl
  have hb : ∀ u v, (bodyBuild u).leaves v → R u v := fun u v h => by
    rcases bodyBuild_leaves h with rfl | ⟨_, _, _, rfl⟩ <;> rfl
  have he : ∀ u v, (bodyExtract u).leaves v → R u v := fun u v h => by
    obtain ⟨_, _, rfl⟩ := bodyExtract_leaves h; rfl
  have ha : ∀ u v, (bodyAssign u).leaves v → R u v := fun u v h => by
    obtain ⟨_, _, _, _, _, _, rfl⟩ := bodyAssign_leaves h; rfl
  have hp : ∀ u v, (bodyPack u).leaves v → R u v := fun u v h => by
    obtain ⟨_, _, _, _, rfl⟩ := bodyPack_leaves h; rfl
  have hh : ∀ u v, (bodyHeader u).leaves v → R u v := fun u v h => by
    obtain ⟨-, rfl⟩ := bodyHeader_leaves h; rfl
  have staged : ∀ {i need body}, (∀ u v, (body u).leaves v → R u v) →
      (withStage i need body s).leaves t → R s t := fun hk h => by
    rcases withStage_leaves h with rfl | ⟨-, h⟩
    · rfl
    · exact hk _ _ h
  cases i with
  | nop => simp only [commandBody, bodyNop, BodyResult.leaves_ok] at h; rw [h]
  | clear => exact absurd rfl hi
  | count => exact hc _ _ h
  | build => exact staged hb h
  | extract => exact staged he h
  | assign => exact staged ha h
  | pack => exact staged hp h
  | header => exact staged hh h
  | run => exact @bodyRun_rel R htr hc hb he ha hp hh _ _ h

/-! ### Which errors a body raises -/

/-- ERR_IN_LEN is COUNT's only error (R140). -/
theorem bodyCount_raised {s t : State} {e : ErrCode} {info : Word}
    (h : bodyCount s = .raised e info t) : e = .inLen ∧ info = s.inLen ∧ t = s := by
  unfold bodyCount at h
  split at h
  · cases h; exact ⟨rfl, rfl, rfl⟩
  · cases h

/-- ERR_EMPTY_INPUT is BUILD's only error (R150). -/
theorem bodyBuild_raised {s t : State} {e : ErrCode} {info : Word}
    (h : bodyBuild s = .raised e info t) : e = .emptyInput ∧ info = 0 ∧ t = s := by
  simp only [bodyBuild] at h
  split at h
  · cases h; exact ⟨rfl, rfl, rfl⟩
  · split at h <;> cases h

/-- EXTRACT raises no error of its own (R170). -/
theorem bodyExtract_ne_raised (s t : State) (e : ErrCode) (info : Word) :
    bodyExtract s ≠ .raised e info t := by
  unfold bodyExtract
  split <;> simp

/-- ASSIGN raises no error of its own (R180). -/
theorem bodyAssign_ne_raised (s t : State) (e : ErrCode) (info : Word) :
    bodyAssign s ≠ .raised e info t := by
  simp [bodyAssign]

/-- HEADER raises no error of its own (R200). -/
theorem bodyHeader_ne_raised (s t : State) (e : ErrCode) (info : Word) :
    bodyHeader s ≠ .raised e info t := by
  unfold bodyHeader
  split <;> simp

/-- A byte slice raises ERR_OUT_OVERFLOW only (R225). -/
theorem emit_raised {hdr size : Nat} {v bits : BitString} {p : Packer} {e : ErrCode} {info : Word}
    {m : Memory} (h : emit hdr size v bits p = .raised e info m) : e = .outOverflow := by
  unfold emit at h
  split at h <;> cases h
  rfl

theorem drain_raised {hdr size fuel : Nat} {p : Packer} {e : ErrCode} {info : Word} {m : Memory}
    (h : drain hdr size fuel p = .raised e info m) : e = .outOverflow := by
  induction fuel generalizing p with
  | zero => cases h
  | succ n ih =>
    simp only [drain] at h
    split at h
    · split at h
      · exact ih h
      · rename_i he
        cases h
        exact emit_raised he
    · cases h

theorem packBytes_raised {st : State} {bs : List Byte} {i : Nat} {p : Packer} {e : ErrCode}
    {info : Word} {m : Memory} (h : st.packBytes i bs p = .raised e info m) :
    e = .lookup ∨ e = .outOverflow := by
  induction bs generalizing i p with
  | nil => cases h
  | cons b bs ih =>
    simp only [State.packBytes] at h
    split at h
    · exact ih h
    · rename_i he
      cases h
      unfold State.packByte at he
      split at he
      · cases he; exact .inl rfl
      · exact .inr (drain_raised he)

/-- PACK's errors (R220). -/
theorem bodyPack_raised {s t : State} {e : ErrCode} {info : Word}
    (h : bodyPack s = .raised e info t) : e = .inLen ∨ e = .lookup ∨ e = .outOverflow := by
  unfold bodyPack at h
  split at h
  · cases h; exact .inl rfl
  · split at h
    · rename_i he
      cases h
      exact .inr (packBytes_raised he)
    · split at h
      · rename_i he
        cases h
        unfold State.packLast at he
        split at he
        · cases he
        · exact .inr (.inr (emit_raised he))
      · cases h

/-- An error of RUN is an error of one of its bodies (R128). -/
theorem bodyRun_raised {s t : State} {e : ErrCode} {info : Word}
    (h : bodyRun s = .raised e info t) :
    e = .inLen ∨ e = .emptyInput ∨ e = .lookup ∨ e = .outOverflow := by
  have step : ∀ {r : BodyResult} {f : State → BodyResult}, r.andThen f = .raised e info t →
      r = .raised e info t ∨ ∃ u, f u = .raised e info t := fun {r f} h => by
    cases r with
    | ok u => exact .inr ⟨u, h⟩
    | raised e' i' u => exact .inl h
    | stuck q => cases h
  rcases step h with h | ⟨u, h⟩
  · rcases step h with h | ⟨u, h⟩
    · rcases step h with h | ⟨u, h⟩
      · rcases step h with h | ⟨u, h⟩
        · rcases step h with h | ⟨u, h⟩
          · exact .inl (bodyCount_raised h).1
          · exact .inr (.inl (bodyBuild_raised h).1)
        · exact absurd h (bodyExtract_ne_raised _ _ _ _)
      · exact absurd h (bodyAssign_ne_raised _ _ _ _)
    · rcases bodyPack_raised h with h | h | h <;> simp [h]
  · exact absurd h (bodyHeader_ne_raised _ _ _ _)

end Sys2Proof.Machine
end

