-- ==== Sys2Proof/Laws/Memory.lean ====
section
/-! SUPPORT. The laws of the buffers: what a read sees after a write, that every operation keeps the
canonical form and the buffer's bounds, and that a canonical memory is determined by its reads. -/

namespace Sys2Proof.Machine

@[simp] theorem Memory.read_nil (a : Nat) : Memory.read [] a = Memory.blank := rfl

theorem Memory.read_cons (c : Host.Cell) (m : Memory) (a : Nat) :
    Memory.read (c :: m) a = if c.1 = a then c.2 else Memory.read m a := rfl

/-- An offset that no pair lists reads as the blank byte. -/
theorem Memory.read_unlisted (m : Memory) (a : Nat) (h : ∀ c ∈ m, c.1 ≠ a) :
    m.read a = Memory.blank := by
  induction m with
  | nil => rfl
  | cons c m ih =>
    rw [Memory.read_cons, if_neg (h c (by simp))]
    exact ih fun d hd => h d (by simp [hd])

theorem Memory.wf_nil : Memory.wf ([] : Memory) := by simp [Memory.wf]

theorem Memory.wf_cons (c : Host.Cell) (m : Memory) :
    Memory.wf (c :: m) ↔ (∀ d ∈ m, c.1 < d.1) ∧ c.2 ≠ Memory.blank ∧ Memory.wf m := by
  simp only [Memory.wf, List.pairwise_cons, List.mem_cons, forall_eq_or_imp]
  tauto

/-- The offsets a write lists: the old ones and the one written. -/
theorem Memory.mem_write (m : Memory) (a : Nat) (v : Byte) (c : Host.Cell)
    (h : c ∈ m.write a v) : c ∈ m ∨ c = (a, v) := by
  induction m with
  | nil =>
    simp only [Memory.write] at h
    split at h <;> simp_all
  | cons d m ih =>
    obtain ⟨b, w⟩ := d
    simp only [Memory.write] at h
    split at h
    · split at h
      · exact .inl h
      · simpa [or_comm, or_left_comm] using h
    · split at h
      · split at h
        · exact .inl (by simp [h])
        · rcases List.mem_cons.1 h with h | h
          · exact .inr h
          · exact .inl (by simp [h])
      · rcases List.mem_cons.1 h with h | h
        · exact .inl (by simp [h])
        · rcases ih h with h | h
          · exact .inl (by simp [h])
          · exact .inr h

/-- A write keeps the canonical form. -/
theorem Memory.write_wf (m : Memory) (a : Nat) (v : Byte) (h : m.wf) : (m.write a v).wf := by
  induction m with
  | nil =>
    simp only [Memory.write]
    split
    · exact h
    · rename_i hv
      exact (Memory.wf_cons _ _).2 ⟨by simp, hv, h⟩
  | cons d m ih =>
    obtain ⟨b, w⟩ := d
    obtain ⟨hlt, hw, hm⟩ := (Memory.wf_cons _ _).1 h
    simp only [Memory.write]
    split
    · rename_i hab
      split
      · exact h
      · rename_i hv
        refine (Memory.wf_cons _ _).2 ⟨?_, hv, h⟩
        intro d hd
        rcases List.mem_cons.1 hd with rfl | hd
        · exact hab
        · exact lt_trans hab (hlt d hd)
    · split
      · rename_i hab
        subst hab
        split
        · exact hm
        · rename_i hv
          exact (Memory.wf_cons _ _).2 ⟨hlt, hv, hm⟩
      · refine (Memory.wf_cons _ _).2 ⟨?_, hw, ih hm⟩
        intro d hd
        rcases Memory.mem_write m a v d hd with hd | rfl
        · exact hlt d hd
        · simp only
          omega

/-- A read after a write to the same offset gives the byte written. -/
theorem Memory.read_write_same (m : Memory) (a : Nat) (v : Byte) (h : m.wf) :
    (m.write a v).read a = v := by
  induction m with
  | nil =>
    simp only [Memory.write]
    split <;> simp_all [Memory.read_cons]
  | cons d m ih =>
    obtain ⟨b, w⟩ := d
    obtain ⟨hlt, -, hm⟩ := (Memory.wf_cons _ _).1 h
    simp only [Memory.write]
    split
    · rename_i hab
      split
      · rename_i hv
        rw [hv]
        refine Memory.read_unlisted _ _ fun d hd => ?_
        rcases List.mem_cons.1 hd with rfl | hd
        · simp only; omega
        · have := hlt d hd; simp only at this; omega
      · simp [Memory.read_cons]
    · split
      · rename_i hab
        subst hab
        split
        · rename_i hv
          rw [hv]
          exact Memory.read_unlisted _ _ fun d hd => by have := hlt d hd; simp only at this; omega
        · simp [Memory.read_cons]
      · rename_i hab
        rw [Memory.read_cons, if_neg (by simp only; omega)]
        exact ih hm

/-- A write leaves every other offset alone. -/
theorem Memory.read_write_other (m : Memory) (a b : Nat) (v : Byte) (h : b ≠ a) :
    (m.write a v).read b = m.read b := by
  induction m with
  | nil =>
    simp only [Memory.write]
    split
    · rfl
    · simp [Memory.read_cons, Ne.symm h]
  | cons d m ih =>
    obtain ⟨c, w⟩ := d
    simp only [Memory.write]
    split
    · split
      · rfl
      · simp [Memory.read_cons, Ne.symm h]
    · split
      · rename_i hac
        subst hac
        split
        · simp [Memory.read_cons, Ne.symm h]
        · simp [Memory.read_cons, Ne.symm h]
      · simp [Memory.read_cons, ih]

theorem Memory.read_write (m : Memory) (a b : Nat) (v : Byte) (h : m.wf) :
    (m.write a v).read b = if b = a then v else m.read b := by
  split
  · rename_i hb; subst hb; exact Memory.read_write_same m b v h
  · rename_i hb; exact Memory.read_write_other m a b v hb

/-- A write inside the buffer keeps to the buffer. -/
theorem Memory.write_within (m : Memory) (size a : Nat) (v : Byte) (h : m.within size)
    (ha : a < size) : (m.write a v).within size := by
  intro c hc
  rcases Memory.mem_write m a v c hc with hc | rfl
  · exact h c hc
  · exact ha

/-! ### Ranges -/

theorem Memory.writeRange_wf (vs : List Byte) (m : Memory) (o : Nat) (h : m.wf) :
    (m.writeRange o vs).wf := by
  induction vs generalizing m o with
  | nil => exact h
  | cons v vs ih => exact ih _ _ (Memory.write_wf _ _ _ h)

theorem Memory.writeRange_within (vs : List Byte) (m : Memory) (o size : Nat)
    (h : m.within size) (ho : o + vs.length ≤ size) : (m.writeRange o vs).within size := by
  induction vs generalizing m o with
  | nil => exact h
  | cons v vs ih =>
    simp only [List.length_cons] at ho
    exact ih _ _ (Memory.write_within _ _ _ _ h (by omega)) (by omega)

/-- What a read sees after a range was written: the range's byte inside it, the old byte outside. -/
theorem Memory.read_writeRange (vs : List Byte) (m : Memory) (o a : Nat) (h : m.wf) :
    (m.writeRange o vs).read a =
      if o ≤ a ∧ a < o + vs.length then vs[a - o]?.getD 0 else m.read a := by
  induction vs generalizing m o with
  | nil =>
    rw [if_neg (by simp only [List.length_nil]; omega)]
    rfl
  | cons v vs ih =>
    simp only [Memory.writeRange, List.length_cons]
    rw [ih _ _ (Memory.write_wf _ _ _ h), Memory.read_write _ _ _ _ h]
    by_cases ha : a = o
    · subst ha
      rw [if_neg (by omega), if_pos rfl, if_pos (by omega)]
      simp
    · by_cases hin : o + 1 ≤ a ∧ a < o + 1 + vs.length
      · rw [if_pos hin, if_pos (by omega)]
        obtain ⟨k, hk⟩ : ∃ k, a - o = k + 1 := ⟨a - o - 1, by omega⟩
        rw [hk, List.getElem?_cons_succ]
        congr 2
        omega
      · rw [if_neg hin, if_neg ha, if_neg (by omega)]

theorem Memory.readRange_eq (m : Memory) (o n : Nat) :
    m.readRange o n = (List.range n).map fun k => m.read (o + k) := by
  induction n generalizing o with
  | zero => rfl
  | succ n ih =>
    rw [Memory.readRange, ih, List.range_succ_eq_map]
    simp [List.map_map, Function.comp_def, Nat.add_assoc, Nat.add_comm 1]

@[simp] theorem Memory.length_readRange (m : Memory) (o n : Nat) :
    (m.readRange o n).length = n := by
  simp [Memory.readRange_eq]

/-! ### Images and host writes -/

theorem Memory.ofImage_wf (size : Nat) (image : List Host.Cell) :
    (Memory.ofImage size image).wf := by
  unfold Memory.ofImage
  generalize image.filter _ = l
  suffices h : ∀ (l : List Host.Cell) (m : Memory), m.wf →
      (l.foldl (fun m c => Memory.write m c.1 c.2) m).wf from h l [] Memory.wf_nil
  intro l
  induction l with
  | nil => exact fun m h => h
  | cons c l ih => exact fun m h => ih _ (Memory.write_wf _ _ _ h)

theorem Memory.ofImage_within (size : Nat) (image : List Host.Cell) :
    (Memory.ofImage size image).within size := by
  unfold Memory.ofImage
  suffices h : ∀ (l : List Host.Cell) (m : Memory), (∀ c ∈ l, c.1 < size) → m.within size →
      (l.foldl (fun m c => Memory.write m c.1 c.2) m).within size from
    h _ [] (fun c hc => by simpa using (List.mem_filter.1 hc).2) (by simp [Memory.within])
  intro l
  induction l with
  | nil => exact fun m _ h => h
  | cons c l ih =>
    exact fun m hl h => ih _ (fun d hd => hl d (by simp [hd]))
      (Memory.write_within _ _ _ _ h (hl c (by simp)))

theorem scatter_wf (size n : Nat) (m : Memory) (o v : Nat) (h : m.wf) :
    (scatter size m o n v).wf := by
  induction n generalizing m o v with
  | zero => exact h
  | succ n ih =>
    simp only [scatter]
    split
    · exact ih _ _ _ (Memory.write_wf _ _ _ h)
    · exact ih _ _ _ h

theorem scatter_within (size n : Nat) (m : Memory) (o v : Nat) (h : m.within size) :
    (scatter size m o n v).within size := by
  induction n generalizing m o v with
  | zero => exact h
  | succ n ih =>
    simp only [scatter]
    split
    · exact ih _ _ _ (Memory.write_within _ _ _ _ h ‹_›)
    · exact ih _ _ _ h

/-- What a read sees after a host write of `n` bytes (R64, R65, R68). -/
theorem scatter_read (size n : Nat) (m : Memory) (o v a : Nat) (h : m.wf) :
    (scatter size m o n v).read a =
      if o ≤ a ∧ a < o + n ∧ a < size then BitVec.ofNat 8 (v / 256 ^ (a - o)) else m.read a := by
  induction n generalizing m o v with
  | zero => rw [if_neg (by omega)]; rfl
  | succ n ih =>
    simp only [scatter]
    have step1 : ∀ m' : Memory, m'.wf → (∀ b, b ≠ o → m'.read b = m.read b) →
        (o < size → m'.read o = BitVec.ofNat 8 v) → (¬ o < size → m'.read o = m.read o) →
        (scatter size m' (o + 1) n (v / 256)).read a =
          if o ≤ a ∧ a < o + (n + 1) ∧ a < size then BitVec.ofNat 8 (v / 256 ^ (a - o))
          else m.read a := by
      intro m' hm' hother hin hout
      rw [ih m' _ _ hm']
      by_cases ha : a = o
      · subst ha
        rw [if_neg (by omega)]
        by_cases hs : a < size
        · rw [if_pos (by omega), hin hs]; simp
        · rw [if_neg (by omega), hout hs]
      · by_cases hr : o + 1 ≤ a ∧ a < o + 1 + n ∧ a < size
        · rw [if_pos hr, if_pos (by omega)]
          congr 1
          obtain ⟨k, hk⟩ : ∃ k, a - o = k + 1 := ⟨a - o - 1, by omega⟩
          rw [hk, pow_succ, Nat.div_div_eq_div_mul]
          congr 1
          rw [show a - (o + 1) = k by omega]
          ring
        · rw [if_neg hr, if_neg (by omega), hother a ha]
    split
    · rename_i hs
      exact step1 _ (Memory.write_wf _ _ _ h) (fun b hb => Memory.read_write_other _ _ _ _ hb)
        (fun _ => Memory.read_write_same _ _ _ h) (fun hn => absurd hs hn)
    · rename_i hs
      exact step1 _ h (fun _ _ => rfl) (fun hn => absurd hn hs) (fun _ => rfl)

/-! ### Extensionality -/

/-- Two canonical memories that read alike everywhere are equal. -/
theorem Memory.ext_of_read (m k : Memory) (hm : m.wf) (hk : k.wf)
    (h : ∀ a, m.read a = k.read a) : m = k := by
  induction m generalizing k with
  | nil =>
    cases k with
    | nil => rfl
    | cons d k =>
      have hd := ((Memory.wf_cons _ _).1 hk).2.1
      have := h d.1
      simp [Memory.read_cons] at this
      exact absurd this.symm hd
  | cons c m ih =>
    obtain ⟨hcm, hc, hm'⟩ := (Memory.wf_cons _ _).1 hm
    cases k with
    | nil =>
      have := h c.1
      simp [Memory.read_cons] at this
      exact absurd this hc
    | cons d k =>
      obtain ⟨hdk, hd, hk'⟩ := (Memory.wf_cons _ _).1 hk
      have key : c.1 = d.1 := by
        rcases lt_trichotomy c.1 d.1 with hlt | heq | hgt
        · have h1 := h c.1
          rw [Memory.read_cons, if_pos rfl, Memory.read_unlisted (d :: k)] at h1
          · exact absurd h1 hc
          · intro e he
            rcases List.mem_cons.1 he with rfl | he
            · omega
            · have := hdk e he; omega
        · exact heq
        · have h1 := h d.1
          rw [Memory.read_cons d, if_pos rfl, Memory.read_unlisted (c :: m)] at h1
          · exact absurd h1.symm hd
          · intro e he
            rcases List.mem_cons.1 he with rfl | he
            · omega
            · have := hcm e he; omega
      have hval : c.2 = d.2 := by
        have h1 := h c.1
        rwa [Memory.read_cons, if_pos rfl, Memory.read_cons, if_pos key.symm] at h1
      have hrest : m = k := by
        refine ih k hm' hk' fun a => ?_
        have h1 := h a
        rw [Memory.read_cons, Memory.read_cons] at h1
        by_cases ha : c.1 = a
        · rw [Memory.read_unlisted m a fun e he => by have := hcm e he; omega,
            Memory.read_unlisted k a fun e he => by have := hdk e he; omega]
        · rwa [if_neg ha, if_neg (key ▸ ha)] at h1
      rw [hrest, Prod.ext key hval]

/-- The memory of the reset state has the canonical form and lists nothing outside the buffers. -/
theorem reset_memory_wf :
    State.reset.ibuf.wf ∧ State.reset.obuf.wf := ⟨Memory.wf_nil, Memory.wf_nil⟩

end Sys2Proof.Machine
end

