-- ==== Sys2Proof/Laws/Bus.lean ====
section
/-! SUPPORT. What a host turn and a step can do: which accesses are legal, each bus operation, and one
inversion lemma for `hostTurn` and one for `step`. -/

namespace Sys2Proof.Machine

/-! ### Legal accesses -/

/-- The region map says which addresses are the two windows (R62). -/
theorem regionOf_window (a : Word) :
    (regionOf a = .ibuf ∨ regionOf a = .obuf) ↔ 0x40000000 ≤ a.toNat ∧ a.toNat < 0xC0000000 := by
  unfold regionOf
  split_ifs <;> simp <;> omega

/-- The Boolean check is R63 and R64. -/
theorem legalAccess_iff (a : Word) (n : Nat) : legalAccess a n = true ↔ AccessAllowed a n := by
  unfold AccessAllowed
  by_cases h : 0x40000000 ≤ a.toNat ∧ a.toNat < 0xC0000000
  · rw [if_pos h]
    rcases (regionOf_window a).2 h with hr | hr <;>
      simp only [legalAccess, hr, Bool.and_eq_true, Bool.or_eq_true, beq_iff_eq, Nat.dvd_iff_mod_eq_zero,
        or_assoc]
  · rw [if_neg h]
    have hr := mt (regionOf_window a).1 h
    unfold legalAccess
    split
    · rename_i hi; exact absurd (.inl hi) hr
    · rename_i hi; exact absurd (.inr hi) hr
    · simp [Nat.dvd_iff_mod_eq_zero]
    · simp [Nat.dvd_iff_mod_eq_zero]

/-! ### What a bus operation changes -/

/-- A read changes nothing of the block but the free-value counter and the log of replies (R75). -/
theorem busRead_eq (a : Word) (n : Nat) (s : State) :
    busRead a n s = { s with
      replies := busReadReply s a n :: s.replies, freeCount := s.freeCount + 1 } := rfl

theorem busReadReply_illegal {s : State} {a : Word} {n : Nat} (h : legalAccess a n = false) :
    busReadReply s a n = ⟨0, true⟩ := by
  simp [busReadReply, h]

/-- A legal read of an idle block out of reset answers the register, window or reserved place. -/
theorem busReadReply_idle {s : State} {a : Word} {n : Nat} (h : legalAccess a n = true)
    (hr : s.inReset = false) (hb : s.busy = false) :
    busReadReply s a n = ⟨busData s a n, false⟩ := by
  simp [busReadReply, h, hr, hb]

/-- A legal read gets no bus error, whatever the block is doing. -/
theorem busReadReply_legal {s : State} {a : Word} {n : Nat} (h : legalAccess a n = true) :
    ∃ d, busReadReply s a n = ⟨d, false⟩ := by
  simp only [busReadReply, h, Bool.not_true, Bool.false_eq_true, if_false]
  split
  · exact ⟨_, rfl⟩
  · split <;> exact ⟨_, rfl⟩

theorem busWrite_illegal {s : State} {a : Word} {n : Nat} {v : Word} (h : legalAccess a n = false) :
    busWrite a n v s = { s with replies := ⟨0, true⟩ :: s.replies } := by
  simp [busWrite, h]

theorem busWrite_reset {s : State} {a : Word} {n : Nat} {v : Word} (h : legalAccess a n = true)
    (hr : s.inReset = true) : busWrite a n v s = { s with replies := ⟨0, false⟩ :: s.replies } := by
  simp [busWrite, h, hr]

theorem busWrite_busy {s : State} {a : Word} {n : Nat} {v : Word} (h : legalAccess a n = true)
    (hr : s.inReset = false) (hb : s.busy = true) :
    busWrite a n v s = { s with replies := ⟨0, false⟩ :: s.replies, wbusy := true } := by
  simp [busWrite, h, hr, hb]

theorem busWrite_idle {s : State} {a : Word} {n : Nat} {v : Word} (h : legalAccess a n = true)
    (hr : s.inReset = false) (hb : s.busy = false) :
    busWrite a n v s = writeEffect a n v { s with replies := ⟨0, false⟩ :: s.replies } := by
  simp [busWrite, h, hr, hb]

/-- The effects a write of the register region can have (R24, R31, R32, R34, R67). -/
theorem regWrite_cases (s : State) (o : Nat) (v : Word) :
    regWrite s o v =
      { s.accept v (Config.completionDelay s.freeCount) with freeCount := s.freeCount + 1 } ∨
    (∃ d, regWrite s o v = { s with done := d } ∧ (d = true → s.done = true)) ∨
    regWrite s o v = { s with irqEn := v.getLsbD 0 } ∨
    regWrite s o v = { s with inLen := v } ∨ regWrite s o v = s := by
  unfold regWrite
  split
  · exact .inl rfl
  · split
    · refine .inr (.inl ⟨_, rfl, fun h => ?_⟩)
      rw [Bool.and_eq_true] at h
      exact h.1
    · split
      · exact .inr (.inr (.inl rfl))
      · split
        · exact .inr (.inr (.inr (.inl rfl)))
        · exact .inr (.inr (.inr (.inr rfl)))

/-- The effects a legal write of an idle block can have. -/
theorem writeEffect_cases (a : Word) (n : Nat) (v : Word) (s : State) :
    writeEffect a n v s =
      { s.accept v (Config.completionDelay s.freeCount) with freeCount := s.freeCount + 1 } ∨
    (∃ d, writeEffect a n v s = { s with done := d } ∧ (d = true → s.done = true)) ∨
    writeEffect a n v s = { s with irqEn := v.getLsbD 0 } ∨
    writeEffect a n v s = { s with inLen := v } ∨
    (∃ o, writeEffect a n v s =
      { s with ibuf := scatter s.capInMax.toNat s.ibuf o n v.toNat }) ∨
    writeEffect a n v s = s := by
  unfold writeEffect
  split
  · rcases regWrite_cases s a.toNat v with h | h | h | h | h
    · exact .inl h
    · exact .inr (.inl h)
    · exact .inr (.inr (.inl h))
    · exact .inr (.inr (.inr (.inl h)))
    · exact .inr (.inr (.inr (.inr (.inr h))))
  · exact .inr (.inr (.inr (.inr (.inr rfl))))
  · exact .inr (.inr (.inr (.inr (.inl ⟨_, rfl⟩))))
  · exact .inr (.inr (.inr (.inr (.inr rfl))))

/-! ### A host turn -/

/-- Everything a host turn can do to the block. The host's own fields are `inbox` and `replies`, the
model's counter is `freeCount`. -/
inductive HostEffect (s : State) : State → Prop where
  /-- no operation, a read, a poll, or a write without effect -/
  | none (inbox : List BusOp) (freeCount : Nat) (replies : List BusReply) :
      HostEffect s { s with inbox := inbox, freeCount := freeCount, replies := replies }
  /-- a legal write while a command is in progress (R28) -/
  | dropped (inbox : List BusOp) (replies : List BusReply) (hr : s.inReset = false)
      (hb : s.busy = true) :
      HostEffect s { s with inbox := inbox, replies := replies, wbusy := true }
  /-- a command word is accepted (R120) -/
  | accepted (inbox : List BusOp) (replies : List BusReply) (w : Word) (delay freeCount : Nat)
      (hr : s.inReset = false) (hb : s.busy = false) :
      HostEffect s { s.accept w delay with
        inbox := inbox, replies := replies, freeCount := freeCount }
  /-- DONE is cleared or kept (R24) -/
  | status (inbox : List BusOp) (replies : List BusReply) (d : Bool) (hd : d = true → s.done = true)
      (hr : s.inReset = false) (hb : s.busy = false) :
      HostEffect s { s with inbox := inbox, replies := replies, done := d }
  /-- CTRL (R31) -/
  | ctrl (inbox : List BusOp) (replies : List BusReply) (b : Bool) (hr : s.inReset = false)
      (hb : s.busy = false) :
      HostEffect s { s with inbox := inbox, replies := replies, irqEn := b }
  /-- IN_LEN (R34) -/
  | inLen (inbox : List BusOp) (replies : List BusReply) (v : Word) (hr : s.inReset = false)
      (hb : s.busy = false) :
      HostEffect s { s with inbox := inbox, replies := replies, inLen := v }
  /-- the IBUF window (R49) -/
  | input (inbox : List BusOp) (replies : List BusReply) (o n v : Nat) (hr : s.inReset = false)
      (hb : s.busy = false) :
      HostEffect s { s with
        inbox := inbox, replies := replies, ibuf := scatter s.capInMax.toNat s.ibuf o n v }
  /-- reset is asserted (R270) -/
  | reset (inbox : List BusOp) : HostEffect s (State.resetEvent { s with inbox := inbox })
  /-- reset is released -/
  | release (inbox : List BusOp) : HostEffect s { s with inbox := inbox, inReset := false }

/-- A write is one of the host's effects. -/
theorem busWrite_effect (a : Word) (n : Nat) (v : Word) (s : State) (ops : List BusOp) :
    HostEffect s (busWrite a n v { s with inbox := ops }) := by
  by_cases hl : legalAccess a n = true
  · by_cases hr : s.inReset = true
    · rw [busWrite_reset (s := { s with inbox := ops }) hl hr]
      exact .none _ s.freeCount _
    · rw [Bool.not_eq_true] at hr
      by_cases hb : s.busy = true
      · rw [busWrite_busy (s := { s with inbox := ops }) hl hr hb]
        exact .dropped _ _ hr hb
      · rw [Bool.not_eq_true] at hb
        rw [busWrite_idle (s := { s with inbox := ops }) hl hr hb]
        rcases writeEffect_cases a n v
            { s with inbox := ops, replies := ⟨0, false⟩ :: s.replies } with
          h | ⟨d, h, hd⟩ | h | h | ⟨o, h⟩ | h <;> rw [h]
        · exact .accepted _ _ _ _ _ hr hb
        · exact .status _ _ _ hd hr hb
        · exact .ctrl _ _ _ hr hb
        · exact .inLen _ _ _ hr hb
        · exact .input _ _ _ _ _ hr hb
        · exact .none _ s.freeCount _
  · rw [Bool.not_eq_true] at hl
    rw [busWrite_illegal (s := { s with inbox := ops }) hl]
    exact .none _ s.freeCount _

/-- Everything a host turn can do. -/
theorem hostTurn_effect (s : State) : HostEffect s (hostTurn s) := by
  unfold hostTurn
  split
  · exact .none s.inbox s.freeCount s.replies
  · exact busWrite_effect _ _ _ _ _
  · exact .none _ _ _
  · split
    · exact .none _ _ _
    · exact .none s.inbox _ _
  · exact .reset _
  · exact .release _

/-- A completion step is due: reset released, a command in progress, no delay left. -/
theorem completionDue_iff (s : State) :
    s.completionDue = true ↔ s.inReset = false ∧ s.busy = true ∧ s.delay = 0 := by
  simp [State.completionDue, and_assoc]

/-- A step is a completion step or a host turn (R76). -/
theorem step_of_due {s : State} (h : s.completionDue = true) : step s = completionStep s := if_pos h

theorem step_of_not_due {s : State} (h : s.completionDue = false) :
    step s = .next (hostTurn s.tick) := by
  simp [step, h]

theorem tick_idle {s : State} (h : s.busy = false) : s.tick = s := by simp [State.tick, h]

theorem tick_busy {s : State} (h : s.busy = true) : s.tick = { s with delay := s.delay - 1 } := by
  simp [State.tick, h]

/-- A completion step is a command's meaning or an illegal word's error (R122). -/
theorem completionStep_cases (s : State) :
    (∃ i, decode s.pending = .ok i ∧ completionStep s = exec i s) ∨
    ((∃ e, decode s.pending = .error e) ∧
      completionStep s = .next (s.takeError .illegalCmd s.pending).endCommand) := by
  unfold completionStep
  cases decode s.pending with
  | ok i => exact .inl ⟨i, rfl, rfl⟩
  | error e => exact .inr ⟨⟨e, rfl⟩, rfl⟩

/-- Everything a step that answers a next state can do. -/
theorem step_cases {s t : State} (h : step s = .next t) :
    (s.completionDue = true ∧
      ((∃ i, decode s.pending = .ok i ∧ exec i s = .next t) ∨
        ((∃ e, decode s.pending = .error e) ∧
          t = (s.takeError .illegalCmd s.pending).endCommand))) ∨
    (s.completionDue = false ∧ t = hostTurn s.tick ∧ HostEffect s.tick t) := by
  cases hd : s.completionDue with
  | true =>
    rw [step_of_due hd] at h
    rcases completionStep_cases s with ⟨i, hi, he⟩ | ⟨hi, he⟩ <;> rw [he] at h
    · exact .inl ⟨rfl, .inl ⟨i, hi, h⟩⟩
    · exact .inl ⟨rfl, .inr ⟨hi, by cases h; rfl⟩⟩
  | false =>
    rw [step_of_not_due hd] at h
    cases h
    exact .inr ⟨rfl, rfl, hostTurn_effect _⟩

end Sys2Proof.Machine
end

