-- ==== Sys2Proof/Laws/Tables.lean ====
section
/-! SUPPORT. Laws of the tables, of the list of all byte values and of vectors given element by element. -/

namespace Sys2Proof.Machine

@[simp] theorem getElem_vecOfFn {α : Type} (n : Nat) (f : Nat → α) (i : Nat) (h : i < n) :
    (vecOfFn n f)[i] = f i := by
  simp [vecOfFn]

theorem getElem?_vecOfFn {α : Type} (n : Nat) (f : Nat → α) (i : Nat) :
    (vecOfFn n f)[i]? = if i < n then some (f i) else none := by
  split
  · rename_i h
    rw [Vector.getElem?_eq_getElem h, getElem_vecOfFn]
  · rename_i h
    exact Vector.getElem?_eq_none (by omega)

@[simp] theorem Table.look_vecOfFn {α : Type} (f : Nat → α) (b : Byte) :
    Table.look (vecOfFn 256 f) b = f b.toNat := by
  simp [Table.look]

@[simp] theorem Table.look_replicate {α : Type} (v : α) (b : Byte) :
    Table.look (Vector.replicate 256 v) b = v := by
  simp [Table.look]

@[simp] theorem Table.look_put_same {α : Type} (t : Table α) (b : Byte) (v : α) :
    (t.put b v).look b = v := by
  simp [Table.look, Table.put]

theorem Table.look_put_other {α : Type} (t : Table α) (b c : Byte) (v : α) (h : c ≠ b) :
    (t.put b v).look c = t.look c := by
  have hne : b.toNat ≠ c.toNat := fun e => h (BitVec.eq_of_toNat_eq e.symm)
  simp [Table.look, Table.put, hne]

theorem Table.look_put {α : Type} (t : Table α) (b c : Byte) (v : α) :
    (t.put b v).look c = if c = b then v else t.look c := by
  split
  · rename_i h; subst h; simp
  · rename_i h; exact Table.look_put_other t b c v h

/-- Tables that agree everywhere are equal. -/
theorem Table.ext_of_look {α : Type} (t u : Table α) (h : ∀ b, t.look b = u.look b) : t = u := by
  refine Vector.ext fun i hi => ?_
  have hb : (BitVec.ofNat 8 i).toNat = i := by simpa using Nat.mod_eq_of_lt hi
  have h' := h (BitVec.ofNat 8 i)
  simp only [Table.look] at h'
  simpa only [hb] using h'

@[simp] theorem length_allBytes : allBytes.length = 256 := by simp [allBytes]

@[simp] theorem mem_allBytes (b : Byte) : b ∈ allBytes := by
  simp only [allBytes, List.mem_map, List.mem_range]
  exact ⟨b.toNat, b.isLt, by simp⟩

/-- The bytes are listed in ascending order, each once. -/
theorem allBytes_sorted : allBytes.Pairwise fun a b => a.toNat < b.toNat := by
  rw [allBytes, List.pairwise_map]
  refine (List.pairwise_lt_range (n := 256)).imp_of_mem ?_
  intro a b ha hb hab
  rw [List.mem_range] at ha hb
  simpa [Nat.mod_eq_of_lt ha, Nat.mod_eq_of_lt hb] using hab

theorem allBytes_nodup : allBytes.Nodup :=
  allBytes_sorted.imp fun h e => by simp [e] at h

end Sys2Proof.Machine
end

