-- ==== Sys2Proof/Laws/Codes.lean ====
section
/-! SUPPORT. The canonical numbering of ASSIGN (R184, R185): its closed form, and what Kraft's inequality
gives: no code overflows its length and no code is a prefix of another. -/

namespace Sys2Proof.Machine

/-! ### Buckets -/

theorem mem_bucket (lengths : Byte → Nat) (n : Nat) (b : Byte) :
    b ∈ bucket lengths n ↔ lengths b = n := by
  simp [bucket]

theorem bucket_sorted (lengths : Byte → Nat) (n : Nat) :
    (bucket lengths n).Pairwise fun a b => a.toNat < b.toNat :=
  allBytes_sorted.filter _

theorem bucket_nodup (lengths : Byte → Nat) (n : Nat) : (bucket lengths n).Nodup :=
  allBytes_nodup.filter _

/-! ### The closed form -/

/-- The running value when bucket `n + 1` is reached: `Σ_{L' ≤ n} BLCOUNT[L'] · 2^(n + 1 − L')`. -/
def firstCode (lengths : Byte → Nat) : Nat → Nat
  | 0 => 0
  | n + 1 => 2 * (firstCode lengths n + (bucket lengths (n + 1)).length)

theorem assignBucket_fst (n : Nat) (bs : List Byte) (code : Nat) (t : Table Nat) :
    (assignBucket n bs code t).1 = code + bs.length := by
  induction bs generalizing code t with
  | nil => rfl
  | cons b bs ih => simp only [assignBucket, ih, List.length_cons]; omega

theorem assignBucket_notMem (n : Nat) (bs : List Byte) (code : Nat) (t : Table Nat) (b : Byte)
    (h : b ∉ bs) : (assignBucket n bs code t).2.look b = t.look b := by
  induction bs generalizing code t with
  | nil => rfl
  | cons c bs ih =>
    simp only [List.mem_cons, not_or] at h
    rw [assignBucket, ih _ _ h.2, Table.look_put_other _ _ _ _ h.1]

theorem assignBucket_mem (n : Nat) (bs : List Byte) (code : Nat) (t : Table Nat) (b : Byte)
    (hn : bs.Nodup) (h : b ∈ bs) :
    (assignBucket n bs code t).2.look b = (code + bs.idxOf b) % 2 ^ n := by
  induction bs generalizing code t with
  | nil => simp at h
  | cons c bs ih =>
    rw [List.nodup_cons] at hn
    rw [assignBucket]
    by_cases hbc : b = c
    · subst hbc
      rw [assignBucket_notMem _ _ _ _ _ hn.1]
      simp
    · rw [ih _ _ hn.2 ((List.mem_cons.1 h).resolve_left hbc), List.idxOf_cons_ne _ (Ne.symm hbc)]
      congr 1
      omega

theorem assignFrom_look (lengths : Byte → Nat) (k n : Nat) (t : Table Nat) (b : Byte) :
    (assignFrom lengths k (n + 1) (firstCode lengths n) t).look b =
      if n < lengths b ∧ lengths b ≤ n + k then
        (firstCode lengths (lengths b - 1) + (bucket lengths (lengths b)).idxOf b) %
          2 ^ lengths b
      else t.look b := by
  induction k generalizing n t with
  | zero => rw [if_neg (by omega)]; rfl
  | succ k ih =>
    rw [assignFrom]
    have hnext : 2 * (assignBucket (n + 1) (bucket lengths (n + 1)) (firstCode lengths n) t).1 =
        firstCode lengths (n + 1) := by
      rw [assignBucket_fst, firstCode]
    rw [hnext, ih]
    by_cases h1 : lengths b = n + 1
    · rw [if_neg (by omega), if_pos (by omega), h1,
        assignBucket_mem _ _ _ _ _ (bucket_nodup _ _) ((mem_bucket _ _ _).2 h1)]
      simp
    · by_cases h2 : n + 1 < lengths b ∧ lengths b ≤ n + 1 + k
      · rw [if_pos h2, if_pos (by omega)]
      · rw [if_neg h2, if_neg (by omega),
          assignBucket_notMem _ _ _ _ _ fun h => h1 ((mem_bucket _ _ _).1 h)]

/-- The canonical code value of a byte of length 1 to `maxLen` (R184). -/
theorem canonicalCodes_look (lengths : Byte → Nat) (maxLen : Nat) (b : Byte)
    (h1 : 1 ≤ lengths b) (h2 : lengths b ≤ maxLen) :
    (canonicalCodes lengths maxLen).look b =
      (firstCode lengths (lengths b - 1) + (bucket lengths (lengths b)).idxOf b) %
        2 ^ lengths b := by
  have := assignFrom_look lengths maxLen 0 (Vector.replicate 256 0) b
  rw [if_pos (by omega)] at this
  exact this

theorem canonicalCodes_absent (lengths : Byte → Nat) (maxLen : Nat) (b : Byte)
    (h : lengths b = 0) : (canonicalCodes lengths maxLen).look b = 0 := by
  have := assignFrom_look lengths maxLen 0 (Vector.replicate 256 0) b
  rw [if_neg (by omega), Table.look_replicate] at this
  exact this

/-- The running value as the sum of R185. -/
theorem firstCode_eq_sum (lengths : Byte → Nat) (n : Nat) :
    firstCode lengths n =
      ((List.range' 1 n).map fun m => (bucket lengths m).length * 2 ^ (n + 1 - m)).sum := by
  induction n with
  | zero => rfl
  | succ n ih =>
    rw [firstCode, ih, List.range'_1_concat, List.map_append, List.sum_append, mul_add,
      ← List.sum_map_mul_left]
    congr 1
    · refine congrArg _ (List.map_congr_left fun m hm => ?_)
      rw [List.mem_range'_1] at hm
      rw [show n + 1 + 1 - m = (n + 1 - m) + 1 by omega, pow_succ]
      ring
    · simp only [List.map_cons, List.map_nil, List.sum_cons, List.sum_nil]
      rw [show n + 1 + 1 - (1 + n) = 1 by omega, show n + 1 = 1 + n by omega]
      ring

theorem firstCode_mono_pow (lengths : Byte → Nat) (n k : Nat) (h : 0 < k) :
    2 ^ k * (firstCode lengths n + (bucket lengths (n + 1)).length) ≤
      firstCode lengths (n + k) := by
  induction k with
  | zero => omega
  | succ k ih =>
    rcases Nat.eq_zero_or_pos k with rfl | hk
    · simp [firstCode]
    · rw [show n + (k + 1) = (n + k) + 1 by omega, firstCode, pow_succ]
      have := ih hk
      nlinarith

/-! ### Kraft -/

/-- Kraft's sum over the bytes of length 1 to `n`. -/
def kraftUpTo (lengths : Byte → Nat) (n : Nat) : Nat :=
  (allBytes.map fun b => if 1 ≤ lengths b ∧ lengths b ≤ n then 2 ^ (255 - lengths b) else 0).sum

theorem sum_map_ite_eq (l : List Byte) (p : Byte → Prop) [DecidablePred p] (c : Nat) :
    (l.map fun b => if p b then c else 0).sum = (l.filter p).length * c := by
  induction l with
  | nil => simp
  | cons b l ih =>
    by_cases h : p b
    · simp [h, ih]; ring
    · simp [h, ih]

theorem kraftUpTo_succ (lengths : Byte → Nat) (n : Nat) :
    kraftUpTo lengths (n + 1) =
      kraftUpTo lengths n + (bucket lengths (n + 1)).length * 2 ^ (255 - (n + 1)) := by
  rw [bucket, ← sum_map_ite_eq allBytes (fun b => lengths b = n + 1), kraftUpTo, kraftUpTo,
    ← List.sum_map_add]
  refine congrArg _ (List.map_congr_left fun b _ => ?_)
  by_cases h : lengths b = n + 1
  · rw [if_pos (by omega), if_neg (by omega), if_pos h, h]; omega
  · by_cases h' : 1 ≤ lengths b ∧ lengths b ≤ n
    · rw [if_pos (by omega), if_pos h', if_neg h]; omega
    · rw [if_neg (by omega), if_neg h', if_neg h]

theorem kraftUpTo_le (lengths : Byte → Nat) (n : Nat) : kraftUpTo lengths n ≤ kraftSum lengths := by
  unfold kraftUpTo kraftSum
  refine List.sum_le_sum fun b _ => ?_
  generalize 2 ^ (255 - lengths b) = w
  by_cases h : lengths b = 0
  · rw [if_neg (by omega)]
    exact Nat.zero_le _
  · rw [if_neg h]
    split
    · exact le_refl _
    · exact Nat.zero_le _

theorem firstCode_scaled (lengths : Byte → Nat) (n : Nat) (h : n < 255) :
    firstCode lengths n * 2 ^ (255 - (n + 1)) = kraftUpTo lengths n := by
  induction n with
  | zero => 
    rw [firstCode, zero_mul, kraftUpTo]
    symm
    rw [List.sum_eq_zero_iff]
    intro x hx
    obtain ⟨b, -, rfl⟩ := List.mem_map.1 hx
    rw [if_neg (by omega)]
  | succ n ih =>
    rw [kraftUpTo_succ, ← ih (by omega), firstCode]
    rw [show 255 - (n + 1) = (255 - (n + 1 + 1)) + 1 by omega, pow_succ]
    ring

/-- Under Kraft's inequality a whole bucket fits its length (R185). -/
theorem firstCode_add_bucket_le (lengths : Byte → Nat) (n : Nat) (hn : n < 255)
    (hk : kraftSum lengths ≤ 2 ^ 255) :
    firstCode lengths n + (bucket lengths (n + 1)).length ≤ 2 ^ (n + 1) := by
  have h1 := kraftUpTo_succ lengths n
  rw [← firstCode_scaled lengths n hn, ← add_mul] at h1
  have h2 := kraftUpTo_le lengths (n + 1)
  rw [h1] at h2
  have h3 := le_trans h2 hk
  have h4 : 2 ^ 255 = 2 ^ (n + 1) * 2 ^ (255 - (n + 1)) := by
    rw [← pow_add, Nat.add_sub_cancel' (by omega)]
  rw [h4] at h3
  exact Nat.le_of_mul_le_mul_right h3 (by positivity)

/-- The code of byte `b` fits its length, so the `mod` of R180 never changes it (R185). -/
theorem canonicalCodes_eq (lengths : Byte → Nat) (maxLen : Nat) (b : Byte)
    (h1 : 1 ≤ lengths b) (h2 : lengths b ≤ maxLen) (h3 : lengths b ≤ 255)
    (hk : kraftSum lengths ≤ 2 ^ 255) :
    (canonicalCodes lengths maxLen).look b =
      firstCode lengths (lengths b - 1) + (bucket lengths (lengths b)).idxOf b ∧
    (canonicalCodes lengths maxLen).look b < 2 ^ lengths b := by
  obtain ⟨n, hn⟩ : ∃ n, lengths b = n + 1 := ⟨lengths b - 1, by omega⟩
  have hlt : firstCode lengths n + (bucket lengths (n + 1)).idxOf b < 2 ^ (n + 1) := by
    have hidx := List.idxOf_lt_length_of_mem ((mem_bucket lengths (n + 1) b).2 hn)
    have := firstCode_add_bucket_le lengths n (by omega) hk
    omega
  have h := canonicalCodes_look lengths maxLen b h1 h2
  rw [hn] at h ⊢
  simp only [Nat.add_sub_cancel] at h ⊢
  rw [Nat.mod_eq_of_lt hlt] at h
  exact ⟨h, by omega⟩

theorem canonicalCodes_lt (lengths : Byte → Nat) (maxLen : Nat) (b : Byte) :
    (canonicalCodes lengths maxLen).look b < 2 ^ lengths b := by
  have h := assignFrom_look lengths maxLen 0 (Vector.replicate 256 0) b
  change (canonicalCodes lengths maxLen).look b = _ at h
  rw [h]
  split
  · exact Nat.mod_lt _ (by positivity)
  · simp

/-- A prefix of a code's string is the string of the code value shifted right. -/
theorem bin_prefix (v w m n : Nat) (h : bin v m <+: bin w n) : v % 2 ^ m = w % 2 ^ n / 2 ^ (n - m) := by
  obtain ⟨t, ht⟩ := h
  have hl := congrArg List.length ht
  have hv := congrArg val ht
  simp only [List.length_append, length_bin] at hl
  rw [val_append, val_bin, val_bin] at hv
  have ht' := val_lt t
  rw [show n - m = t.length by omega, ← hv, mul_comm,
    Nat.mul_add_div (by positivity), Nat.div_eq_of_lt ht', add_zero]

/-- R187: under Kraft's inequality the canonical codes are prefix free. -/
theorem canonicalCodes_prefixFree (lengths : Byte → Nat) (maxLen : Nat) (b c : Byte)
    (hb : 1 ≤ lengths b ∧ lengths b ≤ maxLen ∧ lengths b ≤ 255)
    (hc : 1 ≤ lengths c ∧ lengths c ≤ maxLen ∧ lengths c ≤ 255)
    (hk : kraftSum lengths ≤ 2 ^ 255) (hne : b ≠ c) :
    ¬ bin ((canonicalCodes lengths maxLen).look b) (lengths b) <+:
      bin ((canonicalCodes lengths maxLen).look c) (lengths c) := by
  intro hp
  have hlen := hp.length_le
  rw [length_bin, length_bin] at hlen
  obtain ⟨eb, lb⟩ := canonicalCodes_eq lengths maxLen b hb.1 hb.2.1 hb.2.2 hk
  obtain ⟨ec, lc⟩ := canonicalCodes_eq lengths maxLen c hc.1 hc.2.1 hc.2.2 hk
  have hv := bin_prefix _ _ _ _ hp
  rw [Nat.mod_eq_of_lt lb, Nat.mod_eq_of_lt lc] at hv
  have hib := List.idxOf_lt_length_of_mem ((mem_bucket lengths _ b).2 rfl)
  rcases hlen.eq_or_lt with heq | hlt
  · rw [heq, Nat.sub_self, pow_zero, Nat.div_one, eb, ec, heq] at hv
    have : (bucket lengths (lengths c)).idxOf b = (bucket lengths (lengths c)).idxOf c := by omega
    rw [heq] at hib
    exact hne ((List.idxOf_inj ((mem_bucket lengths _ b).2 heq)).1 this)
  · obtain ⟨n, hn⟩ : ∃ n, lengths b = n + 1 := ⟨lengths b - 1, by omega⟩
    obtain ⟨k, hk'⟩ : ∃ k, lengths c = n + k + 1 ∧ 0 < k :=
      ⟨lengths c - n - 1, by omega, by omega⟩
    have hpow := firstCode_mono_pow lengths n k hk'.2
    rw [hn] at hib
    have hcge : 2 ^ k * (firstCode lengths n + (bucket lengths (n + 1)).length) ≤
        (canonicalCodes lengths maxLen).look c := by
      rw [ec, hk'.1]
      simp only [Nat.add_sub_cancel]
      omega
    rw [eb, hn, hk'.1] at hv
    rw [show n + k + 1 - (n + 1) = k by omega] at hv
    simp only [Nat.add_sub_cancel] at hv
    have hdiv : firstCode lengths n + (bucket lengths (n + 1)).length ≤
        (canonicalCodes lengths maxLen).look c / 2 ^ k := by
      rw [Nat.le_div_iff_mul_le (by positivity), mul_comm]
      exact hcge
    omega

/-! ### The largest length -/

theorem foldl_max_spec (l : List Byte) (f : Byte → Nat) (a : Nat) :
    a ≤ l.foldl (fun m b => max m (f b)) a ∧
    (∀ b ∈ l, f b ≤ l.foldl (fun m b => max m (f b)) a) ∧
    (l.foldl (fun m b => max m (f b)) a = a ∨ ∃ b ∈ l, f b = l.foldl (fun m b => max m (f b)) a) := by
  induction l generalizing a with
  | nil => simp
  | cons c l ih =>
    obtain ⟨h1, h2, h3⟩ := ih (max a (f c))
    simp only [List.foldl_cons]
    refine ⟨le_trans (le_max_left _ _) h1, ?_, ?_⟩
    · intro b hb
      rcases List.mem_cons.1 hb with rfl | hb
      · exact le_trans (le_max_right _ _) h1
      · exact h2 b hb
    · rcases h3 with h3 | ⟨b, hb, h3⟩
      · rcases max_choice a (f c) with hm | hm
        · exact .inl (h3.trans hm)
        · exact .inr ⟨c, by simp, by rw [h3, hm]⟩
      · exact .inr ⟨b, by simp [hb], h3⟩

theorem le_largestLength (lengths : Byte → Nat) (b : Byte) : lengths b ≤ largestLength lengths :=
  (foldl_max_spec allBytes lengths 0).2.1 b (mem_allBytes b)

/-- MAXLEN is 0 or some byte's length (R183). -/
theorem largestLength_attained (lengths : Byte → Nat) :
    largestLength lengths = 0 ∨ ∃ b, lengths b = largestLength lengths := by
  rcases (foldl_max_spec allBytes lengths 0).2.2 with h | ⟨b, -, h⟩
  · exact .inl h
  · exact .inr ⟨b, h⟩

theorem largestLength_le (lengths : Byte → Nat) (n : Nat) (h : ∀ b, lengths b ≤ n) :
    largestLength lengths ≤ n := by
  rcases largestLength_attained lengths with h0 | ⟨b, hb⟩
  · omega
  · rw [← hb]; exact h b

end Sys2Proof.Machine
end

