-- ==== Sys2Proof/Laws/Counting.lean ====
section
/-! SUPPORT. What the loop of COUNT leaves after any input (R140 to R143). -/

namespace Sys2Proof.Machine

theorem length_le_of_nodup (l : List Byte) (h : l.Nodup) : l.length ≤ 256 := by
  have := (h.subperm fun b _ => mem_allBytes b).length_le
  simpa using this

/-- The counts of an input: FREQ counts it, ORDER lists `ds`, its distinct bytes in the order of their
first occurrences, and NSYM is how many they are. -/
structure Counts.Of (xs ds : List Byte) (c : Counts) : Prop where
  freq   : ∀ b, (c.freq.look b).toNat = xs.count b
  nodup  : ds.Nodup
  mem    : ∀ b, b ∈ ds ↔ b ∈ xs
  sorted : ds.Pairwise fun a b => xs.idxOf a < xs.idxOf b
  nsym   : c.nsym.toNat = ds.length
  order  : ∀ r, c.order[r]? = if r < 256 then some (ds[r]?.getD 0) else none

theorem Counts.of_nil : Counts.Of [] [] ⟨Vector.replicate 256 0, Vector.replicate 256 0, 0⟩ where
  freq b := by simp
  nodup := .nil
  mem b := by simp
  sorted := .nil
  nsym := rfl
  order r := by simp [Vector.getElem?_replicate]

theorem Counts.of_snoc (xs ds : List Byte) (c : Counts) (b : Byte) (h : Counts.Of xs ds c)
    (hl : xs.length + 1 < 2 ^ 32) :
    Counts.Of (xs ++ [b]) (if b ∈ xs then ds else ds ++ [b]) (c.add b) := by
  have hcount : ∀ a, xs.count a < 2 ^ 32 - 1 := fun a =>
    lt_of_le_of_lt List.count_le_length (by omega)
  have hfreq : ∀ a, ((c.freq.put b (c.freq.look b + 1)).look a).toNat = (xs ++ [b]).count a := by
    intro a
    rw [Table.look_put, List.count_append, List.count_singleton]
    by_cases hab : a = b
    · subst hab
      have := hcount a
      have hf := h.freq a
      have h1 : (1 : Word).toNat = 1 := rfl
      simp only [if_pos, BitVec.toNat_add, hf, beq_self_eq_true]
      omega
    · simp [hab, h.freq a, Ne.symm hab]
  have hzero : c.freq.look b = 0 ↔ b ∉ xs := by
    rw [← List.count_eq_zero, ← h.freq b, ← BitVec.toNat_inj]
    simp
  have hidx : ∀ a ∈ xs, (xs ++ [b]).idxOf a = xs.idxOf a := fun a ha =>
    List.idxOf_append_of_mem ha
  have hold : ds.Pairwise fun a a' => (xs ++ [b]).idxOf a < (xs ++ [b]).idxOf a' :=
    h.sorted.imp_of_mem fun ha ha' hlt => by
      rwa [hidx _ ((h.mem _).1 ha), hidx _ ((h.mem _).1 ha')]
  by_cases hb : b ∈ xs
  · have hadd : c.add b = { c with freq := c.freq.put b (c.freq.look b + 1) } := by
      rw [Counts.add, if_neg fun hz => (hzero.1 hz) hb]
    rw [if_pos hb, hadd]
    exact
      { freq := hfreq
        nodup := h.nodup
        mem := fun a => by
          rw [h.mem a, List.mem_append, List.mem_singleton]
          exact ⟨.inl, fun ha => ha.elim id fun e => e ▸ hb⟩
        sorted := hold
        nsym := h.nsym
        order := h.order }
  · have hnb : b ∉ ds := fun hd => hb ((h.mem b).1 hd)
    have hnd : (ds ++ [b]).Nodup := by
      rw [List.nodup_append]
      exact ⟨h.nodup, by simp, fun a ha a' ha' e => hnb (by simp_all)⟩
    have hlen := length_le_of_nodup _ hnd
    rw [List.length_append, List.length_singleton] at hlen
    have hadd : c.add b =
        ⟨c.freq.put b (c.freq.look b + 1), c.order.setIfInBounds c.nsym.toNat b, c.nsym + 1⟩ := by
      rw [Counts.add, if_pos (hzero.2 hb)]
    rw [if_neg hb, hadd]
    exact
      { freq := hfreq
        nodup := hnd
        mem := fun a => by simp [h.mem a]
        sorted := by
          rw [List.pairwise_append]
          refine ⟨hold, by simp, fun a ha a' ha' => ?_⟩
          rw [List.mem_singleton] at ha'
          subst ha'
          have hax := (h.mem a).1 ha
          rw [hidx a hax, List.idxOf_append_of_notMem hb]
          have := List.idxOf_lt_length_of_mem hax
          omega
        nsym := by
          have := h.nsym
          have h1 : (1 : BitVec 9).toNat = 1 := rfl
          simp only [BitVec.toNat_add, this,
            List.length_append, List.length_singleton]
          omega
        order := fun r => by
          rw [Vector.getElem?_setIfInBounds, h.nsym]
          by_cases hr : ds.length = r
          · subst hr
            simp only [if_pos, List.getElem?_concat_length, Option.getD_some]
          · rw [if_neg hr, h.order r]
            congr 3
            rcases lt_or_gt_of_ne hr with hlt | hgt
            · rw [List.getElem?_eq_none (by omega), List.getElem?_eq_none (by simp; omega)]
            · rw [List.getElem?_append_left hgt] }

/-- The loop of COUNT over a whole input, whose length fits a 32-bit register. -/
theorem Counts.of_foldl (xs : List Byte) (hl : xs.length < 2 ^ 32) :
    ∃ ds, Counts.Of xs ds
      (xs.foldl Counts.add ⟨Vector.replicate 256 0, Vector.replicate 256 0, 0⟩) := by
  induction xs using List.reverseRecOn with
  | nil => exact ⟨[], Counts.of_nil⟩
  | append_singleton xs b ih =>
    rw [List.length_append, List.length_singleton] at hl
    obtain ⟨ds, h⟩ := ih (by omega)
    rw [List.foldl_append]
    exact ⟨_, Counts.of_snoc xs ds _ b h hl⟩

end Sys2Proof.Machine
end

