-- ==== Sys2Proof/Laws/Sequences.lean ====
section
/-! SUPPORT. Laws of the sequence operations (R11, R151 to R153): where `reinsert` puts an element, that
sorting permutes, sorts and is stable, and what two `pop_tail`s take. -/

namespace Sys2Proof.Machine

variable {α : Type}

/-- `reinsert` element by element. -/
theorem reinsert_nil (key : α → Nat) (x : α) : reinsert key x [] = [x] := rfl

theorem reinsert_cons (key : α → Nat) (x y : α) (q : List α) :
    reinsert key x (y :: q) = if key y ≤ key x then x :: y :: q else y :: reinsert key x q := by
  unfold reinsert insertAt
  rw [List.findIdx_cons]
  by_cases h : key y ≤ key x <;> simp [h]

/-- R153: everything headward of the inserted element is heavier, the element after it is not. -/
theorem reinsert_split (key : α → Nat) (x : α) (q : List α) :
    ∃ pre post, q = pre ++ post ∧ reinsert key x q = pre ++ x :: post ∧
      (∀ y ∈ pre, key x < key y) ∧ (∀ y, post.head? = some y → key y ≤ key x) := by
  induction q with
  | nil => exact ⟨[], [], rfl, rfl, by simp, by simp⟩
  | cons y q ih =>
    rw [reinsert_cons]
    split
    · rename_i h
      exact ⟨[], y :: q, rfl, rfl, by simp, by simpa using h⟩
    · rename_i h
      obtain ⟨pre, post, hq, hr, hpre, hpost⟩ := ih
      refine ⟨y :: pre, post, by simp [hq], by simp [hr], ?_, hpost⟩
      intro z hz
      rcases List.mem_cons.1 hz with rfl | hz
      · omega
      · exact hpre z hz

theorem reinsert_perm (key : α → Nat) (x : α) (q : List α) :
    (reinsert key x q).Perm (x :: q) := by
  obtain ⟨pre, post, hq, hr, -, -⟩ := reinsert_split key x q
  rw [hr, hq]
  exact List.perm_middle

@[simp] theorem length_reinsert (key : α → Nat) (x : α) (q : List α) :
    (reinsert key x q).length = q.length + 1 := by
  simpa using (reinsert_perm key x q).length_eq

/-- Descending by key. -/
abbrev DescBy (key : α → Nat) (q : List α) : Prop := q.Pairwise fun a b => key b ≤ key a

theorem reinsert_desc (key : α → Nat) (x : α) (q : List α) (h : DescBy key q) :
    DescBy key (reinsert key x q) := by
  induction q with
  | nil => simp [reinsert_nil, DescBy]
  | cons y q ih =>
    obtain ⟨hy, hq⟩ := List.pairwise_cons.1 h
    rw [reinsert_cons]
    split
    · rename_i hle
      refine List.pairwise_cons.2 ⟨?_, h⟩
      intro z hz
      rcases List.mem_cons.1 hz with rfl | hz
      · exact hle
      · exact le_trans (hy z hz) hle
    · rename_i hgt
      refine List.pairwise_cons.2 ⟨?_, ih hq⟩
      intro z hz
      rcases List.mem_cons.1 ((reinsert_perm key x q).mem_iff.1 hz) with rfl | hz
      · omega
      · exact hy z hz

/-- `reinsert` looks at the keys of the sequence and of the new element only. -/
theorem reinsert_congr (key key' : α → Nat) (x : α) (q : List α)
    (h : ∀ y ∈ x :: q, key y = key' y) : reinsert key x q = reinsert key' x q := by
  induction q with
  | nil => rfl
  | cons y q ih =>
    rw [reinsert_cons, reinsert_cons, h x (by simp), h y (by simp)]
    rw [ih fun z hz => h z (by
      rcases List.mem_cons.1 hz with rfl | hz
      · simp
      · simp [hz])]

/-- `reinsert` commutes with a map that keeps the keys. -/
theorem reinsert_map {β : Type} (f : α → β) (key : α → Nat) (key' : β → Nat) (x : α) (q : List α)
    (h : ∀ y ∈ x :: q, key' (f y) = key y) :
    (reinsert key x q).map f = reinsert key' (f x) (q.map f) := by
  induction q with
  | nil => rfl
  | cons y q ih =>
    rw [reinsert_cons, List.map_cons, reinsert_cons, h x (by simp), h y (by simp)]
    rw [← ih fun z hz => h z (by
      rcases List.mem_cons.1 hz with rfl | hz
      · simp
      · simp [hz])]
    split <;> simp

theorem stableSortDesc_perm (key : α → Nat) (q : List α) : (stableSortDesc key q).Perm q := by
  induction q with
  | nil => rfl
  | cons x q ih => exact (reinsert_perm key x _).trans (ih.cons x)

theorem stableSortDesc_desc (key : α → Nat) (q : List α) : DescBy key (stableSortDesc key q) := by
  induction q with
  | nil => simp [stableSortDesc, DescBy]
  | cons x q ih => exact reinsert_desc key x _ ih

/-- Stability: elements of equal key keep their order; stated through any order the input respects. -/
theorem stableSortDesc_stable (key : α → Nat) (r : α → α → Prop) (q : List α)
    (h : q.Pairwise r) :
    (stableSortDesc key q).Pairwise fun a b => key b < key a ∨ (key a = key b ∧ r a b) := by
  induction q with
  | nil => simp [stableSortDesc]
  | cons x q ih =>
    obtain ⟨hx, hq⟩ := List.pairwise_cons.1 h
    have hs := ih hq
    have hd := stableSortDesc_desc key q
    obtain ⟨pre, post, he, hr, hpre, hpost⟩ := reinsert_split key x (stableSortDesc key q)
    change (reinsert key x (stableSortDesc key q)).Pairwise _
    have hmem : ∀ y ∈ stableSortDesc key q, y ∈ q :=
      fun y hy => (stableSortDesc_perm key q).mem_iff.1 hy
    rw [he] at hs hd hmem
    rw [hr]
    obtain ⟨h1, h2, h3⟩ := List.pairwise_append.1 hs
    have hpost' : ∀ y ∈ post, key y ≤ key x := by
      cases post with
      | nil => simp
      | cons z post =>
        have hz := hpost z rfl
        intro y hy
        rcases List.mem_cons.1 hy with rfl | hy
        · exact hz
        · exact le_trans ((List.pairwise_cons.1 (List.pairwise_append.1 hd).2.1).1 y hy) hz
    refine List.pairwise_append.2 ⟨h1, List.pairwise_cons.2 ⟨?_, h2⟩, ?_⟩
    · intro y hy
      rcases (hpost' y hy).lt_or_eq with hlt | heq
      · exact .inl hlt
      · exact .inr ⟨heq.symm, hx y (hmem y (by simp [hy]))⟩
    · intro a ha b hb
      rcases List.mem_cons.1 hb with rfl | hb
      · exact .inl (hpre a ha)
      · exact h3 a ha b hb

/-- Two `pop_tail`s succeed exactly on two or more elements. -/
theorem popTwo_append (q : List α) (c a : α) : popTwo (q ++ [c, a]) = some (a, c, q) := by
  simp [popTwo]

theorem popTwo_eq_some (q rest : List α) (a c : α) (h : popTwo q = some (a, c, rest)) :
    q = rest ++ [c, a] := by
  unfold popTwo at h
  split at h
  · rename_i a' c' r he
    simp only [Option.some.injEq, Prod.mk.injEq] at h
    obtain ⟨rfl, rfl, rfl⟩ := h
    have := congrArg List.reverse he
    simpa using this
  · simp at h

theorem popTwo_eq_none (q : List α) (h : popTwo q = none) : q.length ≤ 1 := by
  unfold popTwo at h
  split at h
  · simp at h
  · rename_i hne
    rcases hq : q.reverse with _ | ⟨a, _ | ⟨c, r⟩⟩
    · have := congrArg List.length hq; simp at this; simp [this]
    · have := congrArg List.length hq; simp at this; omega
    · exact absurd hq (hne a c r)

end Sys2Proof.Machine
end

