-- ==== Sys2Proof/Laws/Tree.lean ====
section
/-! SUPPORT. Huffman trees in the arena: what the merging loop of BUILD leaves (R152 to R157) and what the
walk of EXTRACT reads (R170, R171). -/

namespace Sys2Proof.Machine

/-! ### Trees -/

theorem HuffTree.symbols_pos (t : HuffTree) : 0 < t.symbols.length := by
  induction t with
  | leaf b w => simp [HuffTree.symbols]
  | node l r hl hr => simp only [HuffTree.symbols, List.length_append]; omega

/-- A binary tree is less deep than it has leaves (R7, R174). -/
theorem HuffTree.height_lt (t : HuffTree) : t.height < t.symbols.length := by
  induction t with
  | leaf b w => simp [HuffTree.symbols, HuffTree.height]
  | node l r hl hr =>
    have := l.symbols_pos
    have := r.symbols_pos
    simp only [HuffTree.symbols, HuffTree.height, List.length_append]
    omega

@[simp] theorem HuffTree.map_fst_depths (t : HuffTree) (d : Nat) :
    (t.depths d).map Prod.fst = t.symbols := by
  induction t generalizing d with
  | leaf b w => rfl
  | node l r hl hr => simp [HuffTree.depths, HuffTree.symbols, hl, hr]

theorem HuffTree.depth_le (t : HuffTree) (d : Nat) (p : Byte × Nat) (h : p ∈ t.depths d) :
    d ≤ p.2 ∧ p.2 ≤ d + t.height := by
  induction t generalizing d with
  | leaf b w =>
    simp only [HuffTree.depths, List.mem_singleton] at h
    subst h
    simp [HuffTree.height]
  | node l r hl hr =>
    simp only [HuffTree.depths, List.mem_append] at h
    simp only [HuffTree.height]
    rcases h with h | h
    · have := hl _ h; omega
    · have := hr _ h; omega

/-- Kraft's equality for a full binary tree, scaled (R174). -/
theorem HuffTree.kraft (t : HuffTree) (d : Nat) (h : d + t.height ≤ 255) :
    ((t.depths d).map fun p => 2 ^ (255 - p.2)).sum = 2 ^ (255 - d) := by
  induction t generalizing d with
  | leaf b w => simp [HuffTree.depths]
  | node l r hl hr =>
    simp only [HuffTree.height] at h
    simp only [HuffTree.depths, List.map_append, List.sum_append]
    rw [hl (d + 1) (by omega), hr (d + 1) (by omega), ← two_mul, ← pow_succ']
    congr 1
    omega

/-! ### The arena -/

/-- `Represents`, with every index of the tree below a bound. -/
def Below (nodes : Arena) (bound : Nat) : Nat → HuffTree → Prop
  | n, .leaf b w =>
    n < bound ∧ ∃ nd, nodes[n]? = some nd ∧ nd.valid = true ∧ nd.isLeaf = true ∧ nd.sym = b ∧
      nd.weight.toNat = w
  | n, .node l r =>
    n < bound ∧ ∃ nd, nodes[n]? = some nd ∧ nd.valid = true ∧ nd.isLeaf = false ∧
      nd.weight.toNat = l.weight + r.weight ∧
      Below nodes bound nd.left.toNat l ∧ Below nodes bound nd.right.toNat r

theorem Below.represents {nodes : Arena} {bound n : Nat} {t : HuffTree}
    (h : Below nodes bound n t) : Represents nodes n t := by
  induction t generalizing n with
  | leaf b w => exact h.2
  | node l r hl hr =>
    obtain ⟨-, nd, h1, h2, h3, h4, h5, h6⟩ := h
    exact ⟨nd, h1, h2, h3, h4, hl h5, hr h6⟩

theorem Below.lt {nodes : Arena} {bound n : Nat} {t : HuffTree} (h : Below nodes bound n t) :
    n < bound := by
  cases t <;> exact h.1

/-- The root's record carries the tree's weight. -/
theorem Below.weightOf {nodes : Arena} {bound n : Nat} {t : HuffTree}
    (h : Below nodes bound n t) : (weightOf nodes n).toNat = t.weight := by
  cases t with
  | leaf b w =>
    obtain ⟨-, nd, h1, -, -, -, h2⟩ := h
    simpa [Sys2Proof.Machine.weightOf, h1, HuffTree.weight] using h2
  | node l r =>
    obtain ⟨-, nd, h1, -, -, h2, -⟩ := h
    simpa [Sys2Proof.Machine.weightOf, h1, HuffTree.weight] using h2

/-- A tree depends only on the records below its bound. -/
theorem Below.congr {nodes nodes' : Arena} {bound bound' n : Nat} {t : HuffTree}
    (h : Below nodes bound n t) (hb : bound ≤ bound')
    (he : ∀ i < bound, nodes'[i]? = nodes[i]?) : Below nodes' bound' n t := by
  induction t generalizing n with
  | leaf b w =>
    obtain ⟨h0, nd, h1, h2⟩ := h
    exact ⟨by omega, nd, by rw [he n h0, h1], h2⟩
  | node l r hl hr =>
    obtain ⟨h0, nd, h1, h2, h3, h4, h5, h6⟩ := h
    exact ⟨by omega, nd, by rw [he n h0, h1], h2, h3, h4, hl h5, hr h6⟩

theorem mergeArena_getElem? (nodes : Arena) (j a c i : Nat) :
    (mergeArena nodes j a c)[i]? =
      if 256 + j = i ∧ i < 511 then some (mergedNode nodes a c) else nodes[i]? := by
  rw [mergeArena, Vector.getElem?_setIfInBounds]
  by_cases h : 256 + j = i
  · subst h
    by_cases h' : 256 + j < 511
    · simp [h']
    · simp [h']
  · simp [h]

/-- The merging loop of R150 on the trees themselves, without the arena. -/
def mergeForest : Nat → List HuffTree → List HuffTree
  | 0, q => q
  | fuel + 1, q =>
    match popTwo q with
    | none => q
    | some (a, c, rest) => mergeForest fuel (reinsert HuffTree.weight (.node a c) rest)

theorem mergeForest_single (fuel : Nat) (t : HuffTree) : mergeForest fuel [t] = [t] := by
  cases fuel <;> rfl

theorem mergeForest_append (fuel : Nat) (q : List HuffTree) (c a : HuffTree) :
    mergeForest (fuel + 1) (q ++ [c, a]) =
      mergeForest fuel (reinsert HuffTree.weight (.node a c) q) := by
  rw [mergeForest, popTwo_append]

/-- The merging loop makes one tree of a forest: its leaves are the forest's, its weight the sum, and the
records outside the new ones stay (R152, R156, R157). -/
theorem mergeLoop_spec (fuel j : Nat) (nodes : Arena) (q : List Nat) (T : Nat → HuffTree)
    (hq : q ≠ []) (hf : q.length ≤ fuel + 1) (hj : j + q.length ≤ 256)
    (hB : ∀ i ∈ q, Below nodes (256 + j) i (T i))
    (hw : (q.map fun i => (T i).weight).sum < 2 ^ 32) :
    ∃ nodes' root t, mergeLoop fuel j nodes q = (nodes', [root]) ∧
      Below nodes' (256 + j + (q.length - 1)) root t ∧
      t.symbols.Perm (q.flatMap fun i => (T i).symbols) ∧
      t.weight = (q.map fun i => (T i).weight).sum ∧
      (∀ i, i < 256 + j ∨ 256 + j + (q.length - 1) ≤ i → nodes'[i]? = nodes[i]?) ∧
      mergeForest fuel (q.map T) = [t] := by
  induction fuel generalizing j nodes q T with
  | zero =>
    obtain ⟨x, rfl⟩ : ∃ x, q = [x] := List.length_eq_one_iff.1 (by
      have := List.length_pos_iff.2 hq
      omega)
    exact ⟨nodes, x, T x, rfl, by simpa using hB x (by simp), by simp, by simp, fun _ _ => rfl,
      mergeForest_single _ _⟩
  | succ fuel ih =>
    rw [mergeLoop]
    cases hp : popTwo q with
    | none =>
      obtain ⟨x, rfl⟩ : ∃ x, q = [x] := List.length_eq_one_iff.1 (by
        have := List.length_pos_iff.2 hq
        have := popTwo_eq_none q hp
        omega)
      exact ⟨nodes, x, T x, rfl, by simpa using hB x (by simp), by simp, by simp, fun _ _ => rfl,
      mergeForest_single _ _⟩
    | some acr =>
      obtain ⟨a, c, rest⟩ := acr
      have hqe := popTwo_eq_some q rest a c hp
      subst hqe
      have ha := hB a (by simp)
      have hc := hB c (by simp)
      simp only [List.length_append, List.length_cons, List.length_nil] at hf hj
      simp only [List.map_append, List.map_cons, List.map_nil, List.sum_append, List.sum_cons,
        List.sum_nil] at hw
      have hwa := ha.weightOf
      have hwc := hc.weightOf
      have halt := ha.lt
      have hclt := hc.lt
      have hnew : (mergeArena nodes j a c)[256 + j]? = some (mergedNode nodes a c) := by
        rw [mergeArena_getElem?, if_pos ⟨rfl, by omega⟩]
      have hold : ∀ i, i ≠ 256 + j → (mergeArena nodes j a c)[i]? = nodes[i]? := fun i hi => by
        rw [mergeArena_getElem?, if_neg fun h => hi h.1.symm]
      have hkeep : ∀ i < 256 + j, (mergeArena nodes j a c)[i]? = nodes[i]? :=
        fun i hi => hold i (by omega)
      let T' : Nat → HuffTree := Function.update T (256 + j) (.node (T a) (T c))
      have hT' : ∀ i ∈ rest, T' i = T i := fun i hi =>
        Function.update_of_ne (by have := (hB i (by simp [hi])).lt; omega) _ _
      have hTn : T' (256 + j) = .node (T a) (T c) := Function.update_self ..
      let key : Nat → Nat := fun n => (weightOf (mergeArena nodes j a c) n).toNat
      have hperm := reinsert_perm key (256 + j) rest
      have hlen : (reinsert key (256 + j) rest).length = rest.length + 1 := length_reinsert ..
      have hmapw : ((reinsert key (256 + j) rest).map fun i => (T' i).weight).sum =
          (rest.map fun i => (T i).weight).sum + ((T c).weight + (T a).weight) := by
        rw [(hperm.map _).sum_eq, List.map_cons, List.sum_cons, hTn,
          List.map_congr_left fun i hi => by rw [hT' i hi]]
        simp only [HuffTree.weight]
        omega
      obtain ⟨nodes', root, t, h1, h2, h3, h4, h5, h6⟩ :=
        ih (j + 1) (mergeArena nodes j a c) (reinsert key (256 + j) rest) T'
          (by rw [← List.length_pos_iff, hlen]; omega) (by omega) (by omega)
          (by
            intro i hi
            rcases List.mem_cons.1 (hperm.mem_iff.1 hi) with rfl | hi
            · rw [hTn]
              refine ⟨by omega, _, hnew, rfl, rfl, ?_, ?_, ?_⟩
              · simp only [mergedNode, BitVec.toNat_add]
                omega
              · have : (mergedNode nodes a c).left.toNat = a := by
                  simp [mergedNode]; omega
                rw [this]
                exact ha.congr (by omega) hkeep
              · have : (mergedNode nodes a c).right.toNat = c := by
                  simp [mergedNode]; omega
                rw [this]
                exact hc.congr (by omega) hkeep
            · rw [hT' i hi]
              exact (hB i (by simp [hi])).congr (by omega) hkeep)
          (by rw [hmapw]; omega)
      rw [hlen] at h2 h5
      refine ⟨nodes', root, t, h1, ?_, ?_, ?_, ?_, ?_⟩
      · simp only [List.length_append, List.length_cons, List.length_nil]
        convert h2 using 1
        omega
      · refine h3.trans ((hperm.flatMap_right _).trans ?_)
        rw [List.flatMap_cons, hTn, List.flatMap_congr fun i hi => by rw [hT' i hi]]
        simp only [HuffTree.symbols, List.flatMap_append, List.flatMap_cons, List.flatMap_nil,
          List.append_nil]
        refine List.perm_append_comm.trans ?_
        exact List.perm_append_comm.append_left _
      · rw [h4, hmapw]
        simp
      · intro i hi
        simp only [List.length_append, List.length_cons, List.length_nil] at hi
        rw [h5 i (by omega)]
        exact hold i (by omega)
      · have hmap := reinsert_map T' key HuffTree.weight (256 + j) rest fun y hy => by
          rcases List.mem_cons.1 hy with rfl | hy
          · simp only [hTn, HuffTree.weight, key, Sys2Proof.Machine.weightOf, hnew,
              Option.getD_some, mergedNode, BitVec.toNat_add]
            change _ = ((Sys2Proof.Machine.weightOf nodes a).toNat +
              (Sys2Proof.Machine.weightOf nodes c).toNat) % 2 ^ 32
            omega
          · rw [hT' y hy]
            have hy' := ((hB y (by simp [hy])).congr (le_refl _) hkeep).weightOf
            exact hy'.symm
        rw [hmap, hTn, List.map_congr_left fun i hi => hT' i hi] at h6
        rw [← h6, List.map_append, List.map_cons, List.map_cons, List.map_nil,
          mergeForest_append]

/-- The merging loop step by step (R150, R152, R153, R156): `Q k` is the priority sequence before the
`k`-th merge; its tail becomes LEFT and the element before it RIGHT of the new record, which is reinserted
by weight; the last sequence is the root alone. Weights are read in the final arena. -/
theorem mergeLoop_trace (fuel j : Nat) (nodes : Arena) (q : List Nat) (hq : q ≠ [])
    (hf : q.length ≤ fuel + 1) (hj : j + q.length ≤ 256) (hB : ∀ i ∈ q, i < 256 + j) :
    ∃ nodes' root, ∃ Q : Nat → List Nat, mergeLoop fuel j nodes q = (nodes', [root]) ∧
      (∀ i, i < 256 + j → nodes'[i]? = nodes[i]?) ∧ Q 0 = q ∧
      (∀ k, k < q.length - 1 → ∃ rest a c, a < 512 ∧ c < 512 ∧ Q k = rest ++ [c, a] ∧
        nodes'[256 + (j + k)]? = some (mergedNode nodes' a c) ∧
        Q (k + 1) = reinsert (fun n => (weightOf nodes' n).toNat) (256 + (j + k)) rest) ∧
      Q (q.length - 1) = [root] := by
  induction fuel generalizing j nodes q with
  | zero =>
    obtain ⟨x, rfl⟩ : ∃ x, q = [x] := List.length_eq_one_iff.1 (by
      have := List.length_pos_iff.2 hq
      omega)
    exact ⟨nodes, x, fun _ => [x], rfl, fun _ _ => rfl, rfl, by simp, rfl⟩
  | succ fuel ih =>
    rw [mergeLoop]
    cases hp : popTwo q with
    | none =>
      obtain ⟨x, rfl⟩ : ∃ x, q = [x] := List.length_eq_one_iff.1 (by
        have := List.length_pos_iff.2 hq
        have := popTwo_eq_none q hp
        omega)
      exact ⟨nodes, x, fun _ => [x], rfl, fun _ _ => rfl, rfl, by simp, rfl⟩
    | some acr =>
      obtain ⟨a, c, rest⟩ := acr
      have hqe := popTwo_eq_some q rest a c hp
      subst hqe
      simp only [List.length_append, List.length_cons, List.length_nil] at hf hj
      have ha := hB a (by simp)
      have hc := hB c (by simp)
      let key : Nat → Nat := fun n => (weightOf (mergeArena nodes j a c) n).toNat
      have hperm := reinsert_perm key (256 + j) rest
      have hlen : (reinsert key (256 + j) rest).length = rest.length + 1 := length_reinsert ..
      obtain ⟨nodes', root, Q, h1, h2, h3, h4, h5⟩ :=
        ih (j + 1) (mergeArena nodes j a c) (reinsert key (256 + j) rest)
          (by rw [← List.length_pos_iff, hlen]; omega) (by omega) (by omega)
          (by
            intro i hi
            rcases List.mem_cons.1 (hperm.mem_iff.1 hi) with rfl | hi
            · omega
            · have := hB i (by simp [hi]); omega)
      rw [hlen] at h4 h5
      have hkeep : ∀ i, i < 256 + j → nodes'[i]? = nodes[i]? := fun i hi => by
        rw [h2 i (by omega), mergeArena_getElem?, if_neg fun h => by omega]
      have hw : ∀ i, i < 256 + j → weightOf nodes' i = weightOf nodes i := fun i hi => by
        rw [weightOf, weightOf, hkeep i hi]
      have hnew : nodes'[256 + j]? = some (mergedNode nodes a c) := by
        rw [h2 _ (by omega), mergeArena_getElem?, if_pos ⟨rfl, by omega⟩]
      refine ⟨nodes', root, fun k => Nat.casesOn k (rest ++ [c, a]) Q, h1, hkeep, rfl, ?_, ?_⟩
      · intro k hk
        simp only [List.length_append, List.length_cons, List.length_nil] at hk
        cases k with
        | zero =>
          refine ⟨rest, a, c, by omega, by omega, rfl, ?_, ?_⟩
          · rw [Nat.add_zero, hnew, mergedNode, mergedNode, hw a ha, hw c hc]
          · refine h3.trans ?_
            refine reinsert_congr _ _ _ _ fun y hy => ?_
            have hy' : y < 256 + (j + 1) := by
              rcases List.mem_cons.1 hy with rfl | hy
              · omega
              · have := hB y (by simp [hy]); omega
            simp only [key, weightOf, h2 y hy']
        | succ k =>
          obtain ⟨rest', a', c', h⟩ := h4 k (by omega)
          refine ⟨rest', a', c', ?_⟩
          rw [show j + (k + 1) = j + 1 + k by omega]
          exact h
      · simp only [List.length_append, List.length_cons, List.length_nil]
        exact h5

/-! ### The walk -/

/-- Write each symbol's depth into the table, in the order of the walk. -/
def putDepths (len : Table Byte) (ps : List (Byte × Nat)) : Table Byte :=
  ps.foldl (fun t p => t.put p.1 (BitVec.ofNat 8 p.2)) len

/-- EXTRACT's walk over a stored tree writes each leaf's depth (R170, R171). -/
theorem walk_represents {nodes : Arena} {n : Nat} {t : HuffTree} (h : Represents nodes n t)
    (fuel d : Nat) (len : Table Byte) (hf : t.height < fuel) :
    walk nodes fuel n d len = some (putDepths len (t.depths d)) := by
  induction t generalizing n fuel d len with
  | leaf b w =>
    obtain ⟨nd, h1, -, h2, h3, -⟩ := h
    cases fuel with
    | zero => omega
    | succ fuel => simp [walk, h1, h2, h3, putDepths, HuffTree.depths]
  | node l r hl hr =>
    obtain ⟨nd, h1, -, h2, -, h3, h4⟩ := h
    simp only [HuffTree.height] at hf
    cases fuel with
    | zero => omega
    | succ fuel =>
      simp only [walk, h1, h2]
      rw [hl h3 fuel (d + 1) len (by omega)]
      simp only [hr h4 fuel (d + 1) _ (by omega)]
      simp [putDepths, HuffTree.depths, List.foldl_append]

theorem putDepths_notMem (ps : List (Byte × Nat)) (len : Table Byte) (b : Byte)
    (h : b ∉ ps.map Prod.fst) : (putDepths len ps).look b = len.look b := by
  induction ps generalizing len with
  | nil => rfl
  | cons p ps ih =>
    simp only [List.map_cons, List.mem_cons, not_or] at h
    rw [putDepths, List.foldl_cons]
    exact (ih _ h.2).trans (Table.look_put_other _ _ _ _ h.1)

theorem putDepths_mem (ps : List (Byte × Nat)) (len : Table Byte) (p : Byte × Nat)
    (hn : (ps.map Prod.fst).Nodup) (h : p ∈ ps) :
    (putDepths len ps).look p.1 = BitVec.ofNat 8 p.2 := by
  induction ps generalizing len with
  | nil => simp at h
  | cons r ps ih =>
    simp only [List.map_cons, List.nodup_cons] at hn
    rw [putDepths, List.foldl_cons]
    rcases List.mem_cons.1 h with rfl | h
    · exact (putDepths_notMem ps _ _ hn.1).trans (Table.look_put_same ..)
    · exact ih _ hn.2 h

end Sys2Proof.Machine
end

