-- ==== Sys2Proof/Laws/Optimal.lean ====
section
/-! SUPPORT. The greedy merge is no costlier than any assignment of depths that satisfies Kraft's
inequality, so a code for at most 2^m symbols costs at most m bits a symbol (the bound behind R248). -/

namespace Sys2Proof.Machine

/-! ### Depth assignments -/

/-- The cost of (weight, depth) pairs. -/
def pairCost (ps : List (Nat × Nat)) : Nat := (ps.map fun p => p.1 * p.2).sum

/-- Kraft's sum of (weight, depth) pairs, scaled by `2^m`. -/
def pairKraft (m : Nat) (ps : List (Nat × Nat)) : Nat := (ps.map fun p => 2 ^ (m - p.2)).sum

@[simp] theorem pairCost_cons (p : Nat × Nat) (ps : List (Nat × Nat)) :
    pairCost (p :: ps) = p.1 * p.2 + pairCost ps := by simp [pairCost]

@[simp] theorem pairKraft_cons (m : Nat) (p : Nat × Nat) (ps : List (Nat × Nat)) :
    pairKraft m (p :: ps) = 2 ^ (m - p.2) + pairKraft m ps := by simp [pairKraft]

theorem pairCost_perm {ps rs : List (Nat × Nat)} (h : ps.Perm rs) : pairCost ps = pairCost rs :=
  (h.map _).sum_eq

theorem pairKraft_perm {m : Nat} {ps rs : List (Nat × Nat)} (h : ps.Perm rs) :
    pairKraft m ps = pairKraft m rs := (h.map _).sum_eq

/-- Kraft's sum depends on the depths alone. -/
theorem pairKraft_snd_perm {m : Nat} {ps rs : List (Nat × Nat)}
    (h : (ps.map Prod.snd).Perm (rs.map Prod.snd)) : pairKraft m ps = pairKraft m rs := by
  have := (h.map fun d => 2 ^ (m - d)).sum_eq
  simpa [pairKraft, Function.comp_def] using this

/-- Pairs as deep as `m` at most whose Kraft sum is at most 1. -/
structure Fits (m : Nat) (ps : List (Nat × Nat)) : Prop where
  depth : ∀ p ∈ ps, p.2 ≤ m
  kraft : pairKraft m ps ≤ 2 ^ m

theorem Fits.perm {m : Nat} {ps rs : List (Nat × Nat)} (h : Fits m ps) (hp : ps.Perm rs) :
    Fits m rs :=
  ⟨fun p hm => h.depth p (hp.mem_iff.2 hm), by rw [← pairKraft_perm hp]; exact h.kraft⟩

/-- A nonempty list has a pair of greatest depth. -/
theorem exists_deepest (ps : List (Nat × Nat)) (h : ps ≠ []) :
    ∃ w d rest, ps.Perm ((w, d) :: rest) ∧ ∀ p ∈ rest, p.2 ≤ d := by
  induction ps with
  | nil => exact absurd rfl h
  | cons p ps ih =>
    rcases eq_or_ne ps [] with rfl | hne
    · exact ⟨p.1, p.2, [], .refl _, by simp⟩
    · obtain ⟨w, d, rest, hp, hd⟩ := ih hne
      rcases le_total p.2 d with hle | hle
      · refine ⟨w, d, p :: rest, (hp.cons p).trans (.swap ..), ?_⟩
        intro r hr
        rcases List.mem_cons.1 hr with rfl | hr
        · exact hle
        · exact hd r hr
      · refine ⟨p.1, p.2, (w, d) :: rest, hp.cons p, ?_⟩
        intro r hr
        rcases List.mem_cons.1 hr with rfl | hr
        · exact hle
        · exact (hd r hr).trans hle

/-- A Kraft sum of depths below `d` is a multiple of `2^(m + 1 - d)`. -/
theorem dvd_pairKraft (m d : Nat) (ps : List (Nat × Nat)) (hd : d ≤ m) (h : ∀ p ∈ ps, p.2 < d) :
    2 ^ (m - d + 1) ∣ pairKraft m ps := by
  induction ps with
  | nil => simp [pairKraft]
  | cons p ps ih =>
    rw [pairKraft_cons]
    refine Nat.dvd_add (pow_dvd_pow 2 ?_) (ih fun r hr => h r (by simp [hr]))
    have := h p (by simp)
    omega

/-- The only pair of greatest depth can be made one shallower. -/
theorem Fits.shorten {m w d : Nat} {rest : List (Nat × Nat)} (h : Fits m ((w, d) :: rest))
    (hpos : 0 < d) (hr : ∀ p ∈ rest, p.2 < d) : Fits m ((w, d - 1) :: rest) := by
  have hdm : d ≤ m := h.depth (w, d) (by simp)
  constructor
  · intro p hp
    rcases List.mem_cons.1 hp with rfl | hp
    · simp only; omega
    · exact h.depth p (by simp [hp])
  · have hk := h.kraft
    obtain ⟨k, hk'⟩ := dvd_pairKraft m d rest hdm hr
    simp only [pairKraft_cons, hk'] at hk ⊢
    have e1 : m - (d - 1) = m - d + 1 := by omega
    have e2 : 2 ^ m = 2 ^ (m - d + 1) * 2 ^ (d - 1) := by
      rw [← pow_add]; congr 1; omega
    rw [e2] at hk
    rw [e1, e2]
    have h0 := Nat.two_pow_pos (m - d)
    have hlt : 2 ^ (m - d + 1) * k < 2 ^ (m - d + 1) * 2 ^ (d - 1) :=
      lt_of_lt_of_le (Nat.lt_add_of_pos_left h0) hk
    have := Nat.lt_of_mul_lt_mul_left hlt
    calc 2 ^ (m - d + 1) + 2 ^ (m - d + 1) * k = 2 ^ (m - d + 1) * (k + 1) := by ring
      _ ≤ _ := Nat.mul_le_mul_left _ this

/-- At no greater cost, two pairs share the greatest depth, which is at least 1. -/
theorem Fits.two_deepest {m : Nat} (n : Nat) (ps : List (Nat × Nat)) (h : Fits m ps)
    (hlen : 2 ≤ ps.length) (hn : (ps.map Prod.snd).sum ≤ n) :
    ∃ w x d rest, Fits m ((w, d) :: (x, d) :: rest) ∧ 1 ≤ d ∧ (∀ p ∈ rest, p.2 ≤ d) ∧
      (w :: x :: rest.map Prod.fst).Perm (ps.map Prod.fst) ∧
      pairCost ((w, d) :: (x, d) :: rest) ≤ pairCost ps := by
  induction n generalizing ps with
  | zero =>
    exfalso
    obtain ⟨p, r, rest, rfl⟩ : ∃ p r rest, ps = p :: r :: rest := by
      match ps, hlen with
      | p :: r :: rest, _ => exact ⟨p, r, rest, rfl⟩
    simp only [List.map_cons, List.sum_cons, Nat.le_zero, Nat.add_eq_zero_iff] at hn
    have hk := h.kraft
    simp only [pairKraft_cons, hn.1, hn.2.1, Nat.sub_zero] at hk
    have := Nat.two_pow_pos m
    omega
  | succ n ih =>
    obtain ⟨w, d, rest, hp, hd⟩ := exists_deepest ps (by rintro rfl; simp at hlen)
    have hf := h.perm hp
    have hl : 1 ≤ rest.length := by have := hp.length_eq; simp only [List.length_cons] at this; omega
    by_cases hex : ∃ p ∈ rest, p.2 = d
    · obtain ⟨⟨x, e⟩, hx, rfl⟩ := hex
      obtain ⟨rest', hp'⟩ : ∃ rest', rest.Perm ((x, e) :: rest') :=
        ⟨rest.erase (x, e), List.perm_cons_erase hx⟩
      have hp2 := hp.trans (hp'.cons (w, e))
      have hf2 := h.perm hp2
      refine ⟨w, x, e, rest', hf2, ?_, fun p hm => hd p (hp'.mem_iff.2 (by simp [hm])), ?_, ?_⟩
      · by_contra h0
        obtain rfl : e = 0 := by omega
        have hk := hf2.kraft
        simp only [pairKraft_cons, Nat.sub_zero] at hk
        have := Nat.two_pow_pos m
        omega
      · simpa using (hp2.map Prod.fst).symm
      · exact (pairCost_perm hp2).ge
    · have hlt : ∀ p ∈ rest, p.2 < d := fun p hm => lt_of_le_of_ne (hd p hm) fun e => hex ⟨p, hm, e⟩
      have hpos : 0 < d := by
        obtain ⟨p, hm⟩ := List.exists_mem_of_length_pos hl
        exact (Nat.zero_le _).trans_lt (hlt p hm)
      have hs : (ps.map Prod.snd).sum = d + (rest.map Prod.snd).sum := by
        simpa using (hp.map Prod.snd).sum_eq
      obtain ⟨w', x', d', rest', h1, h2, h3, h4, h5⟩ :=
        ih ((w, d - 1) :: rest) (hf.shorten hpos hlt) (by simp only [List.length_cons]; omega)
          (by simp only [List.map_cons, List.sum_cons]; omega)
      refine ⟨w', x', d', rest', h1, h2, h3, h4.trans ?_, h5.trans ?_⟩
      · simpa using (hp.map Prod.fst).symm
      · rw [pairCost_perm hp]
        simp only [pairCost_cons]
        gcongr
        omega

/-- The least weight can be given to a pair of greatest depth at no greater cost. -/
theorem exchange {w d a : Nat} {rest : List (Nat × Nat)} (hd : ∀ p ∈ rest, p.2 ≤ d)
    (ha : a ∈ w :: rest.map Prod.fst) (hle : a ≤ w) :
    ∃ rest', (a :: rest'.map Prod.fst).Perm (w :: rest.map Prod.fst) ∧
      (rest'.map Prod.snd).Perm (rest.map Prod.snd) ∧
      a * d + pairCost rest' ≤ w * d + pairCost rest := by
  rcases List.mem_cons.1 ha with rfl | ha
  · exact ⟨rest, .refl _, .refl _, le_refl _⟩
  · obtain ⟨⟨a', e⟩, hm, rfl⟩ := List.mem_map.1 ha
    obtain ⟨r, hr⟩ : ∃ r, rest.Perm ((a', e) :: r) := ⟨rest.erase (a', e), List.perm_cons_erase hm⟩
    refine ⟨(w, e) :: r, ?_, ?_, ?_⟩
    · simpa using (List.Perm.swap w a' (r.map Prod.fst)).trans ((hr.map Prod.fst).symm.cons w)
    · simpa using (hr.map Prod.snd).symm
    · rw [pairCost_perm hr]
      simp only [pairCost_cons]
      have he := hd _ hm
      simp only at he hle
      obtain ⟨k, rfl⟩ := Nat.exists_eq_add_of_le he
      obtain ⟨l, rfl⟩ := Nat.exists_eq_add_of_le hle
      nlinarith [Nat.zero_le (l * k)]

/-- Merging the two least weights turns a fitting assignment into one for the merged weights whose cost is
less by their sum. -/
theorem Fits.merge {m a c : Nat} {ws : List Nat} {ps : List (Nat × Nat)} (h : Fits m ps)
    (hw : (ps.map Prod.fst).Perm (a :: c :: ws)) (hac : a ≤ c) (hc : ∀ x ∈ ws, c ≤ x) :
    ∃ rs, Fits m rs ∧ (rs.map Prod.fst).Perm ((a + c) :: ws) ∧
      (a + c) + pairCost rs ≤ pairCost ps := by
  have hlen : 2 ≤ ps.length := by have := hw.length_eq; simp at this; omega
  obtain ⟨w, x, d, rest, h1, h2, h3, h4, h5⟩ := h.two_deepest _ ps hlen le_rfl
  have hmin : ∀ y ∈ a :: c :: ws, a ≤ y := by
    intro y hy
    simp only [List.mem_cons] at hy
    rcases hy with rfl | rfl | hy
    · exact le_rfl
    · exact hac
    · exact hac.trans (hc y hy)
  have hperm := h4.trans hw
  -- the least weight `a` to the first of the two deepest pairs
  obtain ⟨r1, hp1, hs1, hc1⟩ := exchange (w := w) (d := d) (a := a) (rest := (x, d) :: rest)
    (by simpa using h3) (by simpa using hperm.mem_iff.2 (by simp)) (hmin w (hperm.mem_iff.1 (by simp)))
  -- one pair of depth `d` is left in `r1`
  obtain ⟨⟨y, e⟩, hy, he⟩ : ∃ p ∈ r1, p.2 = d := by
    have : d ∈ r1.map Prod.snd := hs1.mem_iff.2 (by simp)
    obtain ⟨p, hp, he⟩ := List.mem_map.1 this
    exact ⟨p, hp, he⟩
  simp only at he
  subst he
  obtain ⟨r2, hr2⟩ : ∃ r, r1.Perm ((y, e) :: r) := ⟨r1.erase (y, e), List.perm_cons_erase hy⟩
  have hs2 : (r2.map Prod.snd).Perm (rest.map Prod.snd) := by
    have := (hr2.map Prod.snd).symm.trans hs1
    simpa using this
  have hrest : (y :: r2.map Prod.fst).Perm (c :: ws) := by
    have e1 : (a :: y :: r2.map Prod.fst).Perm (a :: c :: ws) := by
      have := ((hr2.map Prod.fst).cons a).symm.trans hp1
      exact this.trans hperm
    exact e1.cons_inv
  -- the next weight `c` to that pair
  obtain ⟨r3, hp3, hs3, hc3⟩ := exchange (w := y) (d := e) (a := c) (rest := r2)
    (by
      intro p hp
      have : p.2 ∈ rest.map Prod.snd := hs2.mem_iff.1 (List.mem_map_of_mem hp)
      obtain ⟨q, hq, hqe⟩ := List.mem_map.1 this
      rw [← hqe]; exact h3 q hq)
    (hrest.mem_iff.2 (by simp))
    (by
      rcases List.mem_cons.1 (hrest.mem_iff.1 (List.mem_cons_self ..)) with rfl | hy'
      · exact le_rfl
      · exact hc y hy')
  have hdm : e ≤ m := h1.depth (w, e) (by simp)
  have hsn : (r3.map Prod.snd).Perm (rest.map Prod.snd) := hs3.trans hs2
  refine ⟨(a + c, e - 1) :: r3, ⟨?_, ?_⟩, ?_, ?_⟩
  · intro p hp
    rcases List.mem_cons.1 hp with rfl | hp
    · simp only; omega
    · have : p.2 ∈ rest.map Prod.snd := hsn.mem_iff.1 (List.mem_map_of_mem hp)
      obtain ⟨q, hq, hqe⟩ := List.mem_map.1 this
      rw [← hqe]; exact h1.depth q (by simp [hq])
  · have hk := h1.kraft
    simp only [pairKraft_cons] at hk ⊢
    rw [pairKraft_snd_perm hsn, show m - (e - 1) = m - e + 1 by omega, pow_succ]
    omega
  · have : (r3.map Prod.fst).Perm ws := (hp3.trans hrest).cons_inv
    simpa using this.cons (a + c)
  · have e1 : pairCost r1 = y * e + pairCost r2 := by rw [pairCost_perm hr2, pairCost_cons]
    simp only [pairCost_cons] at h5 hc1 ⊢
    obtain ⟨f, rfl⟩ : ∃ f, e = f + 1 := ⟨e - 1, by omega⟩
    simp only [Nat.add_sub_cancel]
    nlinarith

/-! ### The cost of a tree -/

/-- The sum of the weights of the internal nodes. -/
def HuffTree.cost : HuffTree → Nat
  | .leaf _ _ => 0
  | .node l r => l.cost + r.cost + (l.weight + r.weight)

/-- Each leaf's weight is the count of its byte. -/
def HuffTree.WeightedBy (f : Byte → Nat) : HuffTree → Prop
  | .leaf b w => w = f b
  | .node l r => l.WeightedBy f ∧ r.WeightedBy f

/-- The cost is the sum of weight times depth over the leaves. -/
theorem HuffTree.sum_depths (f : Byte → Nat) (t : HuffTree) (d : Nat) (h : t.WeightedBy f) :
    ((t.depths d).map fun p => f p.1 * p.2).sum = t.cost + d * t.weight := by
  induction t generalizing d with
  | leaf b w =>
    obtain rfl : w = f b := h
    simp [HuffTree.depths, HuffTree.cost, HuffTree.weight, Nat.mul_comm]
  | node l r hl hr =>
    simp only [HuffTree.depths, List.map_append, List.sum_append, hl (d + 1) h.1, hr (d + 1) h.2,
      HuffTree.cost, HuffTree.weight]
    ring

/-- Merging keeps the leaves' weights. -/
theorem mergeForest_weightedBy (f : Byte → Nat) (fuel : Nat) (q : List HuffTree)
    (h : ∀ t ∈ q, t.WeightedBy f) : ∀ t ∈ mergeForest fuel q, t.WeightedBy f := by
  induction fuel generalizing q with
  | zero => exact h
  | succ fuel ih =>
    rw [mergeForest]
    cases hp : popTwo q with
    | none => exact h
    | some acr =>
      obtain ⟨a, c, rest⟩ := acr
      obtain rfl := popTwo_eq_some q rest a c hp
      refine ih _ fun t ht => ?_
      rcases List.mem_cons.1 ((reinsert_perm _ _ _).mem_iff.1 ht) with rfl | ht
      · exact ⟨h a (by simp), h c (by simp)⟩
      · exact h t (by simp [ht])

/-- The greedy merge costs no more than any fitting assignment of depths. -/
theorem mergeForest_cost (m fuel : Nat) (q : List HuffTree) (ps : List (Nat × Nat)) (hq : q ≠ [])
    (hf : q.length ≤ fuel + 1) (hd : DescBy HuffTree.weight q) (h : Fits m ps)
    (hw : (ps.map Prod.fst).Perm (q.map HuffTree.weight)) :
    ∃ t, mergeForest fuel q = [t] ∧ t.cost ≤ (q.map HuffTree.cost).sum + pairCost ps := by
  induction fuel generalizing q ps with
  | zero =>
    obtain ⟨t, rfl⟩ : ∃ t, q = [t] := List.length_eq_one_iff.1 (by
      have := List.length_pos_iff.2 hq
      omega)
    exact ⟨t, rfl, by simp⟩
  | succ fuel ih =>
    rw [mergeForest]
    cases hp : popTwo q with
    | none =>
      obtain ⟨t, rfl⟩ : ∃ t, q = [t] := List.length_eq_one_iff.1 (by
        have := List.length_pos_iff.2 hq
        have := popTwo_eq_none q hp
        omega)
      exact ⟨t, rfl, by simp⟩
    | some acr =>
      obtain ⟨a, c, rest⟩ := acr
      obtain rfl := popTwo_eq_some q rest a c hp
      obtain ⟨h1, h2, h3⟩ := List.pairwise_append.1 hd
      have hac : a.weight ≤ c.weight := (List.pairwise_cons.1 h2).1 a (by simp)
      have hw' : (ps.map Prod.fst).Perm (a.weight :: c.weight :: rest.map HuffTree.weight) := by
        refine hw.trans ?_
        simp only [List.map_append, List.map_cons, List.map_nil]
        exact List.perm_append_comm.trans (List.Perm.swap ..)
      obtain ⟨rs, hrs, hrw, hrc⟩ := h.merge hw' hac fun x hx => by
        obtain ⟨t, ht, rfl⟩ := List.mem_map.1 hx
        exact h3 t ht c (by simp)
      have hperm := reinsert_perm HuffTree.weight (.node a c) rest
      obtain ⟨t, ht, hc⟩ := ih (reinsert HuffTree.weight (.node a c) rest) rs
        (by rw [← List.length_pos_iff, length_reinsert]; omega)
        (by rw [length_reinsert]; simp only [List.length_append, List.length_cons,
              List.length_nil] at hf; omega)
        (reinsert_desc _ _ _ h1) hrs
        (hrw.trans (by simpa [HuffTree.weight] using (hperm.map HuffTree.weight).symm))
      refine ⟨t, ht, hc.trans ?_⟩
      rw [(hperm.map _).sum_eq]
      simp only [List.map_cons, List.sum_cons, List.map_append, List.sum_append, List.map_nil,
        List.sum_nil, HuffTree.cost]
      omega

/-- A forest of at most `2^m` leaves, descending by weight, merges into a tree that costs at most `m` times
its weight. -/
theorem mergeForest_cost_le (m fuel : Nat) (q : List HuffTree) (hq : q ≠ [])
    (hf : q.length ≤ fuel + 1) (hd : DescBy HuffTree.weight q) (hl : q.length ≤ 2 ^ m) :
    ∃ t, mergeForest fuel q = [t] ∧
      t.cost ≤ (q.map HuffTree.cost).sum + m * (q.map HuffTree.weight).sum := by
  obtain ⟨t, ht, hc⟩ := mergeForest_cost m fuel q (q.map fun t => (t.weight, m)) hq hf hd
    ⟨by simp, by simpa [pairKraft, Function.comp_def] using hl⟩ (by simp [Function.comp_def])
  refine ⟨t, ht, hc.trans (le_of_eq ?_)⟩
  simp [pairCost, Function.comp_def, Nat.mul_comm _ m, List.sum_map_mul_left]

/-! ### The bit cost of an input -/

/-- The bit cost of an input, byte value by byte value (R224). -/
theorem bitCost_eq_sum_count (lengths : Byte → Nat) (input ss : List Byte) (hn : ss.Nodup)
    (h : ∀ b ∈ input, b ∈ ss) :
    bitCost lengths input = (ss.map fun b => input.count b * lengths b).sum := by
  induction input with
  | nil => simp [bitCost]
  | cons x xs ih =>
    have hs : (ss.map fun b => if b = x then lengths b else 0).sum = lengths x := by
      have hx := h x (by simp)
      clear h ih
      induction ss with
      | nil => simp at hx
      | cons y ss ih =>
        obtain ⟨hy, hn⟩ := List.nodup_cons.1 hn
        rw [List.map_cons, List.sum_cons]
        by_cases e : y = x
        · subst e
          rw [if_pos rfl, List.map_congr_left (g := fun _ => 0) fun z hz => if_neg
            (show ¬ z = y from fun e => hy (e ▸ hz))]
          simp
        · rw [if_neg e, ih hn (by simpa [Ne.symm e] using hx), Nat.zero_add]
    have hc : ∀ b, (x :: xs).count b * lengths b =
        (if b = x then lengths b else 0) + xs.count b * lengths b := fun b => by
      rw [List.count_cons]
      by_cases e : b = x
      · subst e; simp; ring
      · simp [e, Ne.symm e]
    rw [List.map_congr_left fun b _ => hc b, List.sum_map_add, hs,
      ← ih fun b hb => h b (by simp [hb])]
    simp [bitCost]

/-- The bit cost of an input under the depths of a tree that counts it is the tree's cost. -/
theorem HuffTree.bitCost_eq_cost (t : HuffTree) (input : List Byte) (lengths : Byte → Nat)
    (hw : t.WeightedBy fun b => input.count b) (hn : t.symbols.Nodup)
    (h : ∀ b ∈ input, b ∈ t.symbols) (hl : ∀ p ∈ t.depths 0, lengths p.1 = p.2) :
    bitCost lengths input = t.cost := by
  rw [bitCost_eq_sum_count lengths input t.symbols hn h, ← t.map_fst_depths 0, List.map_map]
  have := t.sum_depths _ 0 hw
  rw [Nat.zero_mul, Nat.add_zero] at this
  rw [← this]
  congr 1
  exact List.map_congr_left fun p hp => by simp only [Function.comp_apply, hl p hp]

end Sys2Proof.Machine
end

