-- ==== Sys2Proof/Laws/Packing.lean ====
section
/-! SUPPORT. What PACK's slicing and its loop over the input leave, in terms of the whole bit stream
(R106, R220 to R225). -/

namespace Sys2Proof.Machine

/-- Byte `k` of a bit string cut into whole bytes (R222). -/
def sliceByte (s : BitString) (k : Nat) : Byte := BitVec.ofNat 8 (val ((s.drop (8 * k)).take 8))

/-- The first `n` bytes of a bit string. -/
def sliceBytes (s : BitString) (n : Nat) : List Byte := (List.range n).map (sliceByte s)

@[simp] theorem length_sliceBytes (s : BitString) (n : Nat) : (sliceBytes s n).length = n := by
  simp [sliceBytes]

theorem sliceBytes_succ (s : BitString) (n : Nat) :
    sliceBytes s (n + 1) = sliceByte s 0 :: sliceBytes (s.drop 8) n := by
  simp only [sliceBytes, List.range_succ_eq_map, List.map_cons, List.map_map]
  congr 1
  refine List.map_congr_left fun k _ => ?_
  simp only [Function.comp_apply, sliceByte, List.drop_drop]
  congr 4
  omega

theorem sliceByte_append (s t : BitString) (k : Nat) (h : 8 * k + 8 ≤ s.length) :
    sliceByte (s ++ t) k = sliceByte s k := by
  simp only [sliceByte]
  rw [List.drop_append_of_le_length (by omega), List.take_append_of_le_length (by simp; omega)]

theorem sliceByte_drop (s : BitString) (m k : Nat) :
    sliceByte (s.drop (8 * m)) k = sliceByte s (m + k) := by
  simp only [sliceByte, List.drop_drop]
  congr 4
  ring

theorem sliceBytes_add (s : BitString) (m n : Nat) :
    sliceBytes s (m + n) = sliceBytes s m ++ sliceBytes (s.drop (8 * m)) n := by
  simp only [sliceBytes, List.range_add, List.map_append, List.map_map]
  congr 1
  exact List.map_congr_left fun k _ => (sliceByte_drop s m k).symm

theorem sliceBytes_append (s t : BitString) (n : Nat) (h : 8 * n ≤ s.length) :
    sliceBytes (s ++ t) n = sliceBytes s n := by
  refine List.map_congr_left fun k hk => sliceByte_append s t k ?_
  rw [List.mem_range] at hk
  omega

theorem Memory.writeRange_append (xs ys : List Byte) (m : Memory) (o : Nat) :
    m.writeRange o (xs ++ ys) = (m.writeRange o xs).writeRange (o + xs.length) ys := by
  induction xs generalizing m o with
  | nil => rfl
  | cons x xs ih =>
    simp only [List.cons_append, Memory.writeRange, List.length_cons]
    rw [ih]
    congr 1
    omega

/-- Slicing when every whole byte has room (R222). -/
theorem drain_ok (hdr size fuel : Nat) (p : Packer) (hf : p.bits.length / 8 ≤ fuel)
    (hs : hdr + p.count + p.bits.length / 8 ≤ size) :
    drain hdr size fuel p = .ok ⟨p.bits.drop (8 * (p.bits.length / 8)),
      p.count + p.bits.length / 8,
      p.obuf.writeRange (hdr + p.count) (sliceBytes p.bits (p.bits.length / 8))⟩ := by
  induction fuel generalizing p with
  | zero =>
    have : p.bits.length / 8 = 0 := by omega
    simp [drain, this, sliceBytes, Memory.writeRange]
  | succ fuel ih =>
    rw [drain]
    by_cases h8 : 8 ≤ p.bits.length
    · have hn : p.bits.length / 8 = (p.bits.length - 8) / 8 + 1 := by omega
      rw [if_pos h8, emit, if_neg (by omega)]
      simp only
      have hl : (p.bits.drop 8).length = p.bits.length - 8 := by simp
      rw [ih _ (by simp only [hl]; omega) (by simp only [hl]; omega)]
      simp only [hl, hn, List.drop_drop, sliceBytes_succ, Memory.writeRange]
      congr 2
      · congr 1; omega
      · omega
    · rw [if_neg h8]
      have : p.bits.length / 8 = 0 := by omega
      simp [this, sliceBytes, Memory.writeRange]

/-- Slicing when some whole byte has no room: the bytes that have one are written (R225). -/
theorem drain_overflow (hdr size fuel : Nat) (p : Packer) (hf : p.bits.length / 8 ≤ fuel)
    (h0 : hdr + p.count ≤ size) (hs : size < hdr + p.count + p.bits.length / 8) :
    drain hdr size fuel p = .raised .outOverflow (BitVec.ofNat 32 size)
      (p.obuf.writeRange (hdr + p.count) (sliceBytes p.bits (size - (hdr + p.count)))) := by
  induction fuel generalizing p with
  | zero => omega
  | succ fuel ih =>
    have h8 : 8 ≤ p.bits.length := by omega
    rw [drain, if_pos h8, emit]
    by_cases he : size ≤ hdr + p.count
    · have : size = hdr + p.count := by omega
      rw [if_pos he]
      simp [this, sliceBytes, Memory.writeRange]
    · rw [if_neg he]
      simp only
      have hl : (p.bits.drop 8).length = p.bits.length - 8 := by simp
      rw [ih _ (by simp only [hl]; omega) (by simp only; omega) (by simp only [hl]; omega)]
      have hn : size - (hdr + p.count) = (size - (hdr + (p.count + 1))) + 1 := by omega
      simp only [hn, sliceBytes_succ, Memory.writeRange]
      rfl

/-! ### The loop -/

/-- PACK's local state after the bits `s`, from OBUF as `m` (R222). -/
def Packer.after (hdr : Nat) (m : Memory) (s : BitString) : Packer :=
  ⟨s.drop (8 * (s.length / 8)), s.length / 8, m.writeRange hdr (sliceBytes s (s.length / 8))⟩

theorem packByte_ok (st : State) (m : Memory) (i : Nat) (b : Byte) (s : BitString)
    (hb : st.clen.look b ≠ 0)
    (hs : st.hdrLen.toNat + (s ++ st.codeBits b).length / 8 ≤ st.capObufSize.toNat) :
    st.packByte i b (.after st.hdrLen.toNat m s) =
      .ok (.after st.hdrLen.toNat m (s ++ st.codeBits b)) := by
  rw [State.packByte, if_neg hb]
  simp only [Packer.after]
  set c := st.codeBits b with hc
  have hd : 8 * (s.length / 8) ≤ s.length := by omega
  have hl : (s.drop (8 * (s.length / 8)) ++ c).length = s.length - 8 * (s.length / 8) + c.length := by
    simp
  have hl' : (s ++ c).length = s.length + c.length := by simp
  rw [hl'] at hs ⊢
  rw [drain_ok _ _ _ _ (by simp only [hl]; omega) (by simp only [hl]; omega)]
  simp only [hl]
  have hn : (s.length + c.length) / 8 =
      s.length / 8 + (s.length - 8 * (s.length / 8) + c.length) / 8 := by omega
  rw [hn, sliceBytes_add, Memory.writeRange_append, sliceBytes_append _ _ _ hd,
    List.drop_append_of_le_length hd, length_sliceBytes, Nat.mul_add, ← List.drop_drop,
    List.drop_append_of_le_length hd]

theorem packByte_overflow (st : State) (m : Memory) (i : Nat) (b : Byte) (s : BitString)
    (hb : st.clen.look b ≠ 0)
    (h0 : st.hdrLen.toNat + s.length / 8 ≤ st.capObufSize.toNat)
    (hs : st.capObufSize.toNat < st.hdrLen.toNat + (s ++ st.codeBits b).length / 8) :
    st.packByte i b (.after st.hdrLen.toNat m s) =
      .raised .outOverflow (BitVec.ofNat 32 st.capObufSize.toNat)
        (m.writeRange st.hdrLen.toNat
          (sliceBytes (s ++ st.codeBits b) (st.capObufSize.toNat - st.hdrLen.toNat))) := by
  rw [State.packByte, if_neg hb]
  simp only [Packer.after]
  set c := st.codeBits b with hc
  have hd : 8 * (s.length / 8) ≤ s.length := by omega
  have hl : (s.drop (8 * (s.length / 8)) ++ c).length = s.length - 8 * (s.length / 8) + c.length := by
    simp
  have hl' : (s ++ c).length = s.length + c.length := by simp
  rw [hl'] at hs
  rw [drain_overflow _ _ _ _ (by simp only [hl]; omega) (by simp only; omega)
    (by simp only [hl]; omega)]
  have hn : st.capObufSize.toNat - st.hdrLen.toNat =
      s.length / 8 + (st.capObufSize.toNat - (st.hdrLen.toNat + s.length / 8)) := by omega
  rw [hn, sliceBytes_add, Memory.writeRange_append, sliceBytes_append _ _ _ hd,
    List.drop_append_of_le_length hd, length_sliceBytes]

/-- The loop, when every byte has a code and every whole byte has room. -/
theorem packBytes_ok (st : State) (m : Memory) (bs : List Byte) (i : Nat) (s : BitString)
    (hb : ∀ b ∈ bs, st.clen.look b ≠ 0)
    (hs : st.hdrLen.toNat + (s ++ bs.flatMap st.codeBits).length / 8 ≤ st.capObufSize.toNat) :
    st.packBytes i bs (.after st.hdrLen.toNat m s) =
      .ok (.after st.hdrLen.toNat m (s ++ bs.flatMap st.codeBits)) := by
  induction bs generalizing i s with
  | nil => simp [State.packBytes]
  | cons b bs ih =>
    rw [List.flatMap_cons, ← List.append_assoc] at hs ⊢
    rw [State.packBytes, packByte_ok _ _ _ _ _ (hb b (by simp)) (le_trans (by
      have : (s ++ st.codeBits b).length ≤
        (s ++ st.codeBits b ++ bs.flatMap st.codeBits).length := by simp
      have := Nat.div_le_div_right (c := 8) this
      omega) hs)]
    exact ih _ _ (fun c hc => hb c (by simp [hc])) hs

/-- The loop over a list goes through a prefix first. -/
theorem packBytes_append (st : State) (xs ys : List Byte) (i : Nat) (p p' : Packer)
    (h : st.packBytes i xs p = .ok p') :
    st.packBytes i (xs ++ ys) p = st.packBytes (i + xs.length) ys p' := by
  induction xs generalizing i p with
  | nil =>
    simp only [State.packBytes, PackResult.ok.injEq] at h
    simp [h]
  | cons x xs ih =>
    simp only [List.cons_append, State.packBytes] at h ⊢
    cases hx : st.packByte i x p with
    | ok q =>
      rw [hx] at h
      simp only [List.length_cons] at h ⊢
      rw [ih _ _ h]
      congr 1
      omega
    | raised e info m => rw [hx] at h; simp at h

/-- The loop, when every byte has a code but some whole byte has no room (R225): what fits is written. -/
theorem packBytes_overflow (st : State) (m : Memory) (bs : List Byte) (i : Nat) (s : BitString)
    (hb : ∀ b ∈ bs, st.clen.look b ≠ 0)
    (h0 : st.hdrLen.toNat + s.length / 8 ≤ st.capObufSize.toNat)
    (hs : st.capObufSize.toNat < st.hdrLen.toNat + (s ++ bs.flatMap st.codeBits).length / 8) :
    st.packBytes i bs (.after st.hdrLen.toNat m s) =
      .raised .outOverflow (BitVec.ofNat 32 st.capObufSize.toNat)
        (m.writeRange st.hdrLen.toNat (sliceBytes (s ++ bs.flatMap st.codeBits)
          (st.capObufSize.toNat - st.hdrLen.toNat))) := by
  induction bs generalizing i s with
  | nil => simp at hs; omega
  | cons b bs ih =>
    rw [List.flatMap_cons, ← List.append_assoc] at hs ⊢
    rw [State.packBytes]
    by_cases hfit : st.hdrLen.toNat + (s ++ st.codeBits b).length / 8 ≤ st.capObufSize.toNat
    · rw [packByte_ok _ _ _ _ _ (hb b (by simp)) hfit]
      exact ih _ _ (fun c hc => hb c (by simp [hc])) hfit hs
    · have hlt : st.capObufSize.toNat < st.hdrLen.toNat + (s ++ st.codeBits b).length / 8 := by
        omega
      rw [packByte_overflow _ _ _ _ _ (hb b (by simp)) h0 hlt]
      simp only
      congr 2
      exact (sliceBytes_append _ _ _ (by omega)).symm

theorem packer_start (hdr : Nat) (m : Memory) : Packer.after hdr m [] = ⟨[], 0, m⟩ := rfl

theorem length_codeBits (st : State) (b : Byte) :
    (st.codeBits b).length = (st.clen.look b).toNat := by
  simp [State.codeBits]

end Sys2Proof.Machine
end

