-- ==== Sys2Proof/Laws/PerInstr.lean ====
section
/-! SUPPORT. Laws made per command of the opcode table (R92): one lemma per constructor. -/

namespace Sys2Proof.Laws.OpcodeRow

/-- A command is well formed, its word has the reserved bits 31:8 zero, its opcode in bits 7:0, and its
row in the opcode table; no other row has that opcode. -/
def Statement (i : Instr) : Prop :=
  i.wf = true ∧ rsvOf (encode i) = 0 ∧ opcOf (encode i) = opcode i ∧
    ∀ row ∈ opcodeTable, row.1 = opcode i ↔ row.2 = i

theorem nop : Statement .nop := by unfold Statement; decide
theorem clear : Statement .clear := by unfold Statement; decide
theorem count : Statement .count := by unfold Statement; decide
theorem build : Statement .build := by unfold Statement; decide
theorem extract : Statement .extract := by unfold Statement; decide
theorem assign : Statement .assign := by unfold Statement; decide
theorem pack : Statement .pack := by unfold Statement; decide
theorem header : Statement .header := by unfold Statement; decide
theorem run : Statement .run := by unfold Statement; decide

end Sys2Proof.Laws.OpcodeRow
end

