-- ==== Sys2Proof/Machine/HostProgram.lean ====
section
/-! DEFINITION. The notation of host programs (spec/30_encoding.md rules R95, R96): register addresses and
pseudo-operations, each a list of bus operations. -/

namespace Sys2Proof.Machine

/-- Addresses of CMD, STATUS, CTRL and IN_LEN (R52, R95). -/
def addrCmd : Word := 0x000

/-- See `addrCmd`. -/
def addrStatus : Word := 0x004

/-- See `addrCmd`. -/
def addrCtrl : Word := 0x008

/-- See `addrCmd`. -/
def addrInLen : Word := 0x00C

/-- `CMD m`: write the command's word to CMD. -/
def hostCmd (i : Instr) : List BusOp := [.write addrCmd 4 (encode i)]

/-- `WAIT`: poll STATUS until BUSY = 0. -/
def hostWait : List BusOp := [.poll addrStatus 1 0]

/-- `EXEC m`: `CMD m` then `WAIT`. -/
def hostExec (i : Instr) : List BusOp := hostCmd i ++ hostWait

/-- The byte writes of `LOAD` from index `i` on. -/
def hostLoadBytes : Nat → List Byte → List BusOp
  | _, [] => []
  | i, b :: bs => .write (BitVec.ofNat 32 (0x40000000 + i)) 1 (b.setWidth 32) :: hostLoadBytes (i + 1) bs

/-- `LOAD b0, …, b(N−1)`: byte writes to IBUF, then IN_LEN. -/
def hostLoad (bs : List Byte) : List BusOp :=
  hostLoadBytes 0 bs ++ [.write addrInLen 4 (BitVec.ofNat 32 bs.length)]

/-- `ACK`: clear DONE. -/
def hostAck : List BusOp := [.write addrStatus 4 2]

end Sys2Proof.Machine
end

