-- ==== Sys2Proof/Tests/Slice0.lean ====
section
/-! SUPPORT. Tests with expected results from spec/95_test_vectors.md and the encoding tables, and for each
obligation with hypotheses a witness that they can all hold together. -/

namespace Sys2Proof.Tests

open Sys2Proof.Machine

-- one theorem after the other: this bounds the memory the kernel evaluations below take together
set_option Elab.async false

/-! ### Helpers -/

/-- The step ends in a next state that satisfies `p`. -/
def ends (o : Host.Outcome State Fault Refusal) (p : State → Bool) : Bool :=
  match o with
  | .next t => p t
  | .fault _ => false
  | .refused _ => false

theorem next_of_ends {o : Host.Outcome State Fault Refusal} {p : State → Bool}
    (h : ends o p = true) : ∃ t, o = .next t ∧ p t = true := by
  cases o with
  | next t => exact ⟨t, rfl, h⟩
  | fault _ => cases h
  | refused _ => cases h

/-- The reset state with an input loaded. -/
def loaded (l : List Byte) : State :=
  { State.reset with
    inLen := BitVec.ofNat 32 l.length, ibuf := Memory.writeRange [] 0 l }

/-- The reset state with host operations to perform. -/
def hosting (ops : List BusOp) : State := { State.reset with inbox := ops }

/-- A table that is 0 but for the listed entries. -/
def entries {n : Nat} (l : List (Byte × BitVec n)) : Table (BitVec n) :=
  l.foldl (fun t e => t.put e.1 e.2) (Vector.replicate 256 0)

/-- An arena that is empty but for the listed records. -/
def records (l : List (Nat × Node)) : Arena :=
  l.foldl (fun t e => t.setIfInBounds e.1 e.2) (Vector.replicate 511 Node.empty)

/-- The tables after COUNT of `01 02 02 03 03 03 04 04 04 04` (vector V2). -/
def v2Counted : State :=
  { loaded [1, 2, 2, 3, 3, 3, 4, 4, 4, 4] with
    freq := entries [(1, 1), (2, 2), (3, 3), (4, 4)]
    order := entries [(0, 1), (1, 2), (2, 3), (3, 4)]
    nsym := 4
    stage := .counted }

/-- The tree of V2. -/
def v2Built : State :=
  { v2Counted with
    node := records [(0, ⟨true, true, 1, 1, 0, 0⟩), (1, ⟨true, true, 2, 2, 0, 0⟩),
      (2, ⟨true, true, 3, 3, 0, 0⟩), (3, ⟨true, true, 4, 4, 0, 0⟩),
      (256, ⟨true, false, 0, 3, 0, 1⟩), (257, ⟨true, false, 0, 6, 2, 256⟩),
      (258, ⟨true, false, 0, 10, 3, 257⟩)]
    root := 258
    rootWeight := 10
    stage := .built }

/-- The lengths of V2. -/
def v2Extracted : State :=
  { v2Counted with
    len := entries [(1, 3), (2, 3), (3, 2), (4, 1)], rootWeight := 10, stage := .extracted }

/-- The code table of V2. -/
def v2Assigned : State :=
  { v2Extracted with
    clen := entries [(1, 3), (2, 3), (3, 2), (4, 1)]
    code := entries [(1, 6), (2, 7), (3, 2), (4, 0)]
    blcount := entries [(1, 1), (2, 1), (3, 2)]
    maxLen := 3
    hdrLen := 9
    stage := .assigned }

/-- The payload of V2. -/
def v2Packed : State :=
  { v2Assigned with
    obuf := Memory.writeRange [] 9 [0xDF, 0xD4, 0x1F], payloadLen := 3, leftover := 3,
    stage := .packed }

/-! ### Well-formedness: each check with a term it refuses -/

theorem test_params_default : paramsWf 65536 262144 = true := by decide
theorem test_params_smallest : paramsWf 1 257 = true := by decide
theorem test_params_largest : paramsWf 0x40000000 0x40000000 = true := by decide
theorem test_params_no_input : paramsWf 0 257 = false := by decide
theorem test_params_input_too_large : paramsWf 0x40000001 257 = false := by decide
theorem test_params_output_too_small : paramsWf 1 256 = false := by decide
theorem test_params_output_too_large : paramsWf 1 0x40000001 = false := by decide
theorem test_wf_write_size : (BusOp.write 0 3 0).wf = false := by decide
theorem test_wf_write_data : (BusOp.write 0x40000000 1 0x100).wf = false := by decide
theorem test_wf_write : (BusOp.write 0x40000000 1 0xFF).wf = true := by decide
theorem test_wf_read_size : (BusOp.read 0 8).wf = false := by decide
theorem test_wf_poll_value : (BusOp.poll 4 1 2).wf = false := by decide
theorem test_wf_commands :
    ∀ i ∈ [Instr.nop, .clear, .count, .build, .extract, .assign, .pack, .header, .run],
      i.wf = true := by decide

/-! ### Decoding: words written out bit by bit from R90 and R92 -/

theorem test_decode_nop : decode 0b00000000000000000000000000000000 = .ok .nop := by decide
theorem test_decode_clear : decode 0b00000000000000000000000000000001 = .ok .clear := by decide
theorem test_decode_count : decode 0b00000000000000000000000000010000 = .ok .count := by decide
theorem test_decode_build : decode 0b00000000000000000000000000010001 = .ok .build := by decide
theorem test_decode_extract : decode 0b00000000000000000000000000010010 = .ok .extract := by decide
theorem test_decode_assign : decode 0b00000000000000000000000000010011 = .ok .assign := by decide
theorem test_decode_pack : decode 0b00000000000000000000000000010100 = .ok .pack := by decide
theorem test_decode_header : decode 0b00000000000000000000000000010101 = .ok .header := by decide
theorem test_decode_run : decode 0b00000000000000000000000000100000 = .ok .run := by decide
/-- V17: an unlisted opcode and a listed one with a reserved bit set. -/
theorem test_decode_unlisted : decode 0x16 = .error .unlistedOpcode := by decide
theorem test_decode_reserved : decode 0x110 = .error .reservedBits := by decide
theorem test_decode_table_word :
    decodeTableWord 32 0x20 = some .run ∧ decodeTableWord 8 0x13 = some .assign ∧
      decodeTableWord 32 0x120 = none := by decide

/-! ### One step of each command -/

/-- V23: NOP from reset leaves STATUS 0x0002. -/
theorem test_nop : ends (step (State.reset.withFetchWord 32 0x00)) (fun t =>
    t.statusWord == 0x0002 && t.pending == 0) = true := by decide +kernel

/-- V23: CLEAR after V2's payload: STATUS 0x0002, NSYM and HDR_LEN 0, IN_LEN and OBUF stay. -/
theorem test_clear : ends (step (v2Packed.withFetchWord 32 0x01)) (fun t =>
    t.statusWord == 0x0002 && t.nsym == 0 && t.hdrLen == 0 && t.freq.look 4 == 0 &&
      t.inLen == 10 && t.obuf.read 9 == 0xDF) = true := by decide +kernel

/-- S1: the frequency table of `01 02 03 03 03 04`. -/
theorem test_count : ends (step ((loaded [1, 2, 3, 3, 3, 4]).withFetchWord 32 0x10)) (fun t =>
    t.statusWord == 0x0102 && t.nsym == 4 && t.freq.look 3 == 3 && t.freq.look 4 == 1 && t.freq.look 5 == 0 &&
      t.order.look 0 == 1 && t.order.look 2 == 3 && t.order.look 3 == 4 && t.order.look 4 == 0) = true := by decide +kernel

/-- V19: COUNT of 65537 bytes: STATUS 0x0036, ERR_INFO 65537, the tables stay. -/
theorem test_count_too_long :
    ends (step ({ v2Packed with inLen := 65537 }.withFetchWord 32 0x10)) (fun t =>
      t.statusWord == 0x0036 && t.errInfo == 65537 && t.nsym == 4) = true := by decide +kernel

/-- V6, the tie-break vector: counts 61:1, 62:1, 63:2, 64:2. -/
theorem test_build_ties : ends (step ({ State.reset with
      freq := entries [(0x61, 1), (0x62, 1), (0x63, 2), (0x64, 2)]
      order := entries [(0, 0x61), (1, 0x62), (2, 0x63), (3, 0x64)]
      nsym := 4, stage := .counted }.withFetchWord 32 0x11)) (fun t =>
    t.statusWord == 0x0202 && t.root == 258 && t.rootWeight == 6 &&
      t.node[256] == ⟨true, false, 0, 2, 1, 0⟩ && t.node[257] == ⟨true, false, 0, 4, 3, 2⟩ &&
      t.node[258] == ⟨true, false, 0, 6, 256, 257⟩) = true := by decide +kernel

/-- V2's tree (R159). -/
theorem test_build : ends (step (v2Counted.withFetchWord 32 0x11)) (fun t =>
    t.root == 258 && t.rootWeight == 10 && t.node[3] == ⟨true, true, 4, 4, 0, 0⟩ &&
      t.node[4] == Node.empty && t.node[256] == ⟨true, false, 0, 3, 0, 1⟩ &&
      t.node[258] == ⟨true, false, 0, 10, 3, 257⟩) = true := by decide +kernel

/-- V2's lengths; the tree is destroyed, ROOT_WEIGHT stays. -/
theorem test_extract : ends (step (v2Built.withFetchWord 32 0x12)) (fun t =>
    t.statusWord == 0x0302 && t.len.look 1 == 3 && t.len.look 2 == 3 && t.len.look 3 == 2 &&
      t.len.look 4 == 1 && t.len.look 5 == 0 && t.root == 0 && t.rootWeight == 10 &&
      t.node[258] == Node.empty) = true := by decide +kernel

/-- V3: the bare leaf gives length 0 and DEGEN. -/
theorem test_extract_degenerate : ends (step ({ State.reset with
      node := records [(0, ⟨true, true, 4, 4, 0, 0⟩)], nsym := 1, freq := entries [(4, 4)]
      rootWeight := 4, stage := .built }.withFetchWord 32 0x12)) (fun t =>
    t.statusWord == 0x0B02 && t.len.look 4 == 0) = true := by decide +kernel

/-- S4: the source's five codes, with an empty bucket of length 1. -/
theorem test_assign : ends (step ({ State.reset with
      freq := entries [(1, 1), (2, 1), (4, 1), (3, 1), (5, 1)]
      len := entries [(1, 2), (2, 2), (4, 2), (3, 3), (5, 3)]
      nsym := 5, stage := .extracted }.withFetchWord 32 0x13)) (fun t =>
    t.statusWord == 0x0402 && t.code.look 4 == 2 && t.code.look 3 == 6 && t.maxLen == 3 &&
      t.blcount.look 1 == 0 && t.blcount.look 2 == 3 && t.hdrLen == 10) = true := by
  decide +kernel

/-- V3: the forced length 1 of the only symbol. -/
theorem test_assign_degenerate : ends (step ({ State.reset with
      freq := entries [(4, 4)], nsym := 1, degen := true
      stage := .extracted }.withFetchWord 32 0x13)) (fun t =>
    t.statusWord == 0x0C02 && t.clen.look 4 == 1 && t.maxLen == 1 && t.hdrLen == 4) = true := by
  decide +kernel

/-- V2's payload DF D4 1F at HDR_LEN. -/
theorem test_pack : ends (step (v2Assigned.withFetchWord 32 0x14)) (fun t =>
    t.statusWord == 0x0502 && t.obuf == [(9, 0xDF), (10, 0xD4), (11, 0x1F)] && t.payloadLen == 3 &&
      t.leftover == 3 && t.outLen == 0) = true := by decide +kernel

/-- V21: byte 09 at index 5 has no code. -/
theorem test_pack_lookup :
    ends (step ({ v2Assigned with ibuf := v2Assigned.ibuf.write 5 9 }.withFetchWord 32 0x14))
      (fun t => t.statusWord == 0x0056 && t.errInfo == 5 && t.obuf == [(9, 0xDF)] &&
        t.payloadLen == 0 && t.leftover == 0) = true := by decide +kernel

/-- V2's archive. -/
theorem test_header : ends (step (v2Packed.withFetchWord 32 0x15)) (fun t =>
    t.statusWord == 0x0602 &&
      t.archive == [0x60, 4, 1, 1, 2, 4, 3, 1, 2, 0xDF, 0xD4, 0x1F]) = true := by decide +kernel

/-- V12: the dense header, control byte 10, then the lengths. -/
theorem test_header_dense : ends (step ({ State.reset with
      stage := .packed, dense := true, clen := entries [(0, 7), (0x7F, 7)], hdrLen := 257
      payloadLen := 112 }.withFetchWord 32 0x15)) (fun t =>
    t.statusWord == 0x2602 && t.obuf == [(0, 0x10), (1, 7), (0x80, 7)] && t.outLen == 369) =
      true := by decide +kernel

/-- The reset state with the input `07`, ready to run. ERRCODE is one no error of this run has, so that the
run can be seen to leave it alone. -/
def v9 : State := { loaded [7] with errCode := .lookup, capInMax := 1, capObufSize := 258 }

/-- V9: the whole run of the input `07`, and it decodes back. -/
theorem test_run : ends (exec .run v9) (fun t =>
    t.archive == [0x20, 1, 1, 7, 0x7F] && t.stage == .done && t.errCode == .lookup &&
      t.degen && t.rootWeight == 1) = true := by decide +kernel

/-- V5: RUN of the empty input. -/
theorem test_run_empty : ends (step (State.reset.withFetchWord 32 0x20)) (fun t =>
    t.statusWord == 0x0046 && t.errInfo == 0 && t.nsym == 0) = true := by decide +kernel

/-! ### Errors of the frame, the host bus, reset -/

/-- V17. -/
theorem test_illegal_command : ends (step (State.reset.withFetchWord 32 0x110)) (fun t =>
    t.statusWord == 0x0016 && t.errInfo == 0x110) = true := by decide +kernel

/-- V18: from reset BUILD; in STAGE = DONE PACK, which leaves the archive valid. -/
theorem test_sequence : ends (step (State.reset.withFetchWord 32 0x11)) (fun t =>
    t.statusWord == 0x0026 && t.errInfo == 0x1100) = true := by decide +kernel
theorem test_sequence_done :
    ends (step ({ State.reset with stage := .done, outLen := 12 }.withFetchWord 32 0x14)) (fun t =>
      t.statusWord == 0x0626 && t.errInfo == 0x1406 && t.outLen == 12) = true := by decide +kernel

/-- The newest answer of the bus after the host's next operation. -/
def answers (s : State) (op : BusOp) (p : BusReply → Bool) : Bool :=
  ends (step { s with inbox := [op] }) fun t => (t.replies.head?.map p).getD false

/-- V26: little-endian window reads; a misaligned word and a byte of a register get bus errors. -/
theorem test_window_read :
    answers v2Packed (.read 0x80000008 4) (fun r => r == ⟨0x1FD4DF00, false⟩) = true := by
  decide +kernel
theorem test_misaligned_read :
    answers v2Packed (.read 0x80000002 4) (fun r => r.busError) = true := by decide +kernel
theorem test_register_byte_read :
    answers v2Packed (.read 0x00000004 1) (fun r => r.busError) = true := by decide +kernel

/-- V26: table reads. -/
theorem test_table_reads :
    (answers v2Assigned (.read 0x410 4) (fun r => r == ⟨4, false⟩) &&
      answers v2Assigned (.read 0x800 4) (fun r => r == ⟨1, false⟩) &&
      answers v2Assigned (.read 0xC0C 4) (fun r => r == ⟨2, false⟩) &&
      answers v2Assigned (.read 0x1004 4) (fun r => r == ⟨3, false⟩) &&
      answers v2Assigned (.read 0x140C 4) (fun r => r == ⟨2, false⟩) &&
      answers v2Assigned (.read 0x2040 4) (fun r => r == ⟨7, false⟩) &&
      answers v2Assigned (.read 0x2044 4) (fun r => r == ⟨0, false⟩)) = true := by decide +kernel
/-- V26: NODE reads between BUILD and EXTRACT. -/
theorem test_node_reads :
    (answers v2Built (.read 0x5020 4) (fun r => r == ⟨10, false⟩) &&
      answers v2Built (.read 0x5024 4) (fun r => r == ⟨3, false⟩) &&
      answers v2Built (.read 0x5028 4) (fun r => r == ⟨257, false⟩) &&
      answers v2Built (.read 0x502C 4) (fun r => r == ⟨0x80000000, false⟩) &&
      answers v2Built (.read 0x400C 4) (fun r => r == ⟨0x80000101, false⟩)) = true := by
  decide +kernel

/-- V26: a half-word and a word written to IBUF. -/
theorem test_input_writes :
    (ends (step (hosting [.write 0x40000000 2 0x0201])) (fun t => t.ibuf == [(0, 1), (1, 2)]) &&
      ends (step (hosting [.write 0x40000004 4 0x04030201]))
        (fun t => t.ibuf == [(4, 1), (5, 2), (6, 3), (7, 4)])) = true := by decide +kernel

/-- V26: writes of NSYM and of OBUF are ignored. -/
theorem test_ignored_writes :
    (ends (step { v2Packed with inbox := [.write 0x010 4 7] }) (fun t => t.nsym == 4) &&
      ends (step { v2Packed with inbox := [.write 0x80000000 1 0x55] })
        (fun t => t.obuf == v2Packed.obuf)) = true := by decide +kernel

/-- V24: acknowledging DONE and disabling the interrupt. -/
theorem test_acknowledge :
    (ends (step { State.reset with done := true, irqEn := true, inbox := hostAck })
        (fun t => !t.done && !t.irq) &&
      ends (step { State.reset with done := true, irqEn := true,
                                    inbox := [.write 0x004 4 0xFFFFFFFD] })
        (fun t => t.done && t.irq) &&
      ends (step { State.reset with done := true, irqEn := true, inbox := [.write 0x008 4 0] })
        (fun t => t.done && !t.irq)) = true := by decide +kernel

/-- V25: a command written while BUSY is dropped; STATUS reads 0x1001 then. -/
theorem test_write_while_busy :
    ends (step { State.reset.accept 0x20 2 with inbox := [.write 0x000 4 0x01] }) (fun t =>
      t.statusWord == 0x1001 && t.pending == 0x20) = true := by decide +kernel

/-- R270, R271: asserting reset clears the status and the run registers. -/
theorem test_reset_event : ends (step { v2Packed with irqEn := true, inbox := [.resetAssert] })
    (fun t => t.statusWord == 0 && !t.irqEn && t.inLen == 0 && t.hdrLen == 0 && t.inReset &&
      t.capInMax == 65536) = true := by decide +kernel

/-! ### Witnesses: for each obligation with hypotheses, a state and operands that meet them together -/

/-- A block in the middle of a command. -/
def working : State := { State.reset with busy := true, delay := 1 }

/-- A block with a command's word pending and its completion step due. -/
def due (w : Word) : State := { State.reset with busy := true, pending := w }

/-- Two symbols of length 1, before ASSIGN. -/
def twoLengths : State :=
  { State.reset with
    freq := entries [(1, 1), (2, 5)], len := entries [(1, 1), (2, 1)], nsym := 2
    stage := .extracted }

/-- A tree of two leaves. -/
def twoLeaves : State :=
  { State.reset with
    node := records [(0, ⟨true, true, 1, 1, 0, 0⟩), (1, ⟨true, true, 2, 5, 0, 0⟩),
      (256, ⟨true, false, 0, 6, 0, 1⟩)]
    root := 256, stage := .built }

theorem witness_DecodeInvertsEncode : ∀ i : Instr, i.wf = true := by intro i; cases i <;> rfl

theorem witness_DecodeAcceptsExactlyListedWords : decode 0x00000020 = .ok .run := by decide

theorem witness_CommandAcceptance :
    (hosting [.write 0x000 4 0x10]).inReset = false ∧ (hosting [.write 0x000 4 0x10]).busy = false ∧
      (hosting [.write 0x000 4 0x10]).inbox = .write 0x000 4 0x10 :: [] := ⟨rfl, rfl, rfl⟩
theorem witness_CommandAcceptance_busy :
    let s : State := { working with inbox := [.write 0x000 4 0x01] }
    s.inReset = false ∧ s.busy = true ∧ 0 < s.delay ∧ s.inbox = .write 0x000 4 0x01 :: [] := by
  decide

theorem witness_StepRunsDecodedCommand :
    (due 0x13).inReset = false ∧ (due 0x13).busy = true ∧ (due 0x13).delay = 0 ∧
      Instr.assign.wf = true ∧ decode (due 0x13).pending = .ok .assign := by decide

/-- Words next to the listed ones: an unlisted opcode, and a reserved bit beside a listed opcode. -/
theorem witness_IllegalWordCompletes : ∀ w ∈ [(0x02 : Word), 0x0F, 0x16, 0x1F, 0x21, 0xFF, 0x100],
    (w.toNat / 256 ≠ 0 ∨ w.toNat % 256 ∉
      [0x00, 0x01, 0x10, 0x11, 0x12, 0x13, 0x14, 0x15, 0x20]) ∧
    (due w).inReset = false ∧ (due w).busy = true ∧ (due w).delay = 0 ∧ (due w).pending = w := by
  have h : ∀ w ∈ [(0x02 : Word), 0x0F, 0x16, 0x1F, 0x21, 0xFF, 0x100],
      w.toNat / 256 ≠ 0 ∨ w.toNat % 256 ∉
        [0x00, 0x01, 0x10, 0x11, 0x12, 0x13, 0x14, 0x15, 0x20] := by
    simp only [List.forall_mem_cons, List.not_mem_nil, false_implies, implies_true, and_true]
    refine ⟨?_, ?_, ?_, ?_, ?_, ?_, ?_⟩ <;> decide
  exact fun w hw => ⟨h w hw, rfl, rfl, rfl, rfl⟩

theorem witness_StageCheckRefuses_staged : State.reset.stage ≠ .counted ∧
    State.reset.stage ≠ .built ∧ State.reset.stage ≠ .extracted ∧ State.reset.stage ≠ .assigned ∧
    State.reset.stage ≠ .packed := by decide
theorem witness_StageCheckRefuses_numbers : ∀ st : Stage, ∃ num,
    (st, num) ∈ [(Stage.idle, 0), (.counted, 1), (.built, 2), (.extracted, 3), (.assigned, 4),
      (.packed, 5), (.done, 6)] := by
  intro st; cases st <;> simp
theorem witness_StageCheckRefuses_others :
    ∃ t, exec .nop { State.reset with errCode := .sequence } = .next t ∧ t.errCode = .sequence :=
  ⟨_, rfl, rfl⟩

theorem witness_CompletionEndsCommand :
    (due 0).inReset = false ∧ (due 0).busy = true ∧ (due 0).delay = 0 ∧
      ∃ t, step (due 0) = .next t := ⟨rfl, rfl, rfl, _, rfl⟩

/-- An error that keeps the run, no error, an error that aborts it. -/
theorem witness_ErrorEffects_start : ∀ w ∈ [(0x16 : Word), 0x11, 0x00, 0x10],
    (due w).inReset = false ∧ (due w).busy = true ∧ (due w).delay = 0 ∧ (due w).err = false ∧
      (due w).errCode = .none ∧ (due w).errInfo = 0 := by
  intro w _; exact ⟨rfl, rfl, rfl, rfl, rfl, rfl⟩
theorem witness_ErrorEffects_illegal :
    ∃ t, step (due 0x16) = .next t ∧ t.err = true ∧ t.errCode = .illegalCmd := ⟨_, rfl, rfl, rfl⟩
theorem witness_ErrorEffects_sequence :
    ∃ t, step (due 0x11) = .next t ∧ t.err = true ∧ t.errCode = .sequence := ⟨_, rfl, rfl, rfl⟩
theorem witness_ErrorEffects_none :
    ∃ t, step (due 0x00) = .next t ∧ t.err = false := ⟨_, rfl, rfl⟩
theorem witness_ErrorEffects_abort :
    ∃ t, step { due 0x10 with inLen := 65537 } = .next t ∧ (t.err && t.errCode == .inLen) = true :=
  next_of_ends (by decide +kernel)

theorem witness_TooLongInputRefused :
    let s : State := { State.reset with inLen := 65537, stage := .assigned }
    s.capInMax.toNat < s.inLen.toNat ∧ s.stage = .assigned := by decide

theorem witness_CountBuildsFrequencyTable :
    let s : State := { loaded [4, 4] with capInMax := 2 }
    s.inLen.toNat ≤ s.capInMax.toNat ∧ State.reset.inLen.toNat ≤ State.reset.capInMax.toNat := by
  decide

theorem witness_CountBuildsFrequencyTable_later :
    ∃ t, exec .build v2Counted = .next t ∧ (t.stage == .built) = true :=
  next_of_ends (by decide +kernel)

theorem witness_CountKeepsFirstOccurrenceOrder :
    (loaded [2, 1]).inLen.toNat ≤ (loaded [2, 1]).capInMax.toNat ∧
      ∃ t, exec .count (loaded [2, 1]) = .next t ∧ decide (1 < t.nsym.toNat) = true :=
  ⟨by decide, next_of_ends (by decide +kernel)⟩

theorem witness_BuildRefusesEmptyInput :
    let s : State := { State.reset with stage := .counted }
    s.stage = .counted ∧ s.nsym = 0 := by decide

theorem witness_BuildOfOneSymbolIsBareLeaf :
    let s : State := { State.reset with stage := .counted, nsym := 1, freq := entries [(0, 4)] }
    s.stage = .counted ∧ s.nsym = 1 := ⟨rfl, rfl⟩

/-- The smallest and the largest alphabet. -/
theorem witness_BuildMakesTree : ∀ n ∈ [(1 : BitVec 9), 256],
    let s : State := { State.reset with stage := .counted, nsym := n, freq := entries [(0, 4)] }
    s.stage = .counted ∧ 1 ≤ s.nsym.toNat ∧ s.nsym.toNat ≤ 256 ∧
      (s.symbols.map fun b => (s.freq.look b).toNat).sum < 2 ^ 32 := by decide +kernel

theorem witness_PrioritySequenceStaysSorted :
    [3, 2, 2].Pairwise (fun a b => id b ≤ id a) := by decide

theorem witness_HeapMergeMatchesBuild : v2Counted.stage = .counted ∧ 1 ≤ v2Counted.nsym.toNat ∧
    v2Counted.nsym.toNat ≤ 256 ∧
    (v2Counted.symbols.map fun b => (v2Counted.freq.look b).toNat).sum < 2 ^ 32 ∧
    ∃ t, exec .build v2Counted = .next t ∧ (t.root == 258) = true :=
  ⟨rfl, by decide, by decide, by decide +kernel, next_of_ends (by decide +kernel)⟩

theorem witness_ExtractGivesDepths :
    let t : HuffTree := .node (.leaf 1 1) (.leaf 2 5)
    twoLeaves.stage = .built ∧ Represents twoLeaves.node twoLeaves.root.toNat t ∧
      t.height ≤ 255 ∧ t.symbols.Nodup :=
  ⟨rfl, ⟨⟨true, false, 0, 6, 0, 1⟩, by decide +kernel, rfl, rfl, rfl,
    ⟨⟨true, true, 1, 1, 0, 0⟩, by decide +kernel, rfl, rfl, rfl, rfl⟩,
    ⟨⟨true, true, 2, 5, 0, 0⟩, by decide +kernel, rfl, rfl, rfl, rfl⟩⟩, by decide, by decide⟩

theorem witness_UnreachableStatesStop_build :
    let s : State := { State.reset with stage := .counted, nsym := 257 }
    s.stage = .counted ∧ 256 < s.nsym.toNat := by decide
theorem witness_UnreachableStatesStop_extract :
    let s : State := { State.reset with stage := .built }
    s.stage = .built ∧ s.node[s.root.toNat]? = some Node.empty ∧ Node.empty.isLeaf = false ∧
      Node.empty.left = s.root := ⟨rfl, by decide +kernel, rfl, rfl⟩
theorem witness_UnreachableStatesStop_header :
    let s : State := { State.reset with stage := .packed, dense := true, capObufSize := 256 }
    s.stage = .packed ∧ s.dense = true ∧ s.capObufSize.toNat < 257 := by decide

theorem witness_AssignGivesLengthsAndHeader : twoLengths.stage = .extracted := rfl

/-- ASSIGN of two lengths 1: both codes have length 1, and Kraft's sum is exactly 1. -/
theorem test_assign_two : ends (exec .assign twoLengths) (fun t =>
    t.clen.look 1 == 1 && t.clen.look 2 == 1 && kraftSum (lengthsOf t.clen) == 2 ^ 255) = true := by
  decide +kernel

/-- `test_assign_two` as the hypotheses the statements about ASSIGN need. -/
theorem assign_two : twoLengths.stage = .extracted ∧ ∃ t, exec .assign twoLengths = .next t ∧
    kraftSum (lengthsOf t.clen) ≤ 2 ^ 255 ∧ t.clen.look 1 ≠ 0 ∧ t.clen.look 2 ≠ 0 ∧
    t.clen.look 1 = t.clen.look 2 := by
  obtain ⟨t, h, ht⟩ := next_of_ends test_assign_two
  simp only [Bool.and_eq_true, beq_iff_eq] at ht
  obtain ⟨⟨h1, h2⟩, hk⟩ := ht
  exact ⟨rfl, t, h, hk.le, by rw [h1]; decide, by rw [h2]; decide, by rw [h1, h2]⟩

theorem witness_AssignNumbersCanonically : twoLengths.stage = .extracted ∧
    ∃ t, exec .assign twoLengths = .next t ∧ t.clen.look 1 ≠ 0 ∧
      kraftSum (lengthsOf t.clen) ≤ 2 ^ 255 :=
  have ⟨hs, t, h, hk, h1, _⟩ := assign_two
  ⟨hs, t, h, h1, hk⟩

theorem witness_EqualLengthCodesAreConsecutive : twoLengths.stage = .extracted ∧
    ∃ t, exec .assign twoLengths = .next t ∧ kraftSum (lengthsOf t.clen) ≤ 2 ^ 255 ∧
      t.clen.look 1 ≠ 0 ∧ t.clen.look 1 = t.clen.look 2 ∧ (1 : Byte).toNat < (2 : Byte).toNat :=
  have ⟨hs, t, h, hk, h1, _, he⟩ := assign_two
  ⟨hs, t, h, hk, h1, he, by decide⟩

theorem witness_CodesArePrefixFree : twoLengths.stage = .extracted ∧
    ∃ t, exec .assign twoLengths = .next t ∧ kraftSum (lengthsOf t.clen) ≤ 2 ^ 255 ∧
      t.clen.look 1 ≠ 0 ∧ t.clen.look 2 ≠ 0 ∧ (1 : Byte) ≠ 2 :=
  have ⟨hs, t, h, hk, h1, h2, _⟩ := assign_two
  ⟨hs, t, h, hk, h1, h2, by decide⟩

/-- The payload fits with no byte to spare. -/
theorem witness_PackWritesPayload :
    let s : State := { v2Assigned with capObufSize := 12 }
    s.stage = .assigned ∧ s.obuf.wf ∧ s.inLen.toNat ≤ s.capInMax.toNat ∧
      (∀ b ∈ (List.range s.inLen.toNat).map s.ibuf.read, s.clen.look b ≠ 0) ∧
      s.hdrLen.toNat + (bitCost (lengthsOf s.clen)
        ((List.range s.inLen.toNat).map s.ibuf.read) + 7) / 8 ≤ s.capObufSize.toNat := by
  decide +kernel

/-- V21's missing code with no byte to spare, and a missing code of the very first byte. -/
theorem witness_PackMissingCodeRaisesLookup : ∀ i ∈ [0, 5],
    let s : State := { v2Assigned with ibuf := v2Assigned.ibuf.write i 9, capObufSize := 10 }
    s.stage = .assigned ∧ s.obuf.wf ∧ s.inLen.toNat ≤ s.capInMax.toNat ∧ i < s.inLen.toNat ∧
      s.clen.look (s.ibuf.read i) = 0 ∧
      (∀ b ∈ (List.range i).map s.ibuf.read, s.clen.look b ≠ 0) ∧
      s.hdrLen.toNat + bitCost (lengthsOf s.clen) ((List.range i).map s.ibuf.read) / 8 ≤
        s.capObufSize.toNat := by decide +kernel

/-- The whole input one byte short, and with no room for any payload byte; and no room where the byte at
index 5 has no code, but the five before it fill one payload byte. -/
theorem witness_PackOverflowRaisesOutOverflow :
    ∀ p ∈ [(10, v2Assigned.ibuf, (11 : Word)), (10, v2Assigned.ibuf, 9),
      (5, v2Assigned.ibuf.write 5 9, 9)],
    let s : State := { v2Assigned with ibuf := p.2.1, capObufSize := p.2.2 }
    let input := (List.range p.1).map s.ibuf.read
    let T := bitCost (lengthsOf s.clen) input
    s.stage = .assigned ∧ s.obuf.wf ∧ s.inLen.toNat ≤ s.capInMax.toNat ∧ p.1 ≤ s.inLen.toNat ∧
      (∀ b ∈ input, s.clen.look b ≠ 0) ∧ s.hdrLen.toNat ≤ s.capObufSize.toNat ∧
      s.capObufSize.toNat <
        s.hdrLen.toNat + (if p.1 = s.inLen.toNat then (T + 7) / 8 else T / 8) := by
  decide +kernel

theorem witness_HeaderWritesDenseTable :
    let s : State := { State.reset with stage := .packed, dense := true, capObufSize := 257 }
    s.stage = .packed ∧ s.dense = true ∧ s.obuf.wf ∧ 257 ≤ s.capObufSize.toNat := by decide

/-- V2's header fits with no byte to spare. -/
theorem witness_HeaderWritesSparseTable :
    let s : State := { v2Packed with capObufSize := 9 }
    s.stage = .packed ∧ s.dense = false ∧ s.obuf.wf ∧ s.nsym.toNat ≤ 127 ∧
      2 + s.maxLen.toNat + (allBytes.filter fun b => 1 ≤ (s.clen.look b).toNat ∧
        (s.clen.look b).toNat ≤ s.maxLen.toNat).length ≤ s.capObufSize.toNat := by decide +kernel

theorem witness_RunIsTheSixStages : State.reset.err = false := rfl

theorem witness_RunOfEmptyInputRaisesEmptyInput : State.reset.inLen = 0 := rfl

/-- One byte, IBUF full, OBUF exactly as large as asked for (and so for the second clause). -/
theorem witness_RunCompletes : v9.ParamsOk ∧ 1 ≤ v9.inLen.toNat ∧ v9.inLen.toNat ≤ v9.capInMax.toNat ∧
    257 + v9.inLen.toNat ≤ v9.capObufSize.toNat := by
  unfold State.ParamsOk; decide

theorem witness_RunNeverRaisesLookup : ∃ t, exec .run v9 = .next t ∧ t.errCode = .lookup := by
  obtain ⟨t, h, ht⟩ := next_of_ends test_run
  simp only [Bool.and_eq_true, beq_iff_eq] at ht
  exact ⟨t, h, ht.1.1.2⟩

theorem witness_ArchiveDecodesToInput : v9.ParamsOk ∧ v9.obuf.wf ∧ 1 ≤ v9.inLen.toNat ∧
    ∃ t, exec .run v9 = .next t ∧ t.stage = .done := by
  obtain ⟨t, h, ht⟩ := next_of_ends test_run
  simp only [Bool.and_eq_true, beq_iff_eq] at ht
  exact ⟨by unfold State.ParamsOk; decide, Memory.wf_nil, by decide, t, h, ht.1.1.1.2⟩

theorem witness_ArchiveDecodesToInput_staged : ∃ t,
    runUntilError [.count, .build, .extract, .assign, .pack, .header] v9 = .next t ∧
      (t.stage == .done) = true := next_of_ends (by decide +kernel)

theorem witness_CommandsKeepHostState : ∃ t, exec .clear v2Packed = .next t := ⟨_, rfl⟩

theorem witness_CommandsKeepOutputBuffer_none : ∃ t, exec .nop v2Packed = .next t := ⟨_, rfl⟩
theorem witness_CommandsKeepOutputBuffer_pack :
    (8 < v2Assigned.hdrLen.toNat ∧ v2Assigned.hdrLen.toNat + (bitCost (lengthsOf v2Assigned.clen)
      ((List.range v2Assigned.inLen.toNat).map v2Assigned.ibuf.read) + 7) / 8 ≤ 12) ∧
    ∃ t, exec .pack v2Assigned = .next t ∧ (t.stage == .packed) = true :=
  ⟨by decide +kernel, next_of_ends (by decide +kernel)⟩
theorem witness_CommandsKeepOutputBuffer_header :
    (if v2Packed.dense then 257 else 2 + v2Packed.maxLen.toNat +
      (allBytes.filter fun b => 1 ≤ (v2Packed.clen.look b).toNat ∧
        (v2Packed.clen.look b).toNat ≤ v2Packed.maxLen.toNat).length) ≤ 9 ∧
    ∃ t, exec .header v2Packed = .next t ∧ (t.stage == .done) = true :=
  ⟨by decide +kernel, next_of_ends (by decide +kernel)⟩
theorem witness_CommandsKeepOutputBuffer_run :
    v9.capObufSize.toNat ≤ 258 ∧ ∃ t, exec .run v9 = .next t := by
  obtain ⟨t, h, -⟩ := next_of_ends test_run
  exact ⟨by decide, t, h⟩

theorem witness_CapabilitiesAreConstant : ∃ t, step (hosting [.resetAssert]) = .next t := ⟨_, rfl⟩

theorem witness_WbusyIsSticky_set :
    let s : State := { working with inbox := [.write 0x000 4 1] }
    s.inReset = false ∧ s.busy = true ∧ 0 < s.delay ∧ s.inbox = .write 0x000 4 1 :: [] ∧
      AccessAllowed 0x000 4 := ⟨rfl, rfl, by decide, rfl, by unfold AccessAllowed; decide⟩
theorem witness_WbusyIsSticky_cleared :
    (∃ t, step { due 0x01 with wbusy := true } = .next t ∧ t.wbusy = false) ∧
      ∃ t, step { hosting [.resetAssert] with wbusy := true } = .next t ∧ t.wbusy = false :=
  ⟨⟨_, rfl, rfl⟩, _, rfl, rfl⟩

/-- The first and last reserved words of each gap. -/
theorem witness_RegisterMapReads : State.reset.inReset = false ∧ State.reset.busy = false ∧
    ∀ a ∈ [(0x03C : Word), 0x3FC, 0x1800, 0x1FFC, 0x5FF0, 0x3FFFFFFC, 0xC0000000, 0xFFFFFFFC],
      4 ∣ a.toNat ∧ ((0x03C ≤ a.toNat ∧ a.toNat < 0x400) ∨
        (0x1800 ≤ a.toNat ∧ a.toNat < 0x2000) ∨ (0x5FF0 ≤ a.toNat ∧ a.toNat < 0x40000000) ∨
        0xC0000000 ≤ a.toNat) := by
  refine ⟨rfl, rfl, ?_⟩
  simp only [List.forall_mem_cons, List.not_mem_nil, false_implies, implies_true, and_true]
  refine ⟨?_, ?_, ?_, ?_, ?_, ?_, ?_, ?_⟩ <;> decide

/-- The first and last offsets of a window, for each size; the block is idle. -/
theorem witness_WindowReadsAreLittleEndian : State.reset.inReset = false ∧ State.reset.busy = false ∧
    ∀ p ∈ [(0, 1), (0, 2), (0, 4), (0x3FFFFFFF, 1), (0x3FFFFFFE, 2), (0x3FFFFFFC, 4)],
      p.1 < 2 ^ 30 ∧ (p.2 = 1 ∨ p.2 = 2 ∨ p.2 = 4) ∧ p.2 ∣ p.1 := by decide

theorem witness_InputWindowWrites : State.reset.ibuf.wf ∧ State.reset.inReset = false ∧
    State.reset.busy = false ∧ 65532 < 2 ^ 30 ∧ 4 ∣ 65532 := ⟨Memory.wf_nil, by decide⟩

theorem witness_ControlRegisterWrites :
    State.reset.inReset = false ∧ State.reset.busy = false := by decide

/-- NSYM, the last reserved word below the windows, and OBUF. -/
theorem witness_ReadOnlyPlacesIgnoreWrites : State.reset.inReset = false ∧
    State.reset.busy = false ∧
    ∀ p ∈ [((0x010 : Word), 4), (0x3FFFFFFC, 4), (0x80000000, 1), (0xFFFFFFFC, 4)],
      AccessAllowed p.1 p.2 ∧ 0x010 ≤ p.1.toNat ∧
        (p.1.toNat < 0x40000000 ∨ 0x80000000 ≤ p.1.toNat) := by unfold AccessAllowed; decide

/-- Illegal: a byte of a register, a misaligned word, three bytes, one past a window's end. Legal: the
last byte of the windows, the first word after them. -/
theorem witness_BusErrorExactlyOnIllegalAccess : State.reset.inReset = false ∧
    State.reset.busy = false ∧ working.inReset = false ∧ 0 < working.delay ∧
    (∀ p ∈ [((0x004 : Word), 1), (0x40000001, 2), (0x40000000, 3), (0xC0000000, 1), (0x002, 4)],
      ¬ AccessAllowed p.1 p.2) ∧
    (∀ p ∈ [((0xBFFFFFFF : Word), 1), (0xC0000000, 4), (0x3FFFFFFC, 4), (0x40000002, 2)],
      AccessAllowed p.1 p.2) := by unfold AccessAllowed; decide

theorem witness_WritesWhileBusyAreDropped :
    let s : State := { working with inbox := [.write 0x40000000 1 7] }
    s.inReset = false ∧ s.busy = true ∧ 0 < s.delay ∧ s.inbox = .write 0x40000000 1 7 :: [] ∧
      AccessAllowed 0x40000000 1 := ⟨rfl, rfl, by decide, rfl, by unfold AccessAllowed; decide⟩

theorem witness_ReadsWhileBusy : ∀ a ∈ [(0x004 : Word), 0x034, 0x038, 0x00C],
    let s : State := { working with inbox := [.read a 4] }
    s.inReset = false ∧ s.busy = true ∧ 0 < s.delay ∧ s.inbox = .read a 4 :: [] ∧
      AccessAllowed a 4 := by
  have h : ∀ a ∈ [(0x004 : Word), 0x034, 0x038, 0x00C], AccessAllowed a 4 := by
    unfold AccessAllowed
    simp only [List.forall_mem_cons, List.not_mem_nil, false_implies, implies_true, and_true]
    refine ⟨?_, ?_, ?_, ?_⟩ <;> decide
  exact fun a ha => ⟨rfl, rfl, Nat.zero_lt_one, rfl, h a ha⟩

theorem witness_PollRepeatsUntilMatch_idle :
    State.reset.busy = false ∧ ReadGives State.reset 0x004 4 0 := ⟨rfl, rfl⟩
theorem witness_PollRepeatsUntilMatch_busy :
    let s : State := { working with inbox := hostWait }
    s.inReset = false ∧ s.busy = true ∧ 0 < s.delay ∧ s.inbox = .poll 0x004 1 0 :: [] := by decide

theorem witness_IdleBlockWaits : State.reset.busy = false ∧ State.reset.inbox = [] := ⟨rfl, rfl⟩

theorem witness_ResetEvent :
    let s : State := { working with inbox := [.resetAssert] }
    s.inbox = .resetAssert :: [] ∧ (s.inReset = true ∨ s.busy = false ∨ 0 < s.delay) := by decide

/-- A legal write and read, an illegal read, the release. -/
theorem witness_AccessesDuringReset :
    (∀ op ∈ [BusOp.write 0x000 4 0x20, .read 0x004 4, .read 0x004 1, .resetRelease],
      let s : State := { State.reset with inReset := true, inbox := [op] }
      s.inReset = true ∧ s.busy = false ∧ s.inbox = op :: []) ∧
    AccessAllowed 0x000 4 ∧ AccessAllowed 0x004 4 ∧ ¬ AccessAllowed 0x004 1 :=
  ⟨by decide, by unfold AccessAllowed; decide⟩

theorem witness_AcceptedCommandCompletes : ∀ k ∈ [0, 1, 3],
    let s : State := { working with delay := 3, inbox := hostWait }
    s.inReset = false ∧ s.busy = true ∧ (∀ op ∈ s.inbox, op ≠ .resetAssert) ∧ k ≤ s.delay := by
  decide

theorem witness_StepKeepsBuffers :
    (hosting [.write 0x40000000 1 7]).BuffersOk ∧
      ∃ t, step (hosting [.write 0x40000000 1 7]) = .next t :=
  ⟨⟨Memory.wf_nil, by simp [hosting, State.reset], Memory.wf_nil,
    by simp [hosting, State.reset]⟩, _, rfl⟩

theorem witness_StepKeepsErrorFlag :
    ((due 0x16).err = true ↔ (due 0x16).errCode ≠ .none) ∧ ∃ t, step (due 0x16) = .next t :=
  ⟨by decide, _, rfl⟩

/-- The code table of an alphabet of one symbol, 04, before PACK (as in V3), with one byte of input. -/
def v3Assigned : State :=
  { loaded [4] with
    freq := entries [(4, 1)], order := entries [(0, 4)], nsym := 1, rootWeight := 1, degen := true
    clen := entries [(4, 1)], maxLen := 1, blcount := entries [(1, 1)], hdrLen := 4
    stage := .assigned }

/-- The same run when it is complete. -/
def v3Done : State :=
  { v3Assigned with
    obuf := Memory.writeRange [] 0 [0x20, 1, 1, 4, 0x7F], payloadLen := 1, leftover := 1
    outLen := 5, stage := .done }

theorem v3_buffers : v3Assigned.BuffersOk ∧ v3Done.BuffersOk := by
  constructor <;> constructor <;> decide +kernel

theorem v3_present (b : Byte) : v3Assigned.freq.look b ≠ 0 ↔ b = 4 := by
  have h : v3Assigned.freq = Table.put (Vector.replicate 256 0) 4 1 := rfl
  rw [h, Table.look_put]
  by_cases hb : b = 4 <;> simp [hb]

theorem v3_counted : v3Assigned.Counted where
  nsymLe := by decide
  nodup := by decide +kernel
  mem b := by
    rw [v3_present, show v3Assigned.symbols = [4] by decide +kernel, List.mem_singleton]
  orderZero r hr h := by
    have hn : v3Assigned.nsym.toNat = 1 := rfl
    have e : v3Assigned.order = (Vector.replicate 256 0).set 0 4 (by decide) := rfl
    simp only [e]
    rw [Vector.getElem_set_ne _ _ (by omega)]
    simp
  totalLe := by decide +kernel

theorem v3_lengths : v3Assigned.HasLengths where
  nsymPos := by decide
  rootWeight := by decide +kernel
  degen := rfl
  absent b _ := Table.look_replicate _ b
  single _ b := Table.look_replicate _ b
  many h := absurd h (by decide)
  bound h := absurd h (by decide)
  kraft h := absurd h (by decide)

theorem v3_clen (b : Byte) : v3Assigned.clen.look b = if b = 4 then 1 else 0 := by
  have h : v3Assigned.clen = Table.put (Vector.replicate 256 0) 4 1 := rfl
  rw [h, Table.look_put]
  by_cases hb : b = 4 <;> simp [hb]

theorem v3_codes : v3Assigned.HasCodes where
  clen b := by
    rw [v3_clen, State.canonicalLength, State.present, show v3Assigned.nsym = 1 from rfl]
    have := v3_present b
    by_cases hb : b = 4 <;> simp_all
  maxLen := by decide +kernel
  blcount := by decide +kernel
  code b := by
    rw [show v3Assigned.code.look b = 0 from Table.look_replicate _ b]
    by_cases hb : b = 4
    · subst hb; decide +kernel
    · rw [canonicalCodes_absent _ _ _ (by rw [lengthsOf, v3_clen, if_neg hb]; rfl)]; rfl
  dense := by decide
  hdrLen := by decide

theorem v3Assigned_good : v3Assigned.Good where
  params := by unfold State.ParamsOk; decide
  buffers := v3_buffers.1
  errFlag := by unfold State.ErrOk; decide
  stage := ⟨v3_counted, ⟨rfl, rfl⟩, v3_lengths, v3_codes, ⟨rfl, rfl⟩, rfl⟩

theorem v3Done_good : v3Done.Good where
  params := by unfold State.ParamsOk; decide
  buffers := v3_buffers.2
  errFlag := by unfold State.ErrOk; decide
  stage := ⟨⟨v3_counted.1, v3_counted.2, v3_counted.3, v3_counted.4, v3_counted.5⟩, ⟨rfl, rfl⟩,
    ⟨v3_lengths.1, v3_lengths.2, v3_lengths.3, v3_lengths.4, v3_lengths.5, v3_lengths.6,
      v3_lengths.7, v3_lengths.8⟩,
    ⟨v3_codes.1, v3_codes.2, v3_codes.3, v3_codes.4, v3_codes.5, v3_codes.6⟩,
    ⟨fun _ => by decide, fun h => absurd h (by decide), [4], by decide +kernel⟩,
    ⟨by decide +kernel, by decide⟩⟩

theorem witness_StagedArchiveDecodesToPackedBytes : v3Assigned.Good ∧
    v3Assigned.stage = .assigned ∧ ∃ t u, exec .pack v3Assigned = .next t ∧ t.stage = .packed ∧
      exec .header t = .next u := by
  have h : ends (exec .pack v3Assigned) (fun t =>
      t.stage == .packed && ends (exec .header t) fun _ => true) = true := by decide +kernel
  obtain ⟨t, ht, h⟩ := next_of_ends h
  rw [Bool.and_eq_true, beq_iff_eq] at h
  obtain ⟨u, hu, -⟩ := next_of_ends h.2
  exact ⟨v3Assigned_good, rfl, t, u, ht, h.1, hu⟩

/-- One good state without an archive, one with. -/
theorem witness_ArchivePresentExactlyWhenDone :
    (v3Assigned.Good ∧ v3Assigned.stage ≠ .done) ∧ v3Done.Good ∧ v3Done.stage = .done :=
  ⟨⟨v3Assigned_good, by decide⟩, v3Done_good, rfl⟩

/-- A good state whose next step is a completion step. -/
theorem witness_GoodStatesNeverStop : v3Assigned.Good ∧ v3Done.Good := ⟨v3Assigned_good, v3Done_good⟩

end Sys2Proof.Tests
end

section
/-! PROOFS. Invariants and frames of the state (10_state.md): what PACK and HEADER write to OBUF, what every
command and every step keep. -/

namespace Sys2Proof.Machine

/-! ### Relations all commands keep -/

/-- A reflexive and transitive relation that CLEAR and each stage body keep, every command keeps. -/
theorem commandBody_rel {R : State → State → Prop} (hrefl : ∀ u, R u u)
    (htrans : ∀ a b c, R a b → R b c → R a c) (hclear : ∀ u v, (bodyClear u).leaves v → R u v)
    (hc : ∀ u v, (bodyCount u).leaves v → R u v) (hb : ∀ u v, (bodyBuild u).leaves v → R u v)
    (he : ∀ u v, (bodyExtract u).leaves v → R u v) (ha : ∀ u v, (bodyAssign u).leaves v → R u v)
    (hp : ∀ u v, (bodyPack u).leaves v → R u v) (hh : ∀ u v, (bodyHeader u).leaves v → R u v)
    {i : Instr} {s t : State} (h : (commandBody i s).leaves t) : R s t := by
  have staged : ∀ {i need body}, (∀ u v, (body u).leaves v → R u v) →
      (withStage i need body s).leaves t → R s t := fun hk h => by
    rcases withStage_leaves h with rfl | ⟨-, h⟩
    · exact hrefl _
    · exact hk _ _ h
  cases i with
  | nop =>
    rw [← (BodyResult.leaves_ok s t).1 h]
    exact hrefl s
  | clear => exact hclear _ _ h
  | count => exact hc _ _ h
  | build => exact staged hb h
  | extract => exact staged he h
  | assign => exact staged ha h
  | pack => exact staged hp h
  | header => exact staged hh h
  | run => exact bodyRun_rel htrans hc hb he ha hp hh h

/-- The state an executed command ends in: what its body leaves, with the frame's fields written (R121,
R245). -/
theorem exec_next {i : Instr} {s t : State} (h : exec i s = .next t) :
    ∃ u, (commandBody i s).leaves u ∧
      (t = u.endCommand ∨ ∃ e info, t = (u.takeError e info).endCommand) := by
  rw [exec_eq_complete] at h
  rcases BodyResult.complete_next h with ⟨u, hu, rfl⟩ | ⟨e, info, u, hu, rfl⟩
  · exact ⟨u, .inl hu, .inl rfl⟩
  · exact ⟨u, .inr ⟨e, info, hu⟩, .inr ⟨e, info, rfl⟩⟩

/-! ### What PACK writes to OBUF -/

/-- `m'` is `m` with at most `n` bytes written from offset `hdr` up, all inside a buffer of `size` bytes. -/
def Memory.WrittenFrom (hdr size n : Nat) (m m' : Memory) : Prop :=
  ∃ vs : List Byte, m' = m.writeRange hdr vs ∧ (vs ≠ [] → hdr + vs.length ≤ size) ∧ vs.length ≤ n

theorem Memory.WrittenFrom.refl (hdr size n : Nat) (m : Memory) : Memory.WrittenFrom hdr size n m m :=
  ⟨[], rfl, fun h => absurd rfl h, Nat.zero_le n⟩

theorem Memory.WrittenFrom.mono {hdr size n n' : Nat} {m m' : Memory}
    (h : Memory.WrittenFrom hdr size n m m') (hn : n ≤ n') : Memory.WrittenFrom hdr size n' m m' := by
  obtain ⟨vs, hm, hsize, hlen⟩ := h
  exact ⟨vs, hm, hsize, hlen.trans hn⟩

theorem Memory.WrittenFrom.wf {hdr size n : Nat} {m m' : Memory}
    (h : Memory.WrittenFrom hdr size n m m') (hm : m.wf) : m'.wf := by
  obtain ⟨vs, rfl, -, -⟩ := h
  exact Memory.writeRange_wf vs m hdr hm

theorem Memory.WrittenFrom.within {hdr size n : Nat} {m m' : Memory}
    (h : Memory.WrittenFrom hdr size n m m') (hm : m.within size) : m'.within size := by
  obtain ⟨vs, rfl, hsize, -⟩ := h
  by_cases hvs : vs = []
  · subst hvs
    exact hm
  · exact Memory.writeRange_within vs m hdr size hm (hsize hvs)

/-- A range write leaves the offsets outside the range alone, in every memory. -/
theorem Memory.read_writeRange_outside (vs : List Byte) (m : Memory) (o a : Nat)
    (h : a < o ∨ o + vs.length ≤ a) : (m.writeRange o vs).read a = m.read a := by
  induction vs generalizing m o with
  | nil => rfl
  | cons v vs ih =>
    rw [List.length_cons] at h
    rw [Memory.writeRange, ih _ _ (by omega), Memory.read_write_other _ _ _ _ (by omega)]

theorem Memory.WrittenFrom.read {hdr size n a : Nat} {m m' : Memory}
    (h : Memory.WrittenFrom hdr size n m m') (ha : a < hdr ∨ size ≤ a ∨ hdr + n ≤ a) :
    m'.read a = m.read a := by
  obtain ⟨vs, rfl, hsize, hlen⟩ := h
  by_cases hvs : vs = []
  · subst hvs
    rfl
  · have := hsize hvs
    exact Memory.read_writeRange_outside vs m hdr a (by omega)

/-- After `n` bits PACK's buffer and the bytes it has written, from `m`, hold these bits. -/
structure Packer.Holds (hdr size : Nat) (m : Memory) (n : Nat) (p : Packer) : Prop where
  bits : 8 * p.count + p.bits.length = n
  obuf : ∃ vs : List Byte, p.obuf = m.writeRange hdr vs ∧ (vs ≠ [] → hdr + vs.length ≤ size) ∧
    vs.length = p.count

/-- What a part of PACK that has seen `n` bits leaves: a packer that holds them, or an error with at most
their whole bytes written. -/
def PackResult.Holds (hdr size : Nat) (m : Memory) (n : Nat) : PackResult → Prop
  | .ok p => p.Holds hdr size m n
  | .raised _ _ m' => Memory.WrittenFrom hdr size (n / 8) m m'

theorem Packer.Holds.written {hdr size n k : Nat} {m : Memory} {p : Packer}
    (h : p.Holds hdr size m n) (hk : n / 8 ≤ k) : Memory.WrittenFrom hdr size k m p.obuf := by
  obtain ⟨hbits, vs, hm, hsize, hlen⟩ := h
  exact ⟨vs, hm, hsize, by omega⟩

/-- One more byte, when it has room. -/
theorem Packer.Holds.push {hdr size n : Nat} {m : Memory} {p : Packer} (h : p.Holds hdr size m n)
    (hroom : hdr + p.count < size) (v : Byte) :
    ∃ vs : List Byte, p.obuf.write (hdr + p.count) v = m.writeRange hdr vs ∧
      (vs ≠ [] → hdr + vs.length ≤ size) ∧ vs.length = p.count + 1 := by
  obtain ⟨-, vs, hm, -, hlen⟩ := h
  refine ⟨vs ++ [v], ?_, fun _ => ?_, ?_⟩
  · rw [Memory.writeRange_append, ← hm, hlen]
    rfl
  · rw [List.length_append, List.length_singleton]
    omega
  · rw [List.length_append, List.length_singleton, hlen]

theorem drain_holds (hdr size fuel n : Nat) (m : Memory) (p : Packer) (h : p.Holds hdr size m n) :
    (drain hdr size fuel p).Holds hdr size m n := by
  induction fuel generalizing p with
  | zero => exact h
  | succ fuel ih =>
    rw [drain]
    by_cases h8 : 8 ≤ p.bits.length
    · rw [if_pos h8, emit]
      by_cases hroom : size ≤ hdr + p.count
      · rw [if_pos hroom]
        exact h.written le_rfl
      · rw [if_neg hroom]
        refine ih _ ⟨?_, h.push (by omega) _⟩
        have := h.bits
        simp only [List.length_drop]
        omega
    · rw [if_neg h8]
      exact h

theorem packByte_holds (s : State) (i : Nat) (b : Byte) (n : Nat) (m : Memory) (p : Packer)
    (h : p.Holds s.hdrLen.toNat s.capObufSize.toNat m n) :
    (s.packByte i b p).Holds s.hdrLen.toNat s.capObufSize.toNat m (n + lengthsOf s.clen b) := by
  rw [State.packByte]
  split
  · exact h.written (Nat.div_le_div_right (Nat.le_add_right ..))
  · refine drain_holds _ _ _ _ _ _ ⟨?_, h.obuf⟩
    have := h.bits
    simp only [List.length_append, length_codeBits, lengthsOf]
    omega

theorem packBytes_holds (s : State) (bs : List Byte) (i n : Nat) (m : Memory) (p : Packer)
    (h : p.Holds s.hdrLen.toNat s.capObufSize.toNat m n) :
    (s.packBytes i bs p).Holds s.hdrLen.toNat s.capObufSize.toNat m
      (n + bitCost (lengthsOf s.clen) bs) := by
  induction bs generalizing i n p with
  | nil => exact h
  | cons b bs ih =>
    have hcost : n + bitCost (lengthsOf s.clen) (b :: bs) =
        n + lengthsOf s.clen b + bitCost (lengthsOf s.clen) bs := by
      simp [bitCost, Nat.add_assoc]
    have hb := packByte_holds s i b n m p h
    rw [State.packBytes, hcost]
    cases hp : s.packByte i b p with
    | ok p' =>
      rw [hp] at hb
      exact ih _ _ _ hb
    | raised e info m' =>
      rw [hp] at hb
      exact hb.mono (Nat.div_le_div_right (Nat.le_add_right ..))

/-- OBUF as a part of PACK leaves it. -/
def PackResult.memory : PackResult → Memory
  | .ok p => p.obuf
  | .raised _ _ m => m

/-- The final byte of PACK included, at most `⌈n / 8⌉` bytes are written. -/
theorem packLast_written (s : State) (n : Nat) (m : Memory) (p : Packer)
    (h : p.Holds s.hdrLen.toNat s.capObufSize.toNat m n) :
    Memory.WrittenFrom s.hdrLen.toNat s.capObufSize.toNat ((n + 7) / 8) m (s.packLast p).memory := by
  have hold : Memory.WrittenFrom s.hdrLen.toNat s.capObufSize.toNat ((n + 7) / 8) m p.obuf :=
    h.written (by omega)
  rw [State.packLast]
  by_cases hbits : p.bits.length = 0
  · rw [if_pos hbits]
    exact hold
  · rw [if_neg hbits, emit]
    by_cases hroom : s.capObufSize.toNat ≤ s.hdrLen.toNat + p.count
    · rw [if_pos hroom]
      exact hold
    · rw [if_neg hroom]
      obtain ⟨vs, hm, hsize, hlen⟩ := h.push (by omega)
        (BitVec.ofNat 8 (val (p.bits ++ ones (8 - p.bits.length))))
      have := h.bits
      exact ⟨vs, hm, hsize, by omega⟩

/-- R220 to R225: PACK writes OBUF from HDR_LEN up only, at most the bytes of its input's code stream, and
only inside the buffer, whether or not it raises an error. -/
theorem bodyPack_written {s t : State} (h : (bodyPack s).leaves t) :
    Memory.WrittenFrom s.hdrLen.toNat s.capObufSize.toNat
      ((bitCost (lengthsOf s.clen) s.input + 7) / 8) s.obuf t.obuf := by
  have hloop := packBytes_holds s s.input 0 0 s.obuf ⟨[], 0, s.obuf⟩
    ⟨rfl, [], rfl, fun h => absurd rfl h, rfl⟩
  rw [Nat.zero_add] at hloop
  unfold bodyPack at h
  split at h
  · obtain rfl := (BodyResult.leaves_raised ..).1 h
    exact .refl ..
  · cases hp : s.packBytes 0 s.input ⟨[], 0, s.obuf⟩ with
    | raised e info m =>
      rw [hp] at h hloop
      obtain rfl := (BodyResult.leaves_raised ..).1 h
      exact hloop.mono (by omega)
    | ok p =>
      rw [hp] at h hloop
      have hlast := packLast_written s _ _ p hloop
      simp only at h
      cases hl : s.packLast p with
      | raised e info m =>
        rw [hl] at h hlast
        obtain rfl := (BodyResult.leaves_raised ..).1 h
        exact hlast
      | ok p' =>
        rw [hl] at h hlast
        obtain rfl := (BodyResult.leaves_ok ..).1 h
        exact hlast

/-! ### The buffers -/

/-- Two states agree on the buffers and their capacities. -/
structure SameBuffers (s t : State) : Prop where
  ibuf        : t.ibuf = s.ibuf
  obuf        : t.obuf = s.obuf
  capInMax    : t.capInMax = s.capInMax
  capObufSize : t.capObufSize = s.capObufSize

theorem bodyClear_sameBuffers {s t : State} (h : (bodyClear s).leaves t) : SameBuffers s t := by
  obtain rfl := (BodyResult.leaves_ok ..).1 h
  exact ⟨rfl, rfl, rfl, rfl⟩

theorem bodyCount_sameBuffers {s t : State} (h : (bodyCount s).leaves t) : SameBuffers s t := by
  rcases bodyCount_leaves h with rfl | ⟨_, _, _, rfl⟩ <;> exact ⟨rfl, rfl, rfl, rfl⟩

theorem bodyBuild_sameBuffers {s t : State} (h : (bodyBuild s).leaves t) : SameBuffers s t := by
  rcases bodyBuild_leaves h with rfl | ⟨_, _, _, rfl⟩ <;> exact ⟨rfl, rfl, rfl, rfl⟩

theorem bodyExtract_sameBuffers {s t : State} (h : (bodyExtract s).leaves t) : SameBuffers s t := by
  obtain ⟨_, _, rfl⟩ := bodyExtract_leaves h
  exact ⟨rfl, rfl, rfl, rfl⟩

theorem bodyAssign_sameBuffers {s t : State} (h : (bodyAssign s).leaves t) : SameBuffers s t := by
  obtain ⟨_, _, _, _, _, _, rfl⟩ := bodyAssign_leaves h
  exact ⟨rfl, rfl, rfl, rfl⟩

/-- The buffers' form depends on the buffers and the capacities alone. -/
theorem State.BuffersOk.congr {s t : State} (h : s.BuffersOk) (hst : SameBuffers s t) :
    t.BuffersOk where
  ibufWf := hst.ibuf ▸ h.ibufWf
  ibufWithin := hst.ibuf ▸ hst.capInMax ▸ h.ibufWithin
  obufWf := hst.obuf ▸ h.obufWf
  obufWithin := hst.obuf ▸ hst.capObufSize ▸ h.obufWithin

theorem bodyPack_buffersOk {s t : State} (h : (bodyPack s).leaves t) (hs : s.BuffersOk) :
    t.BuffersOk := by
  have hw := bodyPack_written h
  have hwf := hw.wf hs.obufWf
  have hwithin := hw.within hs.obufWithin
  obtain ⟨_, _, _, _, rfl⟩ := bodyPack_leaves h
  exact ⟨hs.ibufWf, hs.ibufWithin, hwf, hwithin⟩

theorem bodyHeader_buffersOk {s t : State} (h : (bodyHeader s).leaves t) (hs : s.BuffersOk) :
    t.BuffersOk := by
  obtain ⟨hlen, rfl⟩ := bodyHeader_leaves h
  exact ⟨hs.ibufWf, hs.ibufWithin, Memory.writeRange_wf _ _ _ hs.obufWf,
    Memory.writeRange_within _ _ _ _ hs.obufWithin (by rwa [Nat.zero_add])⟩

/-- The body of every command keeps the buffers' form. -/
theorem commandBody_buffersOk {i : Instr} {s t : State} (h : (commandBody i s).leaves t)
    (hs : s.BuffersOk) : t.BuffersOk :=
  commandBody_rel (R := fun u v => u.BuffersOk → v.BuffersOk) (fun _ h => h)
    (fun _ _ _ h k hs => k (h hs))
    (fun _ _ h hu => hu.congr (bodyClear_sameBuffers h))
    (fun _ _ h hu => hu.congr (bodyCount_sameBuffers h))
    (fun _ _ h hu => hu.congr (bodyBuild_sameBuffers h))
    (fun _ _ h hu => hu.congr (bodyExtract_sameBuffers h))
    (fun _ _ h hu => hu.congr (bodyAssign_sameBuffers h))
    (fun _ _ => bodyPack_buffersOk) (fun _ _ => bodyHeader_buffersOk) h hs

theorem exec_buffersOk {i : Instr} {s t : State} (h : exec i s = .next t) (hs : s.BuffersOk) :
    t.BuffersOk := by
  obtain ⟨u, hu, rfl | ⟨e, info, rfl⟩⟩ := exec_next h <;>
    exact (commandBody_buffersOk hu hs).congr ⟨rfl, rfl, rfl, rfl⟩

theorem resetEvent_buffersOk (s : State) : s.resetEvent.BuffersOk :=
  ⟨Memory.ofImage_wf .., Memory.ofImage_within _ _, Memory.ofImage_wf .., Memory.ofImage_within _ _⟩

theorem HostEffect.buffersOk {s t : State} (h : HostEffect s t) (hs : s.BuffersOk) : t.BuffersOk := by
  cases h with
  | input _ _ o n v =>
    exact ⟨scatter_wf _ _ _ _ _ hs.ibufWf, scatter_within _ _ _ _ _ hs.ibufWithin, hs.obufWf,
      hs.obufWithin⟩
  | reset => exact resetEvent_buffersOk _
  | _ => exact hs.congr ⟨rfl, rfl, rfl, rfl⟩

/-- A tick changes the delay alone. -/
theorem exists_tick_eq (s : State) : ∃ d, s.tick = { s with delay := d } := by
  by_cases hb : s.busy = true
  · exact ⟨_, tick_busy hb⟩
  · exact ⟨s.delay, tick_idle (Bool.eq_false_iff.2 hb)⟩

theorem State.BuffersOk.tick {s : State} (h : s.BuffersOk) : s.tick.BuffersOk := by
  obtain ⟨d, hd⟩ := exists_tick_eq s
  rw [hd]
  exact h.congr ⟨rfl, rfl, rfl, rfl⟩

/-- Settles O57: a command writes OBUF inside the buffer only, the host IBUF, and a reset takes an image cut
to the capacities. -/
theorem stepKeepsBuffers : Obligations.StepKeepsBuffers := by
  intro s t hs h
  rcases step_cases h with ⟨-, ⟨i, -, hi⟩ | ⟨-, rfl⟩⟩ | ⟨-, -, ht⟩
  · exact exec_buffersOk hi hs
  · exact hs.congr ⟨rfl, rfl, rfl, rfl⟩
  · exact ht.buffersOk hs.tick

end Sys2Proof.Machine
end

section
/-! PROOFS. Sums over all byte values, the counts of a run (R142), and the length of the header block (R105). -/

namespace Sys2Proof.Machine

/-! ### Sums over all byte values -/

/-- A sum over all byte values is the sum over a list of distinct bytes outside which the terms are 0. -/
theorem sum_allBytes_eq {l : List Byte} (hl : l.Nodup) {f : Byte → Nat} (hf : ∀ b, b ∉ l → f b = 0) :
    (allBytes.map f).sum = (l.map f).sum := by
  have hin : (allBytes.filter (· ∈ l)).Perm l :=
    (List.perm_ext_iff_of_nodup (allBytes_nodup.filter _) hl).2 fun b => by simp
  have hout : ((allBytes.filter fun b => ¬ b ∈ l).map f).sum = 0 := by
    rw [List.sum_eq_zero_iff]
    intro x hx
    obtain ⟨b, hb, rfl⟩ := List.mem_map.1 hx
    exact hf b (by simpa using hb)
  have hsplit := (List.filter_append_perm (fun b => decide (b ∈ l)) allBytes).map f
  rw [← hsplit.sum_eq, List.map_append, List.sum_append, (hin.map f).sum_eq]
  simpa using hout

/-- Every byte of an input is counted once. -/
theorem sum_count_allBytes (xs : List Byte) : (allBytes.map fun b => xs.count b).sum = xs.length := by
  have h := bitCost_eq_sum_count (fun _ => 1) xs allBytes allBytes_nodup fun b _ => mem_allBytes b
  simpa [bitCost] using h.symm

/-! ### The counts of a run -/

@[simp] theorem State.length_input (s : State) : s.input.length = s.inLen.toNat := by
  simp [State.input]

/-- ORDER lists exactly NSYM bytes. -/
theorem State.Counted.length_symbols {s : State} (h : s.Counted) : s.symbols.length = s.nsym.toNat := by
  rw [State.symbols, List.length_take, Vector.length_toList]
  exact Nat.min_eq_left h.nsymLe

/-- The counts of the symbols add up to the number of bytes counted. -/
theorem State.Counted.sum_symbols {s : State} (h : s.Counted) :
    (s.symbols.map fun b => (s.freq.look b).toNat).sum = s.total :=
  (sum_allBytes_eq h.nodup fun b hb => by
    have := mt (h.mem b).2 hb
    rw [not_not] at this
    rw [this]
    rfl).symm

/-- NSYM is the number of bytes present. -/
theorem State.Counted.length_present {s : State} (h : s.Counted) :
    (allBytes.filter fun b => s.freq.look b ≠ 0).length = s.nsym.toNat := by
  rw [← h.length_symbols]
  exact ((List.perm_ext_iff_of_nodup (allBytes_nodup.filter _) h.nodup).2 fun b => by
    simp [h.mem b]).length_eq

/-! ### The header block -/

theorem length_bucket_le (lengths : Byte → Nat) (n : Nat) : (bucket lengths n).length ≤ 256 :=
  length_le_of_nodup _ (bucket_nodup lengths n)

theorem bucketSize_le (lengths : Byte → Nat) (n : Nat) : bucketSize lengths n ≤ 256 := by
  unfold bucketSize
  split
  · omega
  · exact length_bucket_le lengths n

/-- The buckets of the lengths `1` to `k` together hold the bytes of these lengths. -/
theorem length_flatMap_bucket (lengths : Byte → Nat) (k : Nat) :
    ((List.range' 1 k).flatMap fun n => bucket lengths n).length =
      (allBytes.filter fun b => 1 ≤ lengths b ∧ lengths b ≤ k).length := by
  induction k with
  | zero =>
    have : (allBytes.filter fun b => decide (1 ≤ lengths b ∧ lengths b ≤ 0)) = [] := by
      rw [List.filter_eq_nil_iff]
      intro b _
      simp only [decide_eq_true_eq]
      omega
    rw [this]
    rfl
  | succ k ih =>
    rw [List.range'_1_concat, List.flatMap_append, List.length_append, ih, List.flatMap_singleton,
      bucket, ← List.countP_eq_length_filter, ← List.countP_eq_length_filter,
      ← List.countP_eq_length_filter]
    induction allBytes with
    | nil => rfl
    | cons b l ihl =>
      simp only [List.countP_cons, decide_eq_true_eq]
      split_ifs <;> omega

/-- The number of symbols in canonical order (R202). -/
theorem State.length_canonicalOrder (s : State) :
    s.canonicalOrder.length = (allBytes.filter fun b => 1 ≤ (s.clen.look b).toNat ∧
      (s.clen.look b).toNat ≤ s.maxLen.toNat).length :=
  length_flatMap_bucket (lengthsOf s.clen) s.maxLen.toNat

/-- The header block's length, from the fields it is made of (R201 to R203). -/
theorem State.length_headerBytes (s : State) :
    s.headerBytes.length = if s.dense then 257 else 2 + s.maxLen.toNat +
      (allBytes.filter fun b => 1 ≤ (s.clen.look b).toNat ∧
        (s.clen.look b).toNat ≤ s.maxLen.toNat).length := by
  rw [← s.length_canonicalOrder, State.headerBytes]
  split
  · simp [State.denseTable]
  · simp only [State.sparseTable, List.length_cons, List.length_append, List.length_map,
      List.length_range']
    omega

end Sys2Proof.Machine
end

section
/-! PROOFS. Good states (R54): the table of R54 depends on the run's fields alone, and each stage's body takes
its row to the next row or raises an error that aborts the run. -/

namespace Sys2Proof.Machine

/-! ### The part of a state R54's table speaks of -/

/-- The run's fields of a state, every other field at its reset value. -/
def State.runPart (s : State) : State :=
  { State.reset with
    stage := s.stage
    degen := s.degen
    dense := s.dense
    nsym := s.nsym
    root := s.root
    rootWeight := s.rootWeight
    maxLen := s.maxLen
    hdrLen := s.hdrLen
    payloadLen := s.payloadLen
    leftover := s.leftover
    outLen := s.outLen
    capInMax := s.capInMax
    capObufSize := s.capObufSize
    freq := s.freq
    order := s.order
    len := s.len
    clen := s.clen
    blcount := s.blcount
    code := s.code
    node := s.node
    obuf := s.obuf }

theorem State.counted_runPart (s : State) : s.runPart.Counted ↔ s.Counted :=
  ⟨fun h => { h with }, fun h => { h with }⟩

theorem State.noTree_runPart (s : State) : s.runPart.NoTree ↔ s.NoTree :=
  ⟨fun h => { h with }, fun h => { h with }⟩

theorem State.noLengths_runPart (s : State) : s.runPart.NoLengths ↔ s.NoLengths :=
  ⟨fun h => { h with }, fun h => { h with }⟩

theorem State.noCodes_runPart (s : State) : s.runPart.NoCodes ↔ s.NoCodes :=
  ⟨fun h => { h with }, fun h => { h with }⟩

theorem State.noPayload_runPart (s : State) : s.runPart.NoPayload ↔ s.NoPayload :=
  ⟨fun h => { h with }, fun h => { h with }⟩

theorem State.hasTree_runPart (s : State) : s.runPart.HasTree ↔ s.HasTree :=
  ⟨fun h => { h with }, fun h => { h with }⟩

theorem State.hasLengths_runPart (s : State) : s.runPart.HasLengths ↔ s.HasLengths :=
  ⟨fun h => { h with }, fun h => { h with }⟩

theorem State.hasCodes_runPart (s : State) : s.runPart.HasCodes ↔ s.HasCodes :=
  ⟨fun h => { h with }, fun h => { h with }⟩

theorem State.hasPayload_runPart (s : State) : s.runPart.HasPayload ↔ s.HasPayload :=
  ⟨fun h => { h with }, fun h => { h with }⟩

theorem State.hasArchive_runPart (s : State) : s.runPart.HasArchive ↔ s.HasArchive :=
  ⟨fun h => { h with }, fun h => { h with }⟩

theorem State.stageOk_runPart (s : State) : s.runPart.StageOk ↔ s.StageOk := by
  have hstage : s.runPart.stage = s.stage := rfl
  have hout : s.runPart.outLen = s.outLen := rfl
  have hweight : s.runPart.rootWeight = s.rootWeight := rfl
  unfold State.StageOk
  rw [hstage]
  cases s.stage <;>
    simp only [hout, hweight, s.counted_runPart, s.noTree_runPart, s.noLengths_runPart,
      s.noCodes_runPart, s.noPayload_runPart, s.hasTree_runPart, s.hasLengths_runPart,
      s.hasCodes_runPart, s.hasPayload_runPart, s.hasArchive_runPart]

/-- States with the same run fields are in the same row of R54's table. -/
theorem State.StageOk.congr {s t : State} (h : s.StageOk) (e : t.runPart = s.runPart) : t.StageOk := by
  rw [← State.stageOk_runPart, e, State.stageOk_runPart]
  exact h

/-! ### Bodies that go on or abort the run -/

/-- A body ends in a state with `P`, or raises an error that aborts the run (R245); it is never stuck. -/
def BodyResult.Reaches (P : State → Prop) : BodyResult → Prop
  | .ok t => P t
  | .raised e _ _ => e.aborts = true
  | .stuck _ => False

theorem BodyResult.Reaches.andThen {P Q : State → Prop} {r : BodyResult} {f : State → BodyResult}
    (h : r.Reaches P) (hf : ∀ t, P t → (f t).Reaches Q) : (r.andThen f).Reaches Q := by
  cases r with
  | ok t => exact hf t h
  | raised e info t => exact h
  | stuck r => exact h

theorem BodyResult.Reaches.mono {P Q : State → Prop} {r : BodyResult} (h : r.Reaches P)
    (hPQ : ∀ t, P t → Q t) : r.Reaches Q := by
  cases r with
  | ok t => exact hPQ t h
  | raised e info t => exact h
  | stuck r => exact h

/-- A good state with a given STAGE. -/
def State.GoodAt (st : Stage) (s : State) : Prop := s.Good ∧ s.stage = st

theorem State.ErrOk.of_sameHost {s t : State} (h : s.ErrOk) (hst : SameHost s t) : t.ErrOk := by
  unfold State.ErrOk
  rw [hst.err, hst.errCode]
  exact h

/-- What a body of a command leaves is good when it is in its row of R54's table. -/
theorem State.Good.of_body {i : Instr} {s t : State} (hs : s.Good) (h : (commandBody i s).leaves t)
    (ht : t.StageOk) : t.Good where
  params := by
    unfold State.ParamsOk
    rw [(commandBody_sameHost h).capInMax, (commandBody_sameHost h).capObufSize]
    exact hs.params
  buffers := commandBody_buffersOk h hs.buffers
  errFlag := hs.errFlag.of_sameHost (commandBody_sameHost h)
  stage := ht

/-- The bounds of R6. -/
theorem State.ParamsOk.bounds {s : State} (h : s.ParamsOk) :
    1 ≤ s.capInMax.toNat ∧ s.capInMax.toNat ≤ 2 ^ 30 ∧ 257 ≤ s.capObufSize.toNat ∧
      s.capObufSize.toNat ≤ 2 ^ 30 := by
  simpa [State.ParamsOk, paramsWf, and_assoc] using h

/-! ### COUNT -/

/-- Tables that hold the counts of an input that fits IBUF are in the form of R142. -/
theorem Counts.Of.counted {s : State} {xs ds : List Byte}
    (h : Counts.Of xs ds ⟨s.freq, s.order, s.nsym⟩) (hxs : xs.length ≤ s.capInMax.toNat) :
    s.Counted := by
  have hnsym : s.nsym.toNat = ds.length := h.nsym
  have horder : ∀ r, s.order[r]? = if r < 256 then some (ds[r]?.getD 0) else none := h.order
  have hlen := length_le_of_nodup ds h.nodup
  have hsymbols : s.symbols = ds := by
    refine List.ext_getElem? fun r => ?_
    rw [State.symbols, List.getElem?_take, Vector.getElem?_toList, horder, hnsym]
    by_cases hr : r < ds.length
    · rw [if_pos hr, if_pos (by omega), List.getElem?_eq_getElem hr, Option.getD_some]
    · rw [if_neg hr, List.getElem?_eq_none (by omega)]
  exact
    { nsymLe := hnsym ▸ hlen
      nodup := hsymbols ▸ h.nodup
      mem := fun b => by
        have hf : (s.freq.look b).toNat = xs.count b := h.freq b
        rw [hsymbols, h.mem b, ← List.count_pos_iff, ← hf, Nat.pos_iff_ne_zero, Ne, Ne,
          BitVec.toNat_eq]
        rfl
      orderZero := fun r hr hlt => by
        have h0 := horder r
        rw [if_pos hlt, List.getElem?_eq_none (by omega), Vector.getElem?_eq_getElem hlt] at h0
        exact Option.some.inj h0
      totalLe := by
        have hsum : s.total = xs.length := by
          rw [State.total, ← sum_count_allBytes xs]
          exact congrArg List.sum (List.map_congr_left fun b _ => h.freq b)
        omega }

/-- R142: COUNT of an input that fits IBUF. -/
theorem bodyCount_ok {s : State} (h : s.inLen.toNat ≤ s.capInMax.toNat) :
    ∃ freq order nsym, bodyCount s = .ok { s.clearRun with
      freq := freq, order := order, nsym := nsym, stage := .counted } ∧
      ∃ ds, Counts.Of s.input ds ⟨freq, order, nsym⟩ := by
  have htoo : s.inputTooLong = false := by simpa [State.inputTooLong] using h
  refine ⟨_, _, _, by rw [bodyCount, htoo]; rfl, ?_⟩
  exact Counts.of_foldl s.input (by rw [s.length_input]; exact s.inLen.isLt)

theorem bodyCount_reaches {s : State} (hs : s.Good) : (bodyCount s).Reaches (State.GoodAt .counted) := by
  by_cases h : s.inLen.toNat ≤ s.capInMax.toNat
  · obtain ⟨freq, order, nsym, hok, ds, hcounts⟩ := bodyCount_ok h
    rw [hok]
    refine ⟨hs.of_body (i := .count) (.inl hok) ?_, rfl⟩
    exact ⟨hcounts.counted (by rw [s.length_input]; exact h), ⟨rfl, rfl⟩, rfl, ⟨rfl, rfl⟩,
      ⟨rfl, rfl, rfl, rfl, rfl, rfl⟩, ⟨rfl, rfl⟩, rfl⟩
  · have htoo : s.inputTooLong = true := by simpa [State.inputTooLong] using h
    rw [bodyCount, htoo]
    rfl

/-! ### BUILD -/

/-- The symbols by rank. -/
theorem State.symbols_eq_map (s : State) (h : s.nsym.toNat ≤ 256) :
    s.symbols = (List.range s.nsym.toNat).map fun r => s.order[r]?.getD 0 := by
  refine List.ext_getElem? fun r => ?_
  rw [State.symbols, List.getElem?_take, Vector.getElem?_toList, List.getElem?_map]
  by_cases hr : r < s.nsym.toNat
  · rw [if_pos hr, List.getElem?_range hr, Option.map_some,
      Vector.getElem?_eq_getElem (lt_of_lt_of_le hr h), Option.getD_some]
  · rw [if_neg hr, List.getElem?_eq_none (by simpa using hr)]
    rfl

/-- The tree of one symbol: a leaf with its count. -/
def State.leafTree (s : State) (r : Nat) : HuffTree :=
  .leaf (s.order[r]?.getD 0) (s.freq.look (s.order[r]?.getD 0)).toNat

theorem leafArena_below (s : State) {n r : Nat} (hr : r < n) (hn : n ≤ 256) :
    Below (s.leafArena n) 256 r (s.leafTree r) := by
  refine ⟨by omega, s.leafNode r, ?_, rfl, rfl, rfl, rfl⟩
  rw [State.leafArena, getElem?_vecOfFn, if_pos (by omega), if_pos hr]

theorem initialSequence_perm (nodes : Arena) (n : Nat) :
    (initialSequence nodes n).Perm (List.range n) := stableSortDesc_perm _ _

/-- R157: BUILD of a counted run with symbols leaves their tree. -/
theorem bodyBuild_ok {s : State} (h : s.Counted) (hn : s.nsym ≠ 0) (htotal : s.total < 2 ^ 32) :
    ∃ node root rootWeight, bodyBuild s = .ok { s with
      node := node, root := root, rootWeight := rootWeight, stage := .built } ∧
      rootWeight.toNat = s.total ∧ ∃ t : HuffTree, Represents node root.toNat t ∧
        t.symbols.Perm s.symbols ∧ t.weight = s.total := by
  have hpos : s.nsym.toNat ≠ 0 := fun h0 => hn (BitVec.eq_of_toNat_eq h0)
  have hle := h.nsymLe
  have hperm := initialSequence_perm (s.leafArena s.nsym.toNat) s.nsym.toNat
  have hlength := hperm.length_eq
  rw [List.length_range] at hlength
  have hweights : ((initialSequence (s.leafArena s.nsym.toNat) s.nsym.toNat).map fun i =>
      (s.leafTree i).weight).sum = s.total := by
    rw [(hperm.map _).sum_eq, ← h.sum_symbols, s.symbols_eq_map hle, List.map_map]
    rfl
  obtain ⟨nodes, root, t, hloop, hbelow, hsymbols, hweight, -, -⟩ :=
    mergeLoop_spec s.nsym.toNat 0 (s.leafArena s.nsym.toNat) _ s.leafTree
      (by rw [← List.length_pos_iff]; omega) (by omega) (by omega)
      (fun i hi => leafArena_below s (List.mem_range.1 (hperm.mem_iff.1 hi)) hle)
      (by rw [hweights]; exact htotal)
  have hroot : (BitVec.ofNat 9 root).toNat = root := by
    have := hbelow.lt
    rw [BitVec.toNat_ofNat]
    exact Nat.mod_eq_of_lt (by omega)
  refine ⟨nodes, BitVec.ofNat 9 root, weightOf nodes root, ?_, ?_, t, ?_, ?_, ?_⟩
  · simp only [bodyBuild]
    rw [if_neg hpos, if_neg (by omega), hloop]
    rfl
  · rw [hbelow.weightOf, hweight, hweights]
  · rw [hroot]
    exact hbelow.represents
  · refine hsymbols.trans ?_
    rw [s.symbols_eq_map hle]
    refine (hperm.flatMap_right _).trans (List.Perm.of_eq ?_)
    exact List.map_eq_flatMap.symm
  · rw [hweight, hweights]

theorem State.Counted.total_lt {s : State} (h : s.Counted) (hp : s.ParamsOk) : s.total < 2 ^ 32 := by
  have := h.totalLe
  have := hp.bounds
  omega

theorem bodyBuild_reaches {s : State} (hs : s.GoodAt .counted) :
    (bodyBuild s).Reaches (State.GoodAt .built) := by
  obtain ⟨hgood, hstage⟩ := hs
  have row := hgood.stage
  rw [State.StageOk, hstage] at row
  obtain ⟨hcounted, -, -, hlengths, hcodes, hpayload, hout⟩ := row
  by_cases hn : s.nsym = 0
  · rw [bodyBuild, hn]
    rfl
  · obtain ⟨node, root, rootWeight, hok, hweight, t, hrep, hperm, htotal⟩ :=
      bodyBuild_ok hcounted hn (hcounted.total_lt hgood.params)
    have hheight : t.height ≤ 255 := by
      have := t.height_lt
      have := hperm.length_eq
      have := hcounted.length_symbols
      have := hcounted.nsymLe
      omega
    rw [hok]
    refine ⟨hgood.of_body (i := .build) ?_ ?_, rfl⟩
    · exact .inl ((withStage_of_eq _ _ _ _ hstage).trans hok)
    · exact ⟨{ hcounted with }, ⟨⟨t, hrep, hperm, hheight, htotal⟩, hweight⟩, { hlengths with },
        { hcodes with }, { hpayload with }, hout⟩

/-! ### EXTRACT -/

theorem Represents.isLeafAt {nodes : Arena} {n : Nat} {t : HuffTree} (h : Represents nodes n t) :
    isLeafAt nodes n = t.isLeaf := by
  cases t with
  | leaf b w =>
    obtain ⟨nd, hnd, -, hleaf, -⟩ := h
    simp [Sys2Proof.Machine.isLeafAt, hnd, hleaf, HuffTree.isLeaf]
  | node l r =>
    obtain ⟨nd, hnd, -, hleaf, -⟩ := h
    simp [Sys2Proof.Machine.isLeafAt, hnd, hleaf, HuffTree.isLeaf]

/-- A tree is a bare leaf exactly when it has one symbol (R172). -/
theorem HuffTree.isLeaf_eq (t : HuffTree) : t.isLeaf = decide (t.symbols.length = 1) := by
  cases t with
  | leaf b w => rfl
  | node l r =>
    have hl := l.symbols_pos
    have hr := r.symbols_pos
    simp only [HuffTree.isLeaf, HuffTree.symbols, List.length_append, false_eq_decide_iff]
    omega

theorem HuffTree.exists_depth {t : HuffTree} {b : Byte} (h : b ∈ t.symbols) :
    ∃ d, (b, d) ∈ t.depths 0 := by
  rw [← t.map_fst_depths 0] at h
  obtain ⟨p, hp, rfl⟩ := List.mem_map.1 h
  exact ⟨p.2, hp⟩

/-- Every leaf of a tree of two or more symbols has a positive depth. -/
theorem HuffTree.depth_pos {t : HuffTree} (ht : 2 ≤ t.symbols.length) {p : Byte × Nat}
    (h : p ∈ t.depths 0) : 1 ≤ p.2 := by
  cases t with
  | leaf b w => simp [HuffTree.symbols] at ht
  | node l r =>
    rcases List.mem_append.1 h with h | h
    · exact (l.depth_le 1 p h).1
    · exact (r.depth_le 1 p h).1

/-- A table that holds the depths of a tree, and 0 for every other byte (R170 to R172). -/
structure HuffTree.DepthsIn (t : HuffTree) (len : Table Byte) : Prop where
  depth  : ∀ p ∈ t.depths 0, (len.look p.1).toNat = p.2
  absent : ∀ b, b ∉ t.symbols → len.look b = 0

theorem HuffTree.depthsIn_putDepths {t : HuffTree} (hheight : t.height ≤ 255)
    (hnodup : t.symbols.Nodup) :
    t.DepthsIn (putDepths (Vector.replicate 256 0) (t.depths 0)) where
  depth p hp := by
    have := (t.depth_le 0 p hp).2
    rw [putDepths_mem _ _ _ (by rwa [t.map_fst_depths]) hp, BitVec.toNat_ofNat]
    exact Nat.mod_eq_of_lt (by omega)
  absent b hb := by
    rw [putDepths_notMem _ _ _ (by rwa [t.map_fst_depths]), Table.look_replicate]

section
variable {t : HuffTree} {len : Table Byte} (h : t.DepthsIn len)
include h

theorem HuffTree.DepthsIn.length_le (b : Byte) : (len.look b).toNat ≤ t.height := by
  by_cases hb : b ∈ t.symbols
  · obtain ⟨d, hd⟩ := HuffTree.exists_depth hb
    have hle : d ≤ 0 + t.height := (t.depth_le 0 _ hd).2
    have hlook : (len.look b).toNat = d := h.depth _ hd
    omega
  · rw [h.absent b hb]
    exact Nat.zero_le _

theorem HuffTree.DepthsIn.ne_zero (ht : 2 ≤ t.symbols.length) {b : Byte} (hb : b ∈ t.symbols) :
    (len.look b).toNat ≠ 0 := by
  obtain ⟨d, hd⟩ := HuffTree.exists_depth hb
  have hpos : 1 ≤ d := HuffTree.depth_pos ht hd
  have hlook : (len.look b).toNat = d := h.depth _ hd
  omega

/-- R174: the lengths of a tree of two or more symbols reach Kraft's bound. -/
theorem HuffTree.DepthsIn.kraft (ht : 2 ≤ t.symbols.length) (hheight : t.height ≤ 255)
    (hnodup : t.symbols.Nodup) : kraftSum (lengthsOf len) = 2 ^ 255 := by
  have hterm : ∀ p ∈ t.depths 0, (if lengthsOf len p.1 = 0 then 0 else 2 ^ (255 - lengthsOf len p.1)) =
      2 ^ (255 - p.2) := fun p hp => by
    have := HuffTree.depth_pos ht hp
    rw [lengthsOf, h.depth p hp, if_neg (by omega)]
  calc kraftSum (lengthsOf len)
      = (t.symbols.map fun b =>
          if lengthsOf len b = 0 then 0 else 2 ^ (255 - lengthsOf len b)).sum :=
        sum_allBytes_eq hnodup fun b hb => if_pos (by rw [lengthsOf, h.absent b hb]; rfl)
    _ = ((t.depths 0).map fun p => 2 ^ (255 - p.2)).sum := by
        rw [← t.map_fst_depths 0, List.map_map]
        exact congrArg List.sum (List.map_congr_left hterm)
    _ = 2 ^ 255 := t.kraft 0 (by omega)

end

/-- R170 to R174: EXTRACT of a built run leaves the depths of its tree. -/
theorem bodyExtract_ok {s : State} (hcounted : s.Counted) (htree : s.HasTree)
    (hlengths : s.NoLengths) :
    ∃ len degen, bodyExtract s = .ok { s with
      len := len, degen := degen, node := Vector.replicate 511 Node.empty, root := 0,
      stage := .extracted } ∧
      degen = decide (s.nsym = 1) ∧ ∃ t : HuffTree, t.DepthsIn len ∧ t.symbols.Perm s.symbols ∧
        t.height ≤ 255 := by
  obtain ⟨⟨t, hrep, hperm, hheight, -⟩, -⟩ := htree
  refine ⟨putDepths s.len (t.depths 0), isLeafAt s.node s.root.toNat, ?_, ?_, t, ?_, hperm, hheight⟩
  · rw [bodyExtract, walk_represents hrep 256 0 s.len (by omega)]
  · rw [hrep.isLeafAt, t.isLeaf_eq, hperm.length_eq, hcounted.length_symbols, decide_eq_decide,
      BitVec.toNat_eq]
    rfl
  · rw [hlengths.len]
    exact HuffTree.depthsIn_putDepths hheight (hperm.nodup_iff.2 hcounted.nodup)

/-- The depths of the run's tree are lengths in the form of R172 and R174. -/
theorem HuffTree.DepthsIn.hasLengths {s : State} {t : HuffTree} (h : t.DepthsIn s.len)
    (hcounted : s.Counted) (hperm : t.symbols.Perm s.symbols) (hheight : t.height ≤ 255)
    (hweight : s.rootWeight.toNat = s.total) (hdegen : s.degen = decide (s.nsym = 1)) :
    s.HasLengths := by
  have hlength : t.symbols.length = s.nsym.toNat := hperm.length_eq.trans hcounted.length_symbols
  have hlt := t.height_lt
  have hmem : ∀ b, b ∈ t.symbols ↔ s.freq.look b ≠ 0 := fun b =>
    hperm.mem_iff.trans (hcounted.mem b)
  exact
    { nsymPos := by omega
      rootWeight := hweight
      degen := hdegen
      absent := fun b hb => h.absent b fun hm => (hmem b).1 hm hb
      single := fun h1 b => BitVec.eq_of_toNat_eq (by
        have hone : s.nsym.toNat = 1 := by rw [h1]; rfl
        have := h.length_le b
        have hzero : (0 : Byte).toNat = 0 := rfl
        omega)
      many := fun h2 b hb h0 => h.ne_zero (by omega) ((hmem b).2 hb) (by rw [h0]; rfl)
      bound := fun _ b => by
        have := h.length_le b
        omega
      kraft := fun h2 => h.kraft (by omega) hheight (hperm.nodup_iff.2 hcounted.nodup) }

theorem bodyExtract_reaches {s : State} (hs : s.GoodAt .built) :
    (bodyExtract s).Reaches (State.GoodAt .extracted) := by
  obtain ⟨hgood, hstage⟩ := hs
  have row := hgood.stage
  rw [State.StageOk, hstage] at row
  obtain ⟨hcounted, htree, hlengths, hcodes, hpayload, hout⟩ := row
  obtain ⟨len, degen, hok, hdegen, t, hdepths, hperm, hheight⟩ :=
    bodyExtract_ok hcounted htree hlengths
  rw [hok]
  refine ⟨hgood.of_body (i := .extract) ?_ ?_, rfl⟩
  · exact .inl ((withStage_of_eq _ _ _ _ hstage).trans hok)
  · have hcounted' : State.Counted { s with
        len := len, degen := degen, node := Vector.replicate 511 Node.empty, root := 0,
        stage := .extracted } := { hcounted with }
    exact ⟨hcounted', ⟨rfl, rfl⟩,
      hdepths.hasLengths hcounted' hperm hheight htree.rootWeight hdegen, { hcodes with },
      { hpayload with }, hout⟩

/-! ### ASSIGN -/

@[simp] theorem State.look_canonicalLengths (s : State) (b : Byte) :
    s.canonicalLengths.look b = s.canonicalLength b := by
  simp [State.canonicalLengths]

/-- MAXLEN fits its register. -/
theorem largestLength_lengthsOf_le (t : Table Byte) : largestLength (lengthsOf t) ≤ 255 :=
  largestLength_le _ _ fun b => by
    have := (t.look b).isLt
    rw [lengthsOf]
    omega

/-- CODE, where no codes were stored: every code value fits its register (R184). -/
theorem State.toNat_look_assignedCodes {s : State} (hcode : s.code = Vector.replicate 256 0)
    (clen : Table Byte) (b : Byte) :
    ((s.assignedCodes clen (largestLength (lengthsOf clen))).look b).toNat =
      (canonicalCodes (lengthsOf clen) (largestLength (lengthsOf clen))).look b := by
  rw [State.assignedCodes, Table.look_vecOfFn]
  simp only [BitVec.ofNat_toNat, BitVec.setWidth_eq]
  split
  · rename_i h0
    have hlength : lengthsOf clen b = 0 := by rw [lengthsOf, h0]; rfl
    rw [hcode, Table.look_replicate, canonicalCodes_absent _ _ _ hlength]
    rfl
  · have hlt := canonicalCodes_lt (lengthsOf clen) (largestLength (lengthsOf clen)) b
    have hpow : 2 ^ lengthsOf clen b ≤ 2 ^ 255 :=
      Nat.pow_le_pow_right (by omega) ((le_largestLength _ b).trans (largestLength_lengthsOf_le clen))
    rw [BitVec.toNat_ofNat]
    exact Nat.mod_eq_of_lt (hlt.trans_le hpow)

/-- HDR_LEN fits its 9 bits (R105). -/
theorem headerLength_lt (maxLen nsym : Nat) (h : maxLen ≤ 255) :
    headerLength (denseFlag nsym) maxLen nsym < 2 ^ 9 := by
  unfold headerLength denseFlag
  split
  · omega
  · rename_i hdense
    simp only [decide_eq_true_eq, not_lt, Config.sparseMax] at hdense
    omega

/-- R180 to R186: the code tables ASSIGN computes, when no codes are stored. -/
theorem bodyAssign_hasCodes {s : State} (hcodes : s.NoCodes) :
    ∃ t, bodyAssign s = .ok t ∧ t.HasCodes := by
  have hmax := largestLength_lengthsOf_le s.canonicalLengths
  have hmaxLen : (BitVec.ofNat 8 (largestLength (lengthsOf s.canonicalLengths))).toNat =
      largestLength (lengthsOf s.canonicalLengths) := by
    rw [BitVec.toNat_ofNat]
    exact Nat.mod_eq_of_lt (by omega)
  refine ⟨_, rfl, ?_⟩
  exact
    { clen := fun b => s.look_canonicalLengths b
      maxLen := hmaxLen
      blcount := fun n => by
        have := bucketSize_le (lengthsOf s.canonicalLengths) n.toNat
        rw [Table.look_vecOfFn, BitVec.toNat_ofNat]
        exact Nat.mod_eq_of_lt (by omega)
      code := fun b => (State.toNat_look_assignedCodes hcodes.code s.canonicalLengths b).trans (by
        simp only [hmaxLen])
      dense := rfl
      hdrLen := by
        simp only [hmaxLen, BitVec.toNat_ofNat]
        exact Nat.mod_eq_of_lt (headerLength_lt _ _ hmax) }

theorem bodyAssign_reaches {s : State} (hs : s.GoodAt .extracted) :
    (bodyAssign s).Reaches (State.GoodAt .assigned) := by
  obtain ⟨hgood, hstage⟩ := hs
  have row := hgood.stage
  rw [State.StageOk, hstage] at row
  obtain ⟨hcounted, htree, hlengths, hcodes, hpayload, hout⟩ := row
  obtain ⟨t, hok, hcodes'⟩ := bodyAssign_hasCodes hcodes
  have hleaves : (bodyAssign s).leaves t := .inl hok
  rw [hok]
  obtain ⟨_, _, _, _, _, _, rfl⟩ := bodyAssign_leaves hleaves
  refine ⟨hgood.of_body (i := .assign) ?_ ?_, rfl⟩
  · exact .inl ((withStage_of_eq _ _ _ _ hstage).trans hok)
  · exact ⟨{ hcounted with }, { htree with }, { hlengths with }, hcodes', { hpayload with }, hout⟩

/-! ### PACK, when it completes -/

/-- The bit stream of an input is as long as its bit cost (R224). -/
theorem State.length_bitStream (s : State) (input : List Byte) :
    (s.bitStream input).length = bitCost (lengthsOf s.clen) input := by
  rw [State.bitStream, List.length_flatMap, bitCost]
  exact congrArg List.sum (List.map_congr_left fun b _ => length_codeBits s b)

/-- PACK's last byte is the bit stream's, padded with ones (R106, R223). -/
theorem streamByte_last (bits : BitString) (h : bits.length % 8 ≠ 0) :
    streamByte bits (bits.length / 8) = BitVec.ofNat 8 (val (bits.drop (8 * (bits.length / 8)) ++
      ones (8 - (bits.drop (8 * (bits.length / 8))).length))) := by
  have hlen : (bits.drop (8 * (bits.length / 8))).length = bits.length % 8 := by
    rw [List.length_drop]
    omega
  rw [streamByte, List.drop_append_of_le_length (by omega), List.take_append, hlen,
    List.take_of_length_le (by omega)]
  congr 4
  rw [ones, ones, List.take_replicate]
  congr 1
  omega

/-- The bytes of a bit stream, the last one padded. -/
def streamBytes (bits : BitString) (n : Nat) : List Byte := (List.range n).map (streamByte bits)

theorem sliceBytes_eq_streamBytes (bits : BitString) :
    sliceBytes bits (bits.length / 8) = streamBytes bits (bits.length / 8) := by
  refine List.map_congr_left fun k hk => ?_
  rw [List.mem_range] at hk
  exact (sliceByte_append bits (ones 7) k (by omega)).symm

/-- The last lines of PACK after the whole bit stream, when the last byte has room. -/
theorem packLast_after (s : State) (m : Memory) (bits : BitString)
    (h : s.hdrLen.toNat + (bits.length + 7) / 8 ≤ s.capObufSize.toNat) :
    ∃ p, s.packLast (.after s.hdrLen.toNat m bits) = .ok p ∧ p.bits.length = bits.length % 8 ∧
      p.count = (bits.length + 7) / 8 ∧
      p.obuf = m.writeRange s.hdrLen.toNat (streamBytes bits ((bits.length + 7) / 8)) := by
  have hrest : (Packer.after s.hdrLen.toNat m bits).bits.length = bits.length % 8 := by
    simp only [Packer.after, List.length_drop]
    omega
  rw [State.packLast, hrest]
  by_cases h0 : bits.length % 8 = 0
  · have hcount : (bits.length + 7) / 8 = bits.length / 8 := by omega
    rw [if_pos h0, hcount, ← sliceBytes_eq_streamBytes]
    exact ⟨_, rfl, hrest, rfl, rfl⟩
  · have hcount : (bits.length + 7) / 8 = bits.length / 8 + 1 := by omega
    rw [if_neg h0, emit, if_neg (by simp only [Packer.after]; omega)]
    refine ⟨_, rfl, hrest, hcount.symm, ?_⟩
    rw [hcount, streamBytes, List.range_succ, List.map_append, List.map_singleton,
      Memory.writeRange_append, streamByte_last bits h0, ← streamBytes, ← sliceBytes_eq_streamBytes,
      length_sliceBytes, ← hrest]
    rfl

/-- The last lines of PACK when the last byte has no room (R225). -/
theorem packLast_overflow (s : State) (m : Memory) (bits : BitString)
    (hwhole : s.hdrLen.toNat + bits.length / 8 ≤ s.capObufSize.toNat)
    (h : s.capObufSize.toNat < s.hdrLen.toNat + (bits.length + 7) / 8) :
    ∃ info m', s.packLast (.after s.hdrLen.toNat m bits) = .raised .outOverflow info m' := by
  have hrest : (Packer.after s.hdrLen.toNat m bits).bits.length = bits.length % 8 := by
    simp only [Packer.after, List.length_drop]
    omega
  rw [State.packLast, hrest, if_neg (by omega), emit, if_pos (by simp only [Packer.after]; omega)]
  exact ⟨_, _, rfl⟩

/-- The loop over the whole input, when the whole bytes have room. -/
theorem packInput_ok {s : State} (hcoded : ∀ b ∈ s.input, s.clen.look b ≠ 0)
    (hwhole : s.hdrLen.toNat + bitCost (lengthsOf s.clen) s.input / 8 ≤ s.capObufSize.toNat) :
    s.packBytes 0 s.input ⟨[], 0, s.obuf⟩ = .ok (.after s.hdrLen.toNat s.obuf (s.bitStream s.input)) :=
  packBytes_ok s s.obuf s.input 0 [] hcoded (by
    rw [← s.length_bitStream s.input] at hwhole
    exact hwhole)

/-- The loop over the whole input, when some whole byte has no room. -/
theorem packInput_overflow {s : State} (hcoded : ∀ b ∈ s.input, s.clen.look b ≠ 0)
    (hhdr : s.hdrLen.toNat ≤ s.capObufSize.toNat)
    (hover : s.capObufSize.toNat < s.hdrLen.toNat + bitCost (lengthsOf s.clen) s.input / 8) :
    ∃ info m', s.packBytes 0 s.input ⟨[], 0, s.obuf⟩ = .raised .outOverflow info m' :=
  ⟨_, _, packBytes_overflow s s.obuf s.input 0 [] hcoded hhdr (by
    rw [← s.length_bitStream s.input] at hover
    exact hover)⟩

/-- R220 to R225: what PACK leaves when every input byte has a code and the payload has room. -/
theorem bodyPack_ok {s : State} (hlen : s.inLen.toNat ≤ s.capInMax.toNat)
    (hcoded : ∀ b ∈ s.input, s.clen.look b ≠ 0)
    (hroom : s.hdrLen.toNat + (bitCost (lengthsOf s.clen) s.input + 7) / 8 ≤ s.capObufSize.toNat) :
    bodyPack s = .ok { s with
      obuf := s.obuf.writeRange s.hdrLen.toNat (streamBytes (s.bitStream s.input)
        ((bitCost (lengthsOf s.clen) s.input + 7) / 8))
      leftover := BitVec.ofNat 3 (bitCost (lengthsOf s.clen) s.input % 8)
      payloadLen := BitVec.ofNat 32 ((bitCost (lengthsOf s.clen) s.input + 7) / 8)
      stage := .packed } := by
  have htoo : s.inputTooLong = false := by simpa [State.inputTooLong] using hlen
  have hbits := s.length_bitStream s.input
  obtain ⟨p, hlast, hrest, hcount, hobuf⟩ := packLast_after s s.obuf (s.bitStream s.input)
    (by rw [hbits]; exact hroom)
  rw [hbits] at hrest hcount hobuf
  rw [bodyPack, htoo, if_neg Bool.false_ne_true, packInput_ok hcoded (by omega)]
  simp only [hlast, hrest, hcount, hobuf]

/-- PACK has no stop (R220). -/
theorem bodyPack_ne_stuck (s : State) (f : Fault) : bodyPack s ≠ .stuck f := by
  unfold bodyPack
  split
  · simp
  · split
    · simp
    · split <;> simp

theorem packBytes_ok_coded {s : State} {bs : List Byte} {i : Nat} {p p' : Packer}
    (h : s.packBytes i bs p = .ok p') : ∀ b ∈ bs, s.clen.look b ≠ 0 := by
  induction bs generalizing i p with
  | nil => simp
  | cons b bs ih =>
    rw [State.packBytes] at h
    cases hb : s.packByte i b p with
    | raised e info m => rw [hb] at h; cases h
    | ok q =>
      rw [hb] at h
      refine List.forall_mem_cons.2 ⟨fun h0 => ?_, ih h⟩
      rw [State.packByte, if_pos h0] at hb
      cases hb

/-- PACK completes only on an input that fits IBUF, whose bytes have codes and whose payload has room. -/
theorem bodyPack_ok_inv {s t : State} (h : bodyPack s = .ok t)
    (hhdr : s.hdrLen.toNat ≤ s.capObufSize.toNat) :
    s.inLen.toNat ≤ s.capInMax.toNat ∧ (∀ b ∈ s.input, s.clen.look b ≠ 0) ∧
      s.hdrLen.toNat + (bitCost (lengthsOf s.clen) s.input + 7) / 8 ≤ s.capObufSize.toNat := by
  have hbits := s.length_bitStream s.input
  unfold bodyPack at h
  split at h
  · cases h
  rename_i htoo
  refine ⟨by simpa [State.inputTooLong] using htoo, ?_⟩
  cases hp : s.packBytes 0 s.input ⟨[], 0, s.obuf⟩ with
  | raised e info m => rw [hp] at h; cases h
  | ok p =>
    have hcoded := packBytes_ok_coded hp
    refine ⟨hcoded, ?_⟩
    rw [hp] at h
    by_cases hwhole : s.hdrLen.toNat + bitCost (lengthsOf s.clen) s.input / 8 ≤ s.capObufSize.toNat
    · obtain rfl := PackResult.ok.inj (hp.symm.trans (packInput_ok hcoded hwhole))
      by_contra hfull
      obtain ⟨info, m, hlast⟩ := packLast_overflow s s.obuf (s.bitStream s.input)
        (by rw [hbits]; exact hwhole) (by rw [hbits]; omega)
      simp only [hlast] at h
      cases h
    · obtain ⟨info, m, hover⟩ := packInput_overflow hcoded hhdr (by omega)
      exact absurd (hp.symm.trans hover) (by simp)

/-! ### The header of a coded run -/

section
variable {s : State} (hcounted : s.Counted) (hlengths : s.HasLengths) (hcodes : s.HasCodes)

include hlengths hcodes in
/-- A byte has a code exactly when it is present (R181). -/
theorem State.HasCodes.clen_ne_zero_iff (b : Byte) : s.clen.look b ≠ 0 ↔ s.freq.look b ≠ 0 := by
  rw [hcodes.clen b, State.canonicalLength, State.present]
  by_cases hb : s.freq.look b = 0
  · simp [hb]
  · have hpresent : decide (s.freq.look b ≠ 0) = true := by simpa using hb
    rw [hpresent, if_pos rfl]
    refine iff_of_true ?_ hb
    by_cases h1 : s.nsym = 1
    · rw [if_pos h1]
      decide
    · have h1' : s.nsym.toNat ≠ 1 := fun h => h1 (BitVec.eq_of_toNat_eq h)
      have := hlengths.nsymPos
      rw [if_neg h1]
      exact hlengths.many (by omega) b hb

include hlengths hcodes in
/-- A code of a run is shorter than its number of symbols, or the forced single bit (R174, R182). -/
theorem State.HasCodes.clen_le (b : Byte) : (s.clen.look b).toNat ≤ max 1 (s.nsym.toNat - 1) := by
  rw [hcodes.clen b, State.canonicalLength]
  split
  · by_cases h1 : s.nsym = 1
    · rw [if_pos h1]
      exact le_max_left _ _
    · have h1' : s.nsym.toNat ≠ 1 := fun h => h1 (BitVec.eq_of_toNat_eq h)
      have := hlengths.nsymPos
      rw [if_neg h1]
      exact (hlengths.bound (by omega) b).trans (le_max_right _ _)
  · exact Nat.zero_le _

include hcounted hlengths hcodes in
/-- HDR_LEN of a coded run: the smallest buffer R6 allows holds every header (R105). -/
theorem State.HasCodes.hdrLen_bounds : 2 ≤ s.hdrLen.toNat ∧ s.hdrLen.toNat ≤ 257 := by
  have hmax : s.maxLen.toNat ≤ max 1 (s.nsym.toNat - 1) := by
    rw [hcodes.maxLen]
    exact largestLength_le _ _ (hcodes.clen_le hlengths)
  have hnsym := hcounted.nsymLe
  rw [hcodes.hdrLen, headerLength]
  split
  · omega
  · rename_i hdense
    rw [hcodes.dense, denseFlag, decide_eq_true_eq, Config.sparseMax] at hdense
    omega

include hcounted hlengths hcodes in
/-- R105: the header block of a coded run has HDR_LEN bytes. -/
theorem State.HasCodes.length_headerBytes : s.headerBytes.length = s.hdrLen.toNat := by
  have hpresent : (allBytes.filter fun b => 1 ≤ (s.clen.look b).toNat ∧
      (s.clen.look b).toNat ≤ s.maxLen.toNat).length = s.nsym.toNat := by
    rw [← hcounted.length_present]
    refine congrArg List.length (List.filter_congr fun b _ => decide_eq_decide.2 ?_)
    have hle : (s.clen.look b).toNat ≤ s.maxLen.toNat := by
      rw [hcodes.maxLen]
      exact le_largestLength (lengthsOf s.clen) b
    rw [← hcodes.clen_ne_zero_iff hlengths b, and_iff_left hle, Nat.one_le_iff_ne_zero, Ne, Ne,
      BitVec.toNat_eq]
    rfl
  rw [s.length_headerBytes, hpresent, hcodes.hdrLen, headerLength]

end

/-! ### PACK and HEADER -/

@[simp] theorem length_streamBytes (bits : BitString) (n : Nat) : (streamBytes bits n).length = n := by
  simp [streamBytes]

/-- The bytes read back behind the header are the bit stream's. -/
theorem Memory.read_writeRange_streamBytes {m : Memory} (hm : m.wf) (hdr n k : Nat) (bits : BitString)
    (hk : k < n) : (m.writeRange hdr (streamBytes bits n)).read (hdr + k) = streamByte bits k := by
  rw [Memory.read_writeRange _ _ _ _ hm, if_pos (by rw [length_streamBytes]; omega),
    Nat.add_sub_cancel_left, streamBytes, List.getElem?_map, List.getElem?_range hk]
  rfl

/-- R106, R222 to R225: OBUF, LEFTOVER and PAYLOAD_LEN hold the packed code stream of a coded input. -/
theorem State.HasPayload.of_stream {s : State} {m : Memory} {input : List Byte} {n : Nat} (hm : m.wf)
    (hcoded : ∀ b ∈ input, s.clen.look b ≠ 0) (hn : bitCost (lengthsOf s.clen) input = n)
    (hroom : s.hdrLen.toNat + (n + 7) / 8 ≤ s.capObufSize.toNat)
    (hobuf : s.obuf = m.writeRange s.hdrLen.toNat (streamBytes (s.bitStream input) ((n + 7) / 8)))
    (hleftover : s.leftover = BitVec.ofNat 3 (n % 8))
    (hpayload : s.payloadLen = BitVec.ofNat 32 ((n + 7) / 8)) : s.HasPayload := by
  have hleftover' : s.leftover.toNat = n % 8 := by
    rw [hleftover, BitVec.toNat_ofNat]
    exact Nat.mod_eq_of_lt (by omega)
  have hpayload' : s.payloadLen.toNat = (n + 7) / 8 := by
    have := s.capObufSize.isLt
    rw [hpayload, BitVec.toNat_ofNat]
    exact Nat.mod_eq_of_lt (by omega)
  exact
    { fits := fun _ => hpayload' ▸ hroom
      empty := fun h0 => BitVec.eq_of_toNat_eq (by
        have hzero : s.payloadLen.toNat = 0 := by rw [h0]; rfl
        rw [hleftover', show n % 8 = 0 by omega]
        rfl)
      written := ⟨input, hcoded, hn.symm ▸ hleftover', hn.symm ▸ hpayload', fun k hk => by
        rw [hobuf]
        exact Memory.read_writeRange_streamBytes hm _ _ _ _ (hpayload' ▸ hk)⟩ }

theorem bodyPack_reaches {s : State} (hs : s.GoodAt .assigned) :
    (bodyPack s).Reaches (State.GoodAt .packed) := by
  obtain ⟨hgood, hstage⟩ := hs
  have row := hgood.stage
  rw [State.StageOk, hstage] at row
  obtain ⟨hcounted, htree, hlengths, hcodes, -, hout⟩ := row
  have hcap := hgood.params.bounds
  have hhdr := hcodes.hdrLen_bounds hcounted hlengths
  cases hp : bodyPack s with
  | stuck f => exact bodyPack_ne_stuck s f hp
  | raised e info t => rcases bodyPack_raised hp with rfl | rfl | rfl <;> rfl
  | ok t =>
    have hleaves : (commandBody .pack s).leaves t := .inl ((withStage_of_eq _ _ _ _ hstage).trans hp)
    obtain ⟨hlen, hcoded, hroom⟩ := bodyPack_ok_inv hp (by omega)
    obtain rfl := BodyResult.ok.inj (hp.symm.trans (bodyPack_ok hlen hcoded hroom))
    refine ⟨hgood.of_body hleaves ?_, rfl⟩
    exact ⟨{ hcounted with }, { htree with }, { hlengths with }, { hcodes with },
      .of_stream hgood.buffers.obufWf hcoded rfl hroom rfl rfl rfl, hout⟩

/-- The bytes of a range read back. -/
theorem Memory.readRange_writeRange {m : Memory} (hm : m.wf) (o : Nat) (vs : List Byte) :
    (m.writeRange o vs).readRange o vs.length = vs := by
  rw [Memory.readRange_eq]
  refine List.ext_getElem (by simp) fun k hk hk' => ?_
  rw [List.getElem_map, List.getElem_range, Memory.read_writeRange _ _ _ _ hm, if_pos (by omega),
    Nat.add_sub_cancel_left, List.getElem?_eq_getElem hk', Option.getD_some]

/-- HEADER writes below HDR_LEN, so the payload stays (R200). -/
theorem State.HasPayload.after_header {s : State} (h : s.HasPayload)
    (hlen : s.headerBytes.length = s.hdrLen.toNat) (outLen : Word) :
    State.HasPayload { s with
      obuf := s.obuf.writeRange 0 s.headerBytes, outLen := outLen, stage := .done } where
  fits := h.fits
  empty := h.empty
  written := by
    obtain ⟨input, hcoded, hleftover, hpayload, hread⟩ := h.written
    refine ⟨input, hcoded, hleftover, hpayload, fun k hk => ?_⟩
    exact (Memory.read_writeRange_outside _ _ _ _ (by simp only; omega)).trans (hread k hk)

/-- The payload of a run lies inside OBUF, and so does the header before it (R106). -/
theorem State.HasPayload.end_le {s : State} (h : s.HasPayload)
    (hhdr : s.hdrLen.toNat ≤ s.capObufSize.toNat) :
    s.hdrLen.toNat + s.payloadLen.toNat ≤ s.capObufSize.toNat := by
  by_cases h0 : s.payloadLen = 0
  · rw [h0]
    exact hhdr
  · exact h.fits h0

theorem bodyHeader_reaches {s : State} (hs : s.GoodAt .packed) :
    (bodyHeader s).Reaches (State.GoodAt .done) := by
  obtain ⟨hgood, hstage⟩ := hs
  have row := hgood.stage
  rw [State.StageOk, hstage] at row
  obtain ⟨hcounted, htree, hlengths, hcodes, hpayload, -⟩ := row
  have hcap := hgood.params.bounds
  have hhdr := hcodes.hdrLen_bounds hcounted hlengths
  have hlen := hcodes.length_headerBytes hcounted hlengths
  have hend := hpayload.end_le (by omega)
  have hok : bodyHeader s = .ok { s with
      obuf := s.obuf.writeRange 0 s.headerBytes, outLen := s.hdrLen.setWidth 32 + s.payloadLen,
      stage := .done } := by
    rw [bodyHeader, if_neg (by omega)]
  have hout : (s.hdrLen.setWidth 32 + s.payloadLen).toNat = s.hdrLen.toNat + s.payloadLen.toNat := by
    rw [BitVec.toNat_add, BitVec.toNat_setWidth_of_le (by omega)]
    exact Nat.mod_eq_of_lt (by omega)
  rw [hok]
  refine ⟨hgood.of_body (i := .header) ?_ ?_, rfl⟩
  · exact .inl ((withStage_of_eq _ _ _ _ hstage).trans hok)
  · refine ⟨{ hcounted with }, { htree with }, { hlengths with }, { hcodes with },
      hpayload.after_header hlen _, ?_, hout⟩
    have hread := Memory.readRange_writeRange hgood.buffers.obufWf 0 s.headerBytes
    rw [hlen] at hread
    exact hread

/-! ### Every command -/

theorem bodyRun_reaches {s : State} (hs : s.Good) : (bodyRun s).Reaches (State.GoodAt .done) :=
  (((((bodyCount_reaches hs).andThen fun _ => bodyBuild_reaches).andThen
    fun _ => bodyExtract_reaches).andThen fun _ => bodyAssign_reaches).andThen
      fun _ => bodyPack_reaches).andThen fun _ => bodyHeader_reaches

/-- The frame's last two lines keep a state good (R121). -/
theorem State.Good.endCommand {s : State} (h : s.Good) : s.endCommand.Good :=
  ⟨h.params, h.buffers.congr ⟨rfl, rfl, rfl, rfl⟩, h.errFlag, h.stage.congr rfl⟩

/-- An error that does not abort the run leaves a good state good (R245). -/
theorem State.Good.takeError {s : State} (h : s.Good) {e : ErrCode} (he : e ≠ .none)
    (habort : e.aborts = false) (info : Word) : (s.takeError e info).Good := by
  refine ⟨h.params, h.buffers.congr ⟨rfl, rfl, rfl, rfl⟩, iff_of_true rfl he, h.stage.congr ?_⟩
  unfold State.takeError
  rw [habort]
  rfl

/-- An error that aborts the run leaves the row of IDLE (R245). -/
theorem State.Good.takeError_aborts {i : Instr} {s t : State} (h : s.Good)
    (ht : (commandBody i s).leaves t) {e : ErrCode} (habort : e.aborts = true) (info : Word) :
    (t.takeError e info).Good := by
  have hhost := commandBody_sameHost ht
  have hidle : State.StageOk { t with stage := .idle, outLen := 0 } := rfl
  have hparams : t.ParamsOk := by
    unfold State.ParamsOk
    rw [hhost.capInMax, hhost.capObufSize]
    exact h.params
  refine ⟨hparams, (commandBody_buffersOk ht h.buffers).congr ⟨rfl, rfl, rfl, rfl⟩,
    iff_of_true rfl fun he => ?_, hidle.congr ?_⟩
  · rw [show e = .none from he] at habort
    cases habort
  · unfold State.takeError
    rw [habort]
    rfl

/-- A command whose body goes on or aborts the run completes in a good state. -/
theorem exec_good_of_reaches {i : Instr} {s : State} (hs : s.Good)
    (h : (commandBody i s).Reaches State.Good) : ∃ t, exec i s = .next t ∧ t.Good := by
  rw [exec_eq_complete]
  cases hb : commandBody i s with
  | ok t =>
    rw [hb] at h
    exact ⟨_, rfl, State.Good.endCommand h⟩
  | raised e info t =>
    rw [hb] at h
    exact ⟨_, rfl, (hs.takeError_aborts (.inr ⟨e, info, hb⟩) h info).endCommand⟩
  | stuck f =>
    rw [hb] at h
    exact h.elim

/-- A stage command completes in a good state: in its stage its body does, in another the check raises
ERR_SEQUENCE (R123). -/
theorem exec_good_of_stage {i : Instr} {need next : Stage} {body : State → BodyResult} {s : State}
    (hi : commandBody i = withStage i need body) (hs : s.Good)
    (hbody : s.GoodAt need → (body s).Reaches (State.GoodAt next)) :
    ∃ t, exec i s = .next t ∧ t.Good := by
  by_cases hstage : s.stage = need
  · refine exec_good_of_reaches hs ?_
    rw [hi, withStage_of_eq _ _ _ _ hstage]
    exact (hbody ⟨hs, hstage⟩).mono fun _ ht => ht.1
  · rw [exec_eq_complete, hi, withStage_of_ne _ _ _ _ hstage]
    exact ⟨_, rfl, (hs.takeError (by decide) rfl _).endCommand⟩

/-- Every command completes from a good state in a good state. -/
theorem exec_good (i : Instr) {s : State} (hs : s.Good) : ∃ t, exec i s = .next t ∧ t.Good := by
  cases i with
  | nop => exact exec_good_of_reaches hs hs
  | clear =>
    refine exec_good_of_reaches hs ?_
    exact hs.of_body (i := .clear) (.inl rfl) rfl
  | count => exact exec_good_of_reaches hs ((bodyCount_reaches hs).mono fun _ ht => ht.1)
  | build => exact exec_good_of_stage rfl hs bodyBuild_reaches
  | extract => exact exec_good_of_stage rfl hs bodyExtract_reaches
  | assign => exact exec_good_of_stage rfl hs bodyAssign_reaches
  | pack => exact exec_good_of_stage rfl hs bodyPack_reaches
  | header => exact exec_good_of_stage rfl hs bodyHeader_reaches
  | run => exact exec_good_of_reaches hs ((bodyRun_reaches hs).mono fun _ ht => ht.1)

/-! ### Every step -/

/-- What the host does leaves a good state good (R54, R76). -/
theorem HostEffect.good {s t : State} (h : HostEffect s t) (hs : s.Good) : t.Good := by
  have hbuffers := h.buffersOk hs.buffers
  cases h with
  | accepted => exact ⟨hs.params, hbuffers, by simp [State.ErrOk], hs.stage.congr rfl⟩
  | reset =>
    exact ⟨hs.params, hbuffers, by simp [State.ErrOk, State.resetEvent, State.reset], rfl⟩
  | _ => exact ⟨hs.params, hbuffers, hs.errFlag, hs.stage.congr rfl⟩

theorem State.Good.tick {s : State} (h : s.Good) : s.tick.Good := by
  obtain ⟨d, hd⟩ := exists_tick_eq s
  rw [hd]
  exact ⟨h.params, h.buffers.congr ⟨rfl, rfl, rfl, rfl⟩, h.errFlag, h.stage.congr rfl⟩

theorem completionStep_good {s : State} (hs : s.Good) : ∃ t, completionStep s = .next t ∧ t.Good := by
  rcases completionStep_cases s with ⟨i, -, hi⟩ | ⟨-, hi⟩ <;> rw [hi]
  · exact exec_good i hs
  · exact ⟨_, rfl, (hs.takeError (by decide) rfl _).endCommand⟩

/-- Settles O60: each stage's body takes R54's row to the next row or aborts the run, and nothing else a
step does touches the run's fields. -/
theorem goodStatesNeverStop : Obligations.GoodStatesNeverStop := by
  intro s hs
  cases hdue : s.completionDue with
  | true =>
    rw [step_of_due hdue]
    exact completionStep_good hs
  | false =>
    exact ⟨_, step_of_not_due hdue, (hostTurn_effect s.tick).good hs.tick⟩

/-- Settles O56: in STAGE = IDLE R54 asks for OUT_LEN = 0 only. -/
theorem resetStateIsGood : Obligations.ResetStateIsGood where
  params := by unfold State.ParamsOk; decide
  buffers := ⟨Memory.wf_nil, by simp [State.reset], Memory.wf_nil, by simp [State.reset]⟩
  errFlag := by simp [State.ErrOk, State.reset]
  stage := rfl

/-- R54: before DONE no archive is presented. -/
theorem State.StageOk.outLen_eq_zero {s : State} (h : s.StageOk) (hdone : s.stage ≠ .done) :
    s.outLen = 0 := by
  unfold State.StageOk at h
  cases hstage : s.stage <;> rw [hstage] at h
  case idle => exact h
  case counted => obtain ⟨-, -, -, -, -, -, hout⟩ := h; exact hout
  case built => obtain ⟨-, -, -, -, -, hout⟩ := h; exact hout
  case extracted => obtain ⟨-, -, -, -, -, hout⟩ := h; exact hout
  case assigned => obtain ⟨-, -, -, -, -, hout⟩ := h; exact hout
  case packed => obtain ⟨-, -, -, -, -, hout⟩ := h; exact hout
  case done => exact absurd hstage hdone

/-- R40: in DONE the archive is header and payload, at least the header's two bytes, inside OBUF. -/
theorem State.Good.archive {s : State} (hs : s.Good) (hdone : s.stage = .done) :
    s.outLen.toNat = s.hdrLen.toNat + s.payloadLen.toNat ∧ 2 ≤ s.outLen.toNat ∧
      s.outLen.toNat ≤ s.capObufSize.toNat := by
  have row := hs.stage
  rw [State.StageOk, hdone] at row
  obtain ⟨hcounted, -, hlengths, hcodes, hpayload, harchive⟩ := row
  have hcap := hs.params.bounds
  have hhdr := hcodes.hdrLen_bounds hcounted hlengths
  have hend := hpayload.end_le (by omega)
  have hout := harchive.outLen
  omega

/-- Settles O59: R54's rows before DONE have OUT_LEN = 0, and in DONE the archive is not empty. -/
theorem archivePresentExactlyWhenDone : Obligations.ArchivePresentExactlyWhenDone := by
  refine fun s hs => ⟨⟨fun hout => ?_, fun hdone hzero => ?_⟩, fun hdone => ?_⟩
  · by_contra hdone
    exact hout (hs.stage.outLen_eq_zero hdone)
  · have hge := (hs.archive hdone).2.1
    rw [hzero] at hge
    exact absurd hge (by decide)
  · obtain ⟨hout, -, hle⟩ := hs.archive hdone
    exact ⟨hout, hle⟩

end Sys2Proof.Machine
end

section
/-! PROOFS. What commands and steps keep: the host's fields, OBUF outside what is written, the capability
registers, the error flag and WBUSY (R25, R28, R31, R33, R34, R49, R50). -/

namespace Sys2Proof.Machine

/-! ### What commands keep -/

/-- Settles O37: no body touches the host's fields, and the frame writes BUSY, DONE and the error fields. -/
theorem commandsKeepHostState : Obligations.CommandsKeepHostState := by
  intro i s t h
  obtain ⟨u, hu, rfl | ⟨e, info, rfl⟩⟩ := exec_next h
  all_goals
    have hs := commandBody_sameHost hu
    exact ⟨hs.irqEn, hs.inLen, hs.capInMax, hs.capObufSize, fun o => congrArg (·.read o) hs.ibuf,
      hs.ibuf, hs.pending, hs.inReset, hs.delay, hs.freeCount, hs.inbox, hs.replies⟩

/-- A command's OBUF is what its body leaves. -/
theorem exec_obuf {i : Instr} {s t : State} (h : exec i s = .next t) :
    ∃ u, (commandBody i s).leaves u ∧ t.obuf = u.obuf := by
  obtain ⟨u, hu, rfl | ⟨e, info, rfl⟩⟩ := exec_next h <;> exact ⟨u, hu, rfl⟩

/-- The commands before PACK leave OBUF alone. -/
theorem commandBody_obuf {i : Instr} {s t : State}
    (hi : i ∈ [Instr.nop, .clear, .count, .build, .extract, .assign])
    (h : (commandBody i s).leaves t) : t.obuf = s.obuf := by
  have staged : ∀ {i need body}, (∀ u v, (body u).leaves v → SameBuffers u v) →
      (withStage i need body s).leaves t → t.obuf = s.obuf := fun hk h => by
    rcases withStage_leaves h with rfl | ⟨-, h⟩
    · rfl
    · exact (hk _ _ h).obuf
  cases i with
  | nop => rw [(BodyResult.leaves_ok ..).1 h]
  | clear => exact (bodyClear_sameBuffers h).obuf
  | count => exact (bodyCount_sameBuffers h).obuf
  | build => exact staged (fun _ _ => bodyBuild_sameBuffers) h
  | extract => exact staged (fun _ _ => bodyExtract_sameBuffers) h
  | assign => exact staged (fun _ _ => bodyAssign_sameBuffers) h
  | pack | header | run => simp at hi

/-- Two states have the same OBUF_SIZE and agree on every byte of OBUF beyond it. -/
def SameBeyond (s t : State) : Prop :=
  t.capObufSize = s.capObufSize ∧ ∀ o, s.capObufSize.toNat ≤ o → t.obuf.read o = s.obuf.read o

theorem SameBuffers.sameBeyond {s t : State} (h : SameBuffers s t) : SameBeyond s t :=
  ⟨h.capObufSize, fun o _ => by rw [h.obuf]⟩

theorem SameBeyond.trans {s t u : State} (h : SameBeyond s t) (k : SameBeyond t u) : SameBeyond s u :=
  ⟨k.1.trans h.1, fun o ho => (k.2 o (by rw [h.1]; exact ho)).trans (h.2 o ho)⟩

theorem bodyPack_sameBeyond {s t : State} (h : (bodyPack s).leaves t) : SameBeyond s t := by
  have hread := fun o (ho : s.capObufSize.toNat ≤ o) => (bodyPack_written h).read (.inr (.inl ho))
  obtain ⟨_, _, _, _, rfl⟩ := bodyPack_leaves h
  exact ⟨rfl, hread⟩

/-- HEADER leaves OBUF from the header's length on, which OBUF_SIZE bounds (R200). -/
theorem bodyHeader_read {s t : State} (h : (bodyHeader s).leaves t) {o : Nat}
    (ho : s.capObufSize.toNat ≤ o ∨ s.headerBytes.length ≤ o) : t.obuf.read o = s.obuf.read o := by
  obtain ⟨hlen, rfl⟩ := bodyHeader_leaves h
  exact Memory.read_writeRange_outside _ _ _ _ (by omega)

theorem bodyHeader_sameBeyond {s t : State} (h : (bodyHeader s).leaves t) : SameBeyond s t := by
  have hread := fun o (ho : s.capObufSize.toNat ≤ o) => bodyHeader_read h (.inl ho)
  obtain ⟨-, rfl⟩ := bodyHeader_leaves h
  exact ⟨rfl, hread⟩

theorem bodyRun_sameBeyond {s t : State} (h : (bodyRun s).leaves t) : SameBeyond s t :=
  bodyRun_rel (R := SameBeyond) (fun _ _ _ => SameBeyond.trans)
    (fun _ _ h => (bodyCount_sameBuffers h).sameBeyond)
    (fun _ _ h => (bodyBuild_sameBuffers h).sameBeyond)
    (fun _ _ h => (bodyExtract_sameBuffers h).sameBeyond)
    (fun _ _ h => (bodyAssign_sameBuffers h).sameBeyond) (fun _ _ => bodyPack_sameBeyond)
    (fun _ _ => bodyHeader_sameBeyond) h

/-- Settles O38: PACK writes a range from HDR_LEN up, HEADER the header block, no other stage body anything
of OBUF. -/
theorem commandsKeepOutputBuffer : Obligations.CommandsKeepOutputBuffer := by
  refine ⟨fun i s t o hi h => ?_, fun s t o h ho => ?_, fun s t o h ho => ?_, fun s t o h ho => ?_⟩
  all_goals
    obtain ⟨u, hu, hobuf⟩ := exec_obuf h
    rw [hobuf]
  · rw [commandBody_obuf hi hu]
  · rcases withStage_leaves hu with rfl | ⟨-, hu⟩
    · rfl
    · refine (bodyPack_written hu).read ?_
      rw [State.input, Memory.readRange_eq]
      simpa only [Nat.zero_add] using ho
  · rcases withStage_leaves hu with rfl | ⟨-, hu⟩
    · rfl
    · exact bodyHeader_read hu (by rwa [s.length_headerBytes])
  · exact (bodyRun_sameBeyond hu).2 o ho

/-! ### What steps keep -/

theorem HostEffect.capabilities {s t : State} (h : HostEffect s t) :
    t.capInMax = s.capInMax ∧ t.capObufSize = s.capObufSize := by
  cases h <;> exact ⟨rfl, rfl⟩

/-- Settles O39: no command and no host operation writes the capability registers, a reset keeps them. -/
theorem capabilitiesAreConstant : Obligations.CapabilitiesAreConstant := by
  intro s t h
  rcases step_cases h with ⟨-, ⟨i, -, hi⟩ | ⟨-, rfl⟩⟩ | ⟨-, -, ht⟩
  · obtain ⟨-, -, hin, hout, -⟩ := commandsKeepHostState i s t hi
    exact ⟨hin, hout⟩
  · exact ⟨rfl, rfl⟩
  · obtain ⟨d, hd⟩ := exists_tick_eq s
    rw [hd] at ht
    exact ht.capabilities

/-- An error a body raises has a code that is not NONE. -/
theorem commandBody_raised_ne_none {i : Instr} {s t : State} {e : ErrCode} {info : Word}
    (h : commandBody i s = .raised e info t) : e ≠ .none := by
  have staged : ∀ {i need body}, (body s = .raised e info t → e ≠ .none) →
      withStage i need body s = .raised e info t → e ≠ .none := fun hk h => by
    rw [withStage] at h
    split at h
    · exact hk h
    · cases h
      decide
  cases i with
  | nop | clear => cases h
  | count => rw [(bodyCount_raised h).1]; decide
  | build => exact staged (fun h => by rw [(bodyBuild_raised h).1]; decide) h
  | extract => exact staged (fun h => (bodyExtract_ne_raised _ _ _ _ h).elim) h
  | assign => exact staged (fun h => (bodyAssign_ne_raised _ _ _ _ h).elim) h
  | pack => exact staged (fun h => by rcases bodyPack_raised h with rfl | rfl | rfl <;> decide) h
  | header => exact staged (fun h => (bodyHeader_ne_raised _ _ _ _ h).elim) h
  | run => rcases bodyRun_raised h with rfl | rfl | rfl | rfl <;> decide

theorem exec_errOk {i : Instr} {s t : State} (h : exec i s = .next t) (hs : s.ErrOk) : t.ErrOk := by
  rw [exec_eq_complete] at h
  rcases BodyResult.complete_next h with ⟨u, hu, rfl⟩ | ⟨e, info, u, hu, rfl⟩
  · have hu' : u.ErrOk := hs.of_sameHost (commandBody_sameHost (.inl hu))
    exact hu'
  · exact iff_of_true rfl (commandBody_raised_ne_none hu)

theorem HostEffect.errOk {s t : State} (h : HostEffect s t) (hs : s.ErrOk) : t.ErrOk := by
  cases h with
  | accepted => simp [State.ErrOk]
  | reset => simp [State.ErrOk, State.resetEvent, State.reset]
  | _ => exact hs

theorem State.ErrOk.tick {s : State} (h : s.ErrOk) : s.tick.ErrOk := by
  obtain ⟨d, hd⟩ := exists_tick_eq s
  rw [hd]
  exact h

/-- Settles O58: errors set ERR with a code, acceptance and reset clear both, nothing else writes them. -/
theorem stepKeepsErrorFlag : Obligations.StepKeepsErrorFlag := by
  intro s t hs h
  rcases step_cases h with ⟨-, ⟨i, -, hi⟩ | ⟨-, rfl⟩⟩ | ⟨-, -, ht⟩
  · exact exec_errOk hi hs
  · exact iff_of_true rfl (by simp)
  · exact ht.errOk (State.ErrOk.tick hs)

/-! ### WBUSY -/

theorem exec_wbusy {i : Instr} {s t : State} (hi : i ≠ .clear) (h : exec i s = .next t) :
    t.wbusy = s.wbusy := by
  obtain ⟨u, hu, ht⟩ := exec_next h
  have hwbusy : t.wbusy = u.wbusy := by rcases ht with rfl | ⟨e, info, rfl⟩ <;> rfl
  rw [hwbusy, commandBody_wbusy hi hu]

theorem writeEffect_wbusy (a : Word) (n : Nat) (v : Word) (s : State) :
    (writeEffect a n v s).wbusy = s.wbusy := by
  rcases writeEffect_cases a n v s with h | ⟨d, h, -⟩ | h | h | ⟨o, h⟩ | h <;> rw [h]
  rfl

/-- A write never clears WBUSY (R28). -/
theorem busWrite_wbusy {a : Word} {n : Nat} {v : Word} {s : State} (h : s.wbusy = true) :
    (busWrite a n v s).wbusy = true := by
  unfold busWrite
  split
  · exact h
  · simp only
    split
    · exact h
    · split
      · rfl
      · rw [writeEffect_wbusy]
        exact h

/-- Only the assertion of reset clears WBUSY in a turn of the host (R28, R270). -/
theorem hostTurn_wbusy {s : State} (hs : s.wbusy = true) (ht : (hostTurn s).wbusy = false) :
    s.inbox.head? = some .resetAssert := by
  cases hinbox : s.inbox with
  | nil => simp [hostTurn, hinbox, hs] at ht
  | cons op ops =>
    cases op with
    | write a n v =>
      have hwrite := busWrite_wbusy (a := a) (n := n) (v := v) (s := { s with inbox := ops }) hs
      simp [hostTurn, hinbox, hwrite] at ht
    | read a n => simp [hostTurn, hinbox, busRead, hs] at ht
    | poll a mask v =>
      simp only [hostTurn, hinbox] at ht
      split at ht <;> simp [busRead, hs] at ht
    | resetAssert => rfl
    | resetRelease => simp [hostTurn, hinbox, hs] at ht

/-- Settles O40: a step is a command, of which only CLEAR writes WBUSY, or a turn of the host, of which a
dropped write sets it and the assertion of reset alone clears it. -/
theorem wbusyIsSticky : Obligations.WbusyIsSticky := by
  refine ⟨fun s a n v ops hr hb hd hinbox ha => ?_, fun s t h hs ht => ?_⟩
  · have hdue : s.completionDue = false := by
      rw [Bool.eq_false_iff, Ne, completionDue_iff]
      omega
    refine ⟨_, step_of_not_due hdue, ?_⟩
    rw [tick_busy hb]
    simp only [hostTurn, hinbox]
    rw [busWrite_busy (s := { s with delay := s.delay - 1, inbox := ops })
      ((legalAccess_iff a n).2 ha) hr hb]
  · rcases step_cases h with ⟨hdue, ⟨i, hi, he⟩ | ⟨-, rfl⟩⟩ | ⟨hdue, rfl, -⟩
    · by_cases hclear : i = .clear
      · subst hclear
        exact .inl ⟨hdue, hi⟩
      · rw [exec_wbusy hclear he, hs] at ht
        cases ht
    · exact absurd hs (by simpa using ht)
    · refine .inr ⟨hdue, ?_⟩
      obtain ⟨d, hd⟩ := exists_tick_eq s
      rw [hd] at ht
      exact hostTurn_wbusy (s := { s with delay := d }) hs ht

end Sys2Proof.Machine
end

section
/-! PROOFS. The STATUS word (R22) and the register map (R52) while BUSY = 0. -/

namespace Sys2Proof.Machine

/-! ### STATUS -/

theorem statusWord_errCode (s : State) : s.statusWord.extractLsb' 4 4 = s.errCode.bits := by
  refine BitVec.eq_of_getLsbD_eq fun i hi => ?_
  have h : ∀ k, k < 4 → s.statusWord.getLsbD (4 + k) = s.errCode.bits.getLsbD k := fun k hk => by
    simp only [State.statusWord, BitVec.getLsbD_append]
    interval_cases k <;> simp
  simp [hi, h i hi]

theorem statusWord_stage (s : State) : s.statusWord.extractLsb' 8 3 = s.stage.bits := by
  refine BitVec.eq_of_getLsbD_eq fun i hi => ?_
  have h : ∀ k, k < 3 → s.statusWord.getLsbD (8 + k) = s.stage.bits.getLsbD k := fun k hk => by
    simp only [State.statusWord, BitVec.getLsbD_append]
    interval_cases k <;> simp
  simp [hi, h i hi]

/-- Settles O41: each field is one part of the concatenation that makes the word. -/
theorem statusWordLayout : Obligations.StatusWordLayout := by
  intro s
  refine ⟨?_, ?_, ?_, ?_, ?_, ?_, ?_, ?_, ?_, ?_, fun k hk => ?_⟩
  case refine_5 =>
    rw [statusWord_errCode]
    cases s.errCode <;> decide
  case refine_6 =>
    rw [statusWord_stage]
    cases s.stage <;> decide
  case refine_11 =>
    obtain ⟨j, rfl⟩ : ∃ j, k = j + 15 := ⟨k - 15, by omega⟩
    simp only [State.statusWord, BitVec.getLsbD_append]
    simp
  all_goals
    simp only [State.statusWord, BitVec.getLsbD_append]
    simp [State.irq]

/-! ### Accesses while BUSY = 0 -/

section
variable {s : State} (hr : s.inReset = false) (hb : s.busy = false)
include hb

/-- While BUSY = 0 a step is a turn of the host. -/
theorem step_idle : step s = .next (hostTurn s) := by
  have hdue : s.completionDue = false := by simp [State.completionDue, hb]
  rw [step_of_not_due hdue, tick_idle hb]

include hr

/-- A legal write while BUSY = 0 has its effect and no other. -/
theorem step_write_idle {a : Word} {n : Nat} {v : Word} (ha : legalAccess a n = true) :
    step { s with inbox := [.write a n v] } =
      .next (writeEffect a n v { s with inbox := [], replies := ⟨0, false⟩ :: s.replies }) := by
  rw [step_idle (s := { s with inbox := [.write a n v] }) hb]
  exact congrArg _ (busWrite_idle (s := { s with inbox := [] }) ha hr hb)

/-- A legal read while BUSY = 0 answers the place read. -/
theorem readGives_busData {a : Word} {n : Nat} (ha : legalAccess a n = true) :
    ReadGives s a n (busData s a n) := by
  rw [ReadGives, step_idle (s := { s with inbox := [.read a n] }) hb]
  simp only [hostTurn]
  rw [busRead_eq, busReadReply_idle (s := { s with inbox := [] }) ha hr hb]
  rfl

/-- A 32-bit read of the register region. -/
theorem readGives_regRead {o : Nat} (ho : o < 0x10000) (h4 : o % 4 = 0) :
    ReadGives s (BitVec.ofNat 32 o) 4 (regRead s o) := by
  have ha : (BitVec.ofNat 32 o).toNat = o := by
    rw [BitVec.toNat_ofNat]
    exact Nat.mod_eq_of_lt (by omega)
  have hregion : regionOf (BitVec.ofNat 32 o) = .reg := by
    rw [regionOf, ha, if_pos ho]
  have hdata : busData s (BitVec.ofNat 32 o) 4 = regRead s o := by
    rw [busData, hregion, ha]
  rw [← hdata]
  refine readGives_busData hr hb ?_
  simp [legalAccess, hregion, ha, h4]

end

/-- Settles O45: each of the three registers takes its bits of the word written. -/
theorem controlRegisterWrites : Obligations.ControlRegisterWrites := by
  refine fun s v hr hb => ⟨?_, ?_, ?_⟩
  · have hdone : (s.done && !v.getLsbD 1) = if v.getLsbD 1 then false else s.done := by
      cases v.getLsbD 1 <;> simp
    rw [← hdone]
    exact step_write_idle hr hb (by decide)
  · exact step_write_idle hr hb (by decide)
  · exact step_write_idle hr hb (by decide)

/-! ### The places of the register map -/

/-- The entry of a table of 4-byte entries an address names. -/
theorem ofNat_entryIndex (base : Nat) (b : Byte) :
    BitVec.ofNat 8 ((base + 4 * b.toNat - base) / 4) = b := by
  rw [Nat.add_sub_cancel_left, Nat.mul_div_cancel_left _ (by omega), BitVec.ofNat_toNat,
    BitVec.setWidth_eq]

section
variable (s : State) (b : Byte)

theorem regRead_freq : regRead s (0x400 + 4 * b.toNat) = s.freq.look b := by
  have := b.isLt
  rw [regRead, if_neg (by omega), if_pos (by omega), ofNat_entryIndex]

theorem regRead_order : regRead s (0x800 + 4 * b.toNat) = (s.order.look b).setWidth 32 := by
  have := b.isLt
  rw [regRead, if_neg (by omega), if_neg (by omega), if_pos (by omega), ofNat_entryIndex]

theorem regRead_len : regRead s (0xC00 + 4 * b.toNat) = (s.len.look b).setWidth 32 := by
  have := b.isLt
  rw [regRead, if_neg (by omega), if_neg (by omega), if_neg (by omega), if_pos (by omega),
    ofNat_entryIndex]

theorem regRead_clen : regRead s (0x1000 + 4 * b.toNat) = (s.clen.look b).setWidth 32 := by
  have := b.isLt
  rw [regRead, if_neg (by omega), if_neg (by omega), if_neg (by omega), if_neg (by omega),
    if_pos (by omega), ofNat_entryIndex]

theorem regRead_blcount : regRead s (0x1400 + 4 * b.toNat) = (s.blcount.look b).setWidth 32 := by
  have := b.isLt
  rw [regRead, if_neg (by omega), if_neg (by omega), if_neg (by omega), if_neg (by omega),
    if_neg (by omega), if_pos (by omega), ofNat_entryIndex]

/-- Word `w` of a CODE entry, the least significant first (R52). -/
theorem regRead_code {w : Nat} (hw : w < 8) : regRead s (0x2000 + 32 * b.toNat + 4 * w) =
    BitVec.ofNat 32 ((s.code.look b).toNat / 2 ^ (32 * w)) := by
  have := b.isLt
  have hcode := (s.code.look b).isLt
  rw [regRead, if_neg (by omega), if_neg (by omega), if_neg (by omega), if_neg (by omega),
    if_neg (by omega), if_neg (by omega), if_neg (by omega), if_pos (by omega),
    show (0x2000 + 32 * b.toNat + 4 * w - 0x2000) / 32 = b.toNat by omega,
    show (0x2000 + 32 * b.toNat + 4 * w) % 32 / 4 = w by omega, BitVec.ofNat_toNat,
    BitVec.setWidth_eq]
  refine BitVec.eq_of_toNat_eq ?_
  rw [BitVec.extractLsb'_toNat, BitVec.toNat_setWidth_of_le (by omega), BitVec.toNat_ofNat,
    Nat.shiftRight_eq_div_pow]

/-- Word `w` of a NODE record (R52). -/
theorem regRead_node {n w : Nat} (hn : n < 511) (hw : w < 4) :
    regRead s (0x4000 + 16 * n + 4 * w) = nodeWord s.node[n] w := by
  rw [regRead, if_neg (by omega), if_neg (by omega), if_neg (by omega), if_neg (by omega),
    if_neg (by omega), if_neg (by omega), if_neg (by omega), if_neg (by omega), if_pos (by omega),
    show (0x4000 + 16 * n + 4 * w - 0x4000) / 16 = n by omega,
    show (0x4000 + 16 * n + 4 * w) % 16 / 4 = w by omega, Vector.getElem?_eq_getElem hn,
    Option.getD_some]

theorem scalarReg_reserved {n : Nat} (h : 15 ≤ n) : scalarReg s n = 0 := by
  obtain ⟨k, rfl⟩ : ∃ k, n = k + 15 := ⟨n - 15, by omega⟩
  rfl

/-- The reserved offsets of the register region (R52, R67). -/
theorem regRead_reserved {o : Nat} (h : (0x03C ≤ o ∧ o < 0x400) ∨ (0x1800 ≤ o ∧ o < 0x2000) ∨ 0x5FF0 ≤ o) :
    regRead s o = 0 := by
  rcases h with ⟨h1, h2⟩ | ⟨h1, h2⟩ | h
  · rw [regRead, if_pos h2, scalarReg_reserved s (by omega)]
  · rw [regRead, if_neg (by omega), if_neg (by omega), if_neg (by omega), if_neg (by omega),
      if_neg (by omega), if_neg (by omega), if_pos h2]
  · rw [regRead, if_neg (by omega), if_neg (by omega), if_neg (by omega), if_neg (by omega),
      if_neg (by omega), if_neg (by omega), if_neg (by omega), if_neg (by omega), if_neg (by omega)]

end

theorem ctrlWord_eq (s : State) : s.ctrlWord = if s.irqEn then 1 else 0 := by
  unfold State.ctrlWord
  cases s.irqEn <;> rfl

/-- The value of a concatenation. -/
theorem toNat_append_eq_add {m n : Nat} (x : BitVec m) (y : BitVec n) :
    (x ++ y).toNat = x.toNat * 2 ^ n + y.toNat := by
  rw [BitVec.toNat_append, ← Nat.shiftLeft_add_eq_or_of_lt y.isLt, Nat.shiftLeft_eq]

/-- The last word of a NODE record: bit 31 VALID, bit 8 IS_LEAF, bits 7:0 SYM (R52). -/
theorem nodeWord_flags (nd : Node) : nodeWord nd 3 =
    BitVec.ofNat 32 (nd.valid.toNat * 2 ^ 31 + nd.isLeaf.toNat * 2 ^ 8 + nd.sym.toNat) := by
  have hsym := nd.sym.isLt
  refine BitVec.eq_of_toNat_eq ?_
  have hvalid := nd.valid.toNat_lt
  have hleaf := nd.isLeaf.toNat_lt
  have hzero : (0 : BitVec 22).toNat = 0 := rfl
  simp only [nodeWord, toNat_append_eq_add, BitVec.toNat_ofNat, BitVec.toNat_ofBool]
  omega

/-- A place that is reserved, in the register region or outside every region, reads 0 (R67). -/
theorem readGives_reserved {s : State} (hr : s.inReset = false) (hb : s.busy = false) {a : Word}
    (h4 : 4 ∣ a.toNat) (h : (0x03C ≤ a.toNat ∧ a.toNat < 0x400) ∨
      (0x1800 ≤ a.toNat ∧ a.toNat < 0x2000) ∨ (0x5FF0 ≤ a.toNat ∧ a.toNat < 0x40000000) ∨
      0xC0000000 ≤ a.toNat) : ReadGives s a 4 0 := by
  have hallowed : AccessAllowed a 4 := by
    unfold AccessAllowed
    rw [if_neg (by omega)]
    exact ⟨rfl, h4⟩
  have hdata : busData s a 4 = 0 := by
    by_cases hreg : a.toNat < 0x10000
    · rw [busData, regionOf, if_pos hreg]
      exact regRead_reserved s (by omega)
    · have hregion : regionOf a = .reserved := by
        by_cases hlow : a.toNat < 0x40000000
        · rw [regionOf, if_neg hreg, if_pos hlow]
        · rw [regionOf, if_neg hreg, if_neg hlow, if_neg (by omega), if_neg (by omega)]
      rw [busData, hregion]
  rw [← hdata]
  exact readGives_busData hr hb ((legalAccess_iff a 4).2 hallowed)

/-- Settles O42: each place of R52's table is one branch of the register read. -/
theorem registerMapReads : Obligations.RegisterMapReads := by
  intro s hr hb
  have read : ∀ {o : Nat} {d : Word}, o < 0x10000 → o % 4 = 0 → regRead s o = d →
      ReadGives s (BitVec.ofNat 32 o) 4 d := fun ho h4 hd => hd ▸ readGives_regRead hr hb ho h4
  refine ⟨read (by decide) rfl rfl, read (by decide) rfl rfl, read (by decide) rfl (ctrlWord_eq s),
    read (by decide) rfl rfl, read (by decide) rfl rfl, read (by decide) rfl rfl,
    read (by decide) rfl rfl, read (by decide) rfl rfl, read (by decide) rfl rfl,
    read (by decide) rfl rfl, read (by decide) rfl rfl, read (by decide) rfl rfl,
    read (by decide) rfl rfl, read (by decide) rfl rfl, read (by decide) rfl rfl,
    fun b => ?_, fun n hn => ?_, fun a h4 ha => readGives_reserved hr hb h4 ha⟩
  · have := b.isLt
    exact ⟨read (by omega) (by omega) (regRead_freq s b),
      read (by omega) (by omega) (regRead_order s b), read (by omega) (by omega) (regRead_len s b),
      read (by omega) (by omega) (regRead_clen s b),
      read (by omega) (by omega) (regRead_blcount s b),
      fun w hw => read (by omega) (by omega) (regRead_code s b hw)⟩
  · exact ⟨read (by omega) (by omega) (regRead_node s hn (w := 0) (by omega)),
      read (by omega) (by omega) (regRead_node s hn (w := 1) (by omega)),
      read (by omega) (by omega) (regRead_node s hn (w := 2) (by omega)),
      read (by omega) (by omega) ((regRead_node s hn (w := 3) (by omega)).trans (nodeWord_flags _))⟩

end Sys2Proof.Machine
end

section
/-! PROOFS. The host bus with reset released (20_memory.md): bus errors (R66), reads while BUSY (R70), the two
windows (R64, R65, R68) and the writes that are ignored (R67, R69). -/

namespace Sys2Proof.Machine

/-! ### One access of the host -/

theorem tick_eq (s : State) :
    s.tick = { s with delay := if s.busy then s.delay - 1 else s.delay } := by
  unfold State.tick
  split <;> rfl

section
variable {s : State} {a : Word} {n : Nat} {ops : List BusOp} (h : s.busy = false ∨ 0 < s.delay)
include h

/-- Before a completion step is due the host has its turn (R76). -/
theorem step_before_completion : step s = .next (hostTurn s.tick) := by
  refine step_of_not_due ?_
  rw [Bool.eq_false_iff, Ne, completionDue_iff]
  rintro ⟨-, hb, hd⟩
  rcases h with h | h
  · rw [h] at hb
    cases hb
  · omega

theorem step_write_before_completion {v : Word} (hinbox : s.inbox = .write a n v :: ops) :
    step s = .next (busWrite a n v
      { s with delay := if s.busy then s.delay - 1 else s.delay, inbox := ops }) := by
  rw [step_before_completion h, tick_eq]
  simp only [hostTurn, hinbox]

theorem step_read_before_completion (hinbox : s.inbox = .read a n :: ops) :
    step s = .next (busRead a n
      { s with delay := if s.busy then s.delay - 1 else s.delay, inbox := ops }) := by
  rw [step_before_completion h, tick_eq]
  simp only [hostTurn, hinbox]

end

/-! ### Bus errors -/

/-- No write has an effect on the replies logged: `busWrite` logs its own. -/
theorem writeEffect_replies (a : Word) (n : Nat) (v : Word) (s : State) :
    (writeEffect a n v s).replies = s.replies := by
  rcases writeEffect_cases a n v s with h | ⟨d, h, -⟩ | h | h | ⟨o, h⟩ | h <;> simp [h]

/-- A legal write is answered without a bus error, whatever the block is doing. -/
theorem busWrite_replies_legal {s : State} {a : Word} {n : Nat} {v : Word}
    (ha : legalAccess a n = true) : (busWrite a n v s).replies = ⟨0, false⟩ :: s.replies := by
  cases hr : s.inReset with
  | true => rw [busWrite_reset ha hr]
  | false =>
    cases hb : s.busy with
    | true => rw [busWrite_busy ha hr hb]
    | false => rw [busWrite_idle ha hr hb, writeEffect_replies]

theorem legalAccess_eq_false {a : Word} {n : Nat} (ha : ¬ AccessAllowed a n) :
    legalAccess a n = false := by
  rwa [← legalAccess_iff, Bool.not_eq_true] at ha

/-- Settles O47: before a completion step is due the step is the host's access, and legality alone decides
whether the bus answers it with an error. -/
theorem busErrorExactlyOnIllegalAccess : Obligations.BusErrorExactlyOnIllegalAccess := by
  refine fun s a n v ops _ hd => ⟨fun hinbox ha => ?_, fun hinbox ha => ?_, ?_⟩
  · rw [step_write_before_completion hd hinbox, busWrite_illegal (legalAccess_eq_false ha)]
  · rw [step_read_before_completion hd hinbox, busRead_eq,
      busReadReply_illegal (legalAccess_eq_false ha)]
  · rintro (hinbox | hinbox) ha
    · exact ⟨_, 0, step_write_before_completion hd hinbox,
        busWrite_replies_legal ((legalAccess_iff a n).2 ha)⟩
    · obtain ⟨d, hreply⟩ := busReadReply_legal ((legalAccess_iff a n).2 ha)
      exact ⟨_, d, step_read_before_completion hd hinbox, congrArg (· :: s.replies) hreply⟩

/-! ### Reads while BUSY = 1 -/

/-- What stays defined while BUSY = 1 is answered as while BUSY = 0 (R70). -/
theorem busReadReply_readable {s : State} {a : Word} {n : Nat} (hl : legalAccess a n = true)
    (hr : s.inReset = false) (ha : readableWhileBusy a = true) :
    busReadReply s a n = ⟨busData s a n, false⟩ := by
  simp [busReadReply, hl, hr, ha]

/-- Settles O49: a read changes nothing of the block (R75), and the three registers R70 names are answered
from the register map. -/
theorem readsWhileBusy : Obligations.ReadsWhileBusy := by
  intro s a n ops hr hb hd hinbox ha
  have hl := (legalAccess_iff a n).2 ha
  have hstep := step_read_before_completion (.inr hd) hinbox
  obtain ⟨d, hreply⟩ := busReadReply_legal (s := { s with delay := s.delay - 1, inbox := ops }) hl
  rw [if_pos hb, busRead_eq, hreply] at hstep
  have hdata : readableWhileBusy a = true →
      d = busData { s with delay := s.delay - 1, inbox := ops } a n := fun hread =>
    congrArg BusReply.data (hreply.symm.trans (busReadReply_readable hl hr hread))
  refine ⟨d, hstep, ?_, ?_, ?_⟩ <;>
  · rintro rfl
    exact hdata (by decide)

/-! ### The windows while BUSY = 0 -/

theorem toNat_windowAddress {base o : Nat} (h : base + o < 2 ^ 32) :
    (BitVec.ofNat 32 (base + o)).toNat = base + o := by
  rw [BitVec.toNat_ofNat, Nat.mod_eq_of_lt h]

/-- The bytes a window shows, as the sum of R65. -/
theorem gather_eq_sum (m : Memory) (size o n : Nat) : gather m size o n =
    ((List.range n).map fun k => 256 ^ k *
      (if o + k < size then (m.read (o + k)).toNat else 0)).sum := by
  induction n generalizing o with
  | zero => rfl
  | succ n ih =>
    have hhead : (windowByte m size o).toNat = if o < size then (m.read o).toNat else 0 := by
      unfold windowByte
      split <;> rfl
    rw [gather, hhead, ih, List.range_succ_eq_map, List.map_cons, List.sum_cons, List.map_map,
      ← List.sum_map_mul_left]
    simp only [Function.comp_def, pow_succ', pow_zero, one_mul, add_zero, mul_assoc,
      Nat.succ_eq_add_one, Nat.add_assoc, Nat.add_comm 1]

section
variable {o n : Nat} (ho : o < 2 ^ 30)
include ho

theorem regionOf_ibufWindow : regionOf (BitVec.ofNat 32 (0x40000000 + o)) = .ibuf := by
  rw [regionOf, toNat_windowAddress (by omega), if_neg (by omega), if_neg (by omega),
    if_pos (by omega)]

theorem regionOf_obufWindow : regionOf (BitVec.ofNat 32 (0x80000000 + o)) = .obuf := by
  rw [regionOf, toNat_windowAddress (by omega), if_neg (by omega), if_neg (by omega),
    if_neg (by omega), if_pos (by omega)]

theorem busData_ibufWindow (s : State) : busData s (BitVec.ofNat 32 (0x40000000 + o)) n =
    BitVec.ofNat 32 (gather s.ibuf s.capInMax.toNat o n) := by
  rw [busData, regionOf_ibufWindow ho, toNat_windowAddress (by omega), ibufBase,
    Nat.add_sub_cancel_left]

theorem busData_obufWindow (s : State) : busData s (BitVec.ofNat 32 (0x80000000 + o)) n =
    BitVec.ofNat 32 (gather s.obuf s.capObufSize.toNat o n) := by
  rw [busData, regionOf_obufWindow ho, toNat_windowAddress (by omega), obufBase,
    Nat.add_sub_cancel_left]

/-- The effect of a write to the IBUF window. -/
theorem writeEffect_ibufWindow (v : Word) (s : State) :
    writeEffect (BitVec.ofNat 32 (0x40000000 + o)) n v s =
      { s with ibuf := scatter s.capInMax.toNat s.ibuf o n v.toNat } := by
  rw [writeEffect, regionOf_ibufWindow ho, toNat_windowAddress (by omega), ibufBase,
    Nat.add_sub_cancel_left]

/-- Aligned accesses of 1, 2 and 4 bytes of a window whose base is a multiple of 4 are legal (R64). -/
theorem legalAccess_window {base : Nat} (hbase : base = 0x40000000 ∨ base = 0x80000000)
    (hn : n = 1 ∨ n = 2 ∨ n = 4) (hno : n ∣ o) :
    legalAccess (BitVec.ofNat 32 (base + o)) n = true := by
  rw [legalAccess_iff, AccessAllowed, toNat_windowAddress (by omega), if_pos (by omega)]
  refine ⟨hn, ?_⟩
  have hdvd : n ∣ base := by
    rcases hn with rfl | rfl | rfl <;> omega
  exact hdvd.add hno

end

/-- Settles O43: a read answers what the window shows, which is R65's sum. -/
theorem windowReadsAreLittleEndian : Obligations.WindowReadsAreLittleEndian := by
  refine fun s o n hr hb ho hn hno => ⟨?_, ?_⟩
  · rw [← gather_eq_sum, ← busData_ibufWindow ho]
    exact readGives_busData hr hb (legalAccess_window ho (.inl rfl) hn hno)
  · rw [← gather_eq_sum, ← busData_obufWindow ho]
    exact readGives_busData hr hb (legalAccess_window ho (.inr rfl) hn hno)

/-- Byte `k` of a word, by division. -/
theorem ofNat_div_eq_extractLsb' (v : Word) (k : Nat) :
    BitVec.ofNat 8 (v.toNat / 256 ^ k) = v.extractLsb' (8 * k) 8 := by
  refine BitVec.eq_of_toNat_eq ?_
  rw [BitVec.extractLsb'_toNat, BitVec.toNat_ofNat, Nat.shiftRight_eq_div_pow, Nat.pow_mul]

/-- Settles O44: the buffer left is the one that has the data's bytes scattered over it. -/
theorem inputWindowWrites : Obligations.InputWindowWrites := by
  intro s o n v hr hb hwf ho hn hno
  refine ⟨scatter s.capInMax.toNat s.ibuf o n v.toNat, ?_, fun i => ?_⟩
  · rw [WriteLeaves, step_write_idle hr hb (legalAccess_window ho (.inl rfl) hn hno),
      writeEffect_ibufWindow ho]
  · rw [scatter_read _ _ _ _ _ _ hwf, ofNat_div_eq_extractLsb']

/-! ### Writes that are ignored -/

/-- From 0x010 up the register region holds nothing a host write changes (R52, R67). -/
theorem regWrite_ignored (s : State) {o : Nat} (ho : 0x010 ≤ o) (v : Word) : regWrite s o v = s := by
  rw [regWrite, if_neg (by omega), if_neg (by omega), if_neg (by omega), if_neg (by omega)]

theorem writeEffect_ignored {a : Word} (ha : 0x010 ≤ a.toNat)
    (hw : a.toNat < 0x40000000 ∨ 0x80000000 ≤ a.toNat) (n : Nat) (v : Word) (s : State) :
    writeEffect a n v s = s := by
  cases hregion : regionOf a with
  | reg => rw [writeEffect, hregion]; exact regWrite_ignored s ha v
  | reserved => rw [writeEffect, hregion]
  | obuf => rw [writeEffect, hregion]
  | ibuf =>
    unfold regionOf at hregion
    split_ifs at hregion
    omega

/-- Settles O46: outside the IBUF window and the registers below 0x010 a write has no effect. -/
theorem readOnlyPlacesIgnoreWrites : Obligations.ReadOnlyPlacesIgnoreWrites := by
  intro s a n v hr hb ha hlow hw
  rw [WriteLeaves, step_write_idle hr hb ((legalAccess_iff a n).2 ha),
    writeEffect_ignored hlow hw]

end Sys2Proof.Machine
end

section
/-! PROOFS. Command words (30_encoding.md R90 to R93): which words the decoder accepts, and how a word that is
no command completes (R242). -/

namespace Sys2Proof

/-! ### The opcode table and the two fields of a word -/

/-- The row law of each command (R92), for all of them at once. -/
theorem opcodeRow : ∀ i : Instr, Laws.OpcodeRow.Statement i
  | .nop => Laws.OpcodeRow.nop
  | .clear => Laws.OpcodeRow.clear
  | .count => Laws.OpcodeRow.count
  | .build => Laws.OpcodeRow.build
  | .extract => Laws.OpcodeRow.extract
  | .assign => Laws.OpcodeRow.assign
  | .pack => Laws.OpcodeRow.pack
  | .header => Laws.OpcodeRow.header
  | .run => Laws.OpcodeRow.run

theorem lookupOpcode_opcode (i : Instr) : lookupOpcode (opcode i) = some i := by
  cases i <;> rfl

theorem lookupOpcode_eq_some_iff (c : Byte) (i : Instr) : lookupOpcode c = some i ↔ c = opcode i := by
  refine ⟨fun h => ?_, fun h => h ▸ lookupOpcode_opcode i⟩
  obtain ⟨row, hfind, hi⟩ := Option.map_eq_some_iff.1 h
  have hc : row.1 = c := by simpa using List.find?_some hfind
  obtain ⟨-, -, -, hrow⟩ := opcodeRow i
  rw [← hc]
  exact (hrow row (List.mem_of_find?_eq_some hfind)).2 hi

/-- The two fields of a command's word say which word it is (R90, R92). -/
theorem eq_encode_iff (w : Word) (i : Instr) : w = encode i ↔ rsvOf w = 0 ∧ opcOf w = opcode i := by
  obtain ⟨-, hrsv, hopc, -⟩ := opcodeRow i
  refine ⟨fun h => h ▸ ⟨hrsv, hopc⟩, fun ⟨hr, ho⟩ => ?_⟩
  have hw : rsvOf w ++ opcOf w = w := BitVec.extractLsb'_append_extractLsb' (w := 24) (len := 8)
  rw [← hw, hr, ho, encode]

theorem rsvOf_eq_zero_iff (w : Word) : rsvOf w = 0 ↔ w.toNat / 256 = 0 := by
  have := w.isLt
  rw [rsvOf, BitVec.toNat_eq, BitVec.extractLsb'_toNat, Nat.shiftRight_eq_div_pow,
    Nat.mod_eq_of_lt (by omega)]
  rfl

theorem toNat_opcOf (w : Word) : (opcOf w).toNat = w.toNat % 256 := by
  rw [opcOf, BitVec.extractLsb'_toNat]
  rfl

/-- The opcodes of the nine commands, as numbers (R92). -/
theorem exists_opcode_iff (c : Byte) : (∃ i, c = opcode i) ↔
    c.toNat ∈ [0x00, 0x01, 0x10, 0x11, 0x12, 0x13, 0x14, 0x15, 0x20] := by
  constructor
  · rintro ⟨i, rfl⟩
    cases i <;> decide
  · intro h
    have hmem : c ∈ opcodeTable.map Prod.fst :=
      (List.mem_map_of_injective (f := BitVec.toNat) fun _ _ => BitVec.eq_of_toNat_eq).1 h
    obtain ⟨row, hrow, rfl⟩ := List.mem_map.1 hmem
    obtain ⟨-, -, -, htable⟩ := opcodeRow row.2
    exact ⟨row.2, (htable row hrow).2 rfl⟩

/-! ### The decoder -/

/-- The decoder accepts exactly the words of the encoder (R93, R122). -/
theorem decode_eq_ok_iff (w : Word) (i : Instr) : decode w = .ok i ↔ w = encode i := by
  rw [eq_encode_iff, ← lookupOpcode_eq_some_iff, decode]
  by_cases hr : rsvOf w = 0
  · rw [if_pos hr, and_iff_right hr]
    cases lookupOpcode (opcOf w) <;> simp
  · rw [if_neg hr]
    exact iff_of_false nofun fun h => hr h.1

/-- A word is a command exactly when its reserved bits are 0 and its opcode is listed (R93). -/
theorem exists_decode_ok_iff (w : Word) : (∃ i, decode w = .ok i) ↔
    w.toNat / 256 = 0 ∧ w.toNat % 256 ∈ [0x00, 0x01, 0x10, 0x11, 0x12, 0x13, 0x14, 0x15, 0x20] := by
  simp only [decode_eq_ok_iff, eq_encode_iff, exists_and_left]
  rw [rsvOf_eq_zero_iff, exists_opcode_iff, toNat_opcOf]

/-- Settles O3: the decoder inverts the encoder, whose words are those with the two fields of R90 listed. -/
theorem decodeAcceptsExactlyListedWords : Obligations.DecodeAcceptsExactlyListedWords :=
  fun w => ⟨exists_decode_ok_iff w, fun i => (decode_eq_ok_iff w i).1⟩

/-- Settles O1: the decoder evaluated on the words of R92 and on three words that are no command. -/
theorem commandWordsOfTheTable : Obligations.CommandWordsOfTheTable := by
  unfold Obligations.CommandWordsOfTheTable
  decide

/-- The opcode table's numbering reads 32-bit words as the decoder does (R94). -/
theorem decodeTableWord_toNat (w : Word) : decodeTableWord 32 w.toNat = (decode w).toOption := by
  rw [decodeTableWord, Nat.mod_eq_of_lt w.isLt, if_pos w.isLt, BitVec.ofNat_toNat, BitVec.setWidth_eq]
  cases decode w <;> rfl

/-- Settles O2: the decoder accepts a command's own word as that command. -/
theorem decodeInvertsEncode : Obligations.DecodeInvertsEncode := by
  intro i _
  have hdecode : decode (encode i) = .ok i := (decode_eq_ok_iff _ _).2 rfl
  exact ⟨hdecode, by rw [decodeTableWord_toNat, hdecode]; rfl⟩

/-! ### Words that are no command -/

namespace Machine

/-- Settles O6: a word whose fields are not those of R92 is not decoded, so it completes as illegal (R122). -/
theorem illegalWordCompletes : Obligations.IllegalWordCompletes := by
  intro s hreset hbusy hdelay hillegal
  rw [step_of_due ((completionDue_iff s).2 ⟨hreset, hbusy, hdelay⟩)]
  rcases completionStep_cases s with ⟨i, hi, -⟩ | ⟨-, hstep⟩
  · obtain ⟨hrsv, hopc⟩ := (exists_decode_ok_iff s.pending).1 ⟨i, hi⟩
    exact (hillegal.elim (· hrsv) (· hopc)).elim
  · exact hstep

end Machine
end Sys2Proof
end

section
/-! PROOFS. POLL (30_encoding.md R95): one read per step, repeated until the value matches. -/

namespace Sys2Proof.Machine

/-- A host turn on a POLL is the read of its place; the answer decides whether the POLL stays (R95). -/
theorem hostTurn_poll {s : State} {a mask v : Word} {ops : List BusOp}
    (hinbox : s.inbox = .poll a mask v :: ops) :
    hostTurn s = { s with
      inbox := if (busReadReply s a 4).data &&& mask = v then ops else .poll a mask v :: ops
      freeCount := s.freeCount + 1
      replies := busReadReply s a 4 :: s.replies } := by
  simp only [hostTurn, hinbox]
  split
  · rfl
  · rw [← hinbox]
    rfl

/-- The answer of a read, from what the read of an idle block gives. -/
theorem ReadGives.busReadReply_eq {s : State} {a d : Word} {n : Nat} (h : ReadGives s a n d)
    (hb : s.busy = false) : busReadReply s a n = ⟨d, false⟩ := by
  rw [ReadGives, step_idle (s := { s with inbox := [.read a n] }) hb] at h
  have hreplies : busReadReply s a n :: s.replies = ⟨d, false⟩ :: s.replies :=
    congrArg State.replies (Host.Outcome.next.inj h)
  exact (List.cons.inj hreplies).1

/-- STATUS masked with bit 0 is not 0 while BUSY = 1 (R22). -/
theorem statusWord_and_one_ne_zero {s : State} (hb : s.busy = true) : s.statusWord &&& 1 ≠ 0 := by
  intro h
  have hbit := congrArg (BitVec.getLsbD · 0) h
  rw [BitVec.getLsbD_and, (statusWordLayout s).1, hb] at hbit
  cases hbit

/-- Settles O50: a POLL is a read that stays in the list on a mismatch, and the WAIT poll mismatches while
BUSY = 1. -/
theorem pollRepeatsUntilMatch : Obligations.PollRepeatsUntilMatch := by
  refine ⟨fun s a mask v d ops hb hread => ?_, fun s ops hr hb hd hinbox => ?_⟩
  · have hreply : busReadReply { s with inbox := .poll a mask v :: ops } a 4 = ⟨d, false⟩ :=
      hread.busReadReply_eq hb
    rw [step_idle (s := { s with inbox := .poll a mask v :: ops }) hb, hostTurn_poll rfl, hreply]
  · have hreply : busReadReply { s with delay := s.delay - 1 } 0x004 4 = ⟨s.statusWord, false⟩ :=
      busReadReply_readable (by decide) hr (by decide)
    rw [step_before_completion (.inr hd), tick_busy hb,
      hostTurn_poll (s := { s with delay := s.delay - 1 }) hinbox, hreply,
      if_neg (statusWord_and_one_ne_zero hb), ← hinbox]

end Sys2Proof.Machine
end

section
/-! PROOFS. PACK and HEADER when they complete (46_bit_packer.md R222 to R225, 45_header_serializer.md R201 to
R204). -/

namespace Sys2Proof.Machine

/-! ### PACK -/

theorem State.input_eq_map (s : State) : s.input = (List.range s.inLen.toNat).map s.ibuf.read := by
  simp [State.input, Memory.readRange_eq]

/-- Settles O25: with codes and room for the whole input PACK writes the bit stream's bytes as one range behind
the header. -/
theorem packWritesPayload : Obligations.PackWritesPayload := by
  intro s hstage hwf hlen
  rw [← s.input_eq_map]
  intro input T hcoded hroom
  have hbytes : (T + 7) / 8 < 2 ^ 32 := by
    have := s.capObufSize.isLt
    omega
  have hexec : exec .pack s = (bodyPack s).complete :=
    (exec_eq_complete .pack s).trans (congrArg _ (withStage_of_eq _ _ _ _ hstage))
  rw [bodyPack_ok hlen hcoded hroom] at hexec
  refine ⟨_, _, _, hexec, ?_, ?_, fun k hk => ?_, fun o ho => ?_⟩
  · exact Nat.mod_eq_of_lt (Nat.mod_lt T (by decide))
  · exact Nat.mod_eq_of_lt hbytes
  · exact Memory.read_writeRange_streamBytes hwf _ _ _ _ hk
  · exact Memory.read_writeRange_outside _ _ _ _ (by rwa [length_streamBytes])

/-! ### HEADER -/

/-- HEADER, when its bytes have room (R200, R204). -/
theorem exec_header_ok {s : State} (hstage : s.stage = .packed)
    (hroom : s.headerBytes.length ≤ s.capObufSize.toNat) :
    exec .header s = .next { s with
      obuf := s.obuf.writeRange 0 s.headerBytes, outLen := s.hdrLen.setWidth 32 + s.payloadLen,
      stage := .done, busy := false, done := true } := by
  rw [exec_eq_complete, commandBody, withStage_of_eq _ _ _ _ hstage, bodyHeader,
    if_neg (Nat.not_lt.2 hroom)]
  rfl

/-- What HEADER leaves at an offset of the header block. -/
theorem Memory.read_writeRange_zero {m : Memory} (hm : m.wf) {vs : List Byte} {k : Nat}
    (hk : k < vs.length) : (m.writeRange 0 vs).read k = vs[k]?.getD 0 := by
  rw [Memory.read_writeRange _ _ _ _ hm, if_pos (by omega), Nat.sub_zero]

/-- The control byte as a number (R101). -/
theorem toNat_controlByte (leftover : BitVec 3) (dense : Bool) :
    (controlByte leftover dense).toNat = leftover.toNat * 32 + if dense then 16 else 0 := by
  revert leftover dense
  decide

/-! #### The dense format -/

theorem State.headerBytes_dense {s : State} (h : s.dense = true) :
    s.headerBytes = controlByte s.leftover true :: s.denseTable := by
  rw [State.headerBytes, h, if_pos rfl]

/-- The dense table lists CLEN by byte value (R203). -/
theorem State.getElem?_denseTable (s : State) (v : Byte) :
    s.denseTable[v.toNat]? = some (s.clen.look v) := by
  simp [State.denseTable, allBytes, v.isLt]

/-- Settles O28: the dense header block is the control byte and CLEN. -/
theorem headerWritesDenseTable : Obligations.HeaderWritesDenseTable := by
  intro s hstage hdense hwf hcap
  have hlen : s.headerBytes.length = 257 := by rw [s.length_headerBytes, hdense, if_pos rfl]
  have hread : ∀ k, k < 257 → (s.obuf.writeRange 0 s.headerBytes).read k =
      (controlByte s.leftover true :: s.denseTable)[k]?.getD 0 := fun k hk => by
    rw [Memory.read_writeRange_zero hwf (by omega), State.headerBytes_dense hdense]
  refine ⟨_, exec_header_ok hstage (by omega), ?_, fun v => ?_, fun o ho => ?_⟩
  · rw [hread 0 (by omega)]
    exact toNat_controlByte s.leftover true
  · have hv := v.isLt
    rw [hread _ (by omega), Nat.add_comm, List.getElem?_cons_succ, s.getElem?_denseTable]
    rfl
  · exact Memory.read_writeRange_outside _ _ _ _ (by omega)

/-! #### The sparse format -/

/-- The count bytes of the sparse table, length 1 first (R103). -/
def State.countBytes (s : State) : List Byte :=
  (List.range' 1 s.maxLen.toNat).map fun n => (s.blcount[n]?.getD 0).setWidth 8

theorem State.headerBytes_sparse {s : State} (h : s.dense = false) :
    s.headerBytes = controlByte s.leftover false :: s.nsym.setWidth 8 ::
      (s.countBytes ++ s.canonicalOrder) := by
  rw [State.headerBytes, h]
  rfl

@[simp] theorem State.length_countBytes (s : State) : s.countBytes.length = s.maxLen.toNat := by
  simp [State.countBytes]

theorem State.getElem?_countBytes (s : State) {n : Byte} {k : Nat} (hn : n.toNat = 1 + k)
    (hk : k < s.maxLen.toNat) : s.countBytes[k]? = some ((s.blcount.look n).setWidth 8) := by
  have hlook : s.blcount[1 + k]? = some (s.blcount.look n) := by
    rw [← hn]
    exact Vector.getElem?_eq_getElem n.isLt
  simp [State.countBytes, hk, hlook]

/-- The canonical order lists the bytes with a length up to MAXLEN (R103). -/
theorem State.mem_canonicalOrder (s : State) (b : Byte) : b ∈ s.canonicalOrder ↔
    1 ≤ (s.clen.look b).toNat ∧ (s.clen.look b).toNat ≤ s.maxLen.toNat := by
  simp only [State.canonicalOrder, List.mem_flatMap, List.mem_range'_1, mem_bucket, lengthsOf]
  refine ⟨?_, fun h => ⟨_, by omega, rfl⟩⟩
  rintro ⟨n, hn, rfl⟩
  omega

/-- The canonical order goes by ascending length, and by ascending value within a length (R202). -/
theorem State.canonicalOrder_pairwise (s : State) : s.canonicalOrder.Pairwise fun a b =>
    (s.clen.look a).toNat < (s.clen.look b).toNat ∨
      (s.clen.look a = s.clen.look b ∧ a.toNat < b.toNat) := by
  refine List.pairwise_flatMap.2 ⟨fun n _ => ?_, ?_⟩
  · refine (bucket_sorted _ n).imp_of_mem fun {a b} ha hb hab => .inr ⟨?_, hab⟩
    exact BitVec.eq_of_toNat_eq (((mem_bucket _ _ a).1 ha).trans ((mem_bucket _ _ b).1 hb).symm)
  · refine (List.pairwise_lt_range' 1).imp fun {n n'} hlt a ha b hb => .inl ?_
    have ha' : (s.clen.look a).toNat = n := (mem_bucket _ _ a).1 ha
    have hb' : (s.clen.look b).toNat = n' := (mem_bucket _ _ b).1 hb
    omega

/-- Settles O29: the sparse header block is the control byte, NSYM, the counts and the canonical order. -/
theorem headerWritesSparseTable : Obligations.HeaderWritesSparseTable := by
  intro s hstage hdense hwf hnsym coded hroom
  have hsyms : s.canonicalOrder.length = coded := s.length_canonicalOrder
  have hlen : s.headerBytes.length = 2 + s.maxLen.toNat + coded := by
    rw [s.length_headerBytes, hdense, if_neg Bool.false_ne_true]
  have hread : ∀ k, k < 2 + s.maxLen.toNat + coded →
      (s.obuf.writeRange 0 s.headerBytes).read k = (controlByte s.leftover false ::
        s.nsym.setWidth 8 :: (s.countBytes ++ s.canonicalOrder))[k]?.getD 0 := fun k hk => by
    rw [Memory.read_writeRange_zero hwf (by omega), State.headerBytes_sparse hdense]
  refine ⟨_, s.canonicalOrder, exec_header_ok hstage (by omega), ?_, ?_, fun n h1 hmax => ?_, hsyms,
    s.mem_canonicalOrder, s.canonicalOrder_pairwise, fun i hi => ?_, fun o ho => ?_⟩
  · rw [hread 0 (by omega)]
    exact toNat_controlByte s.leftover false
  · rw [hread 1 (by omega)]
    exact (BitVec.toNat_setWidth _ _).trans (Nat.mod_eq_of_lt (by omega))
  · obtain ⟨k, hk⟩ : ∃ k, n.toNat = 1 + k := ⟨n.toNat - 1, by omega⟩
    rw [hread _ (by omega), show 1 + n.toNat = k + 1 + 1 by omega, List.getElem?_cons_succ,
      List.getElem?_cons_succ, List.getElem?_append_left (by rw [s.length_countBytes]; omega),
      s.getElem?_countBytes hk (by omega)]
    rfl
  · rw [hread _ (by omega), show 2 + s.maxLen.toNat + i = s.maxLen.toNat + i + 1 + 1 by omega,
      List.getElem?_cons_succ, List.getElem?_cons_succ,
      List.getElem?_append_right (by rw [s.length_countBytes]; omega), s.length_countBytes,
      Nat.add_sub_cancel_left]
  · exact Memory.read_writeRange_outside _ _ _ _ (by omega)

end Sys2Proof.Machine
end

section
/-! PROOFS. The command frame (40_command_control.md R120 to R126): acceptance, the wait for the completion
step, that step, the stage check, NOP and CLEAR. -/

namespace Sys2Proof.Machine

/-! ### Acceptance -/

/-- A write of CMD while BUSY = 0 is the acceptance of its word (R120). -/
theorem writeEffect_cmd (v : Word) (s : State) : writeEffect 0x000 4 v s =
    { s.accept v (Config.completionDelay s.freeCount) with freeCount := s.freeCount + 1 } := rfl

/-- Settles O4: a write of CMD is an acceptance while BUSY = 0 and is dropped while BUSY = 1. -/
theorem commandAcceptance : Obligations.CommandAcceptance := by
  refine ⟨fun s w ops hr hb hinbox => ?_, fun s w ops hr hb hd hinbox => ?_⟩
  · have hstep := step_write_before_completion (.inl hb) hinbox
    rw [busWrite_idle (s := { s with
        delay := if s.busy then s.delay - 1 else s.delay, inbox := ops }) (by decide) hr hb,
      writeEffect_cmd] at hstep
    exact ⟨_, _, hstep⟩
  · refine ⟨_, step_write_before_completion (.inr hd) hinbox, ?_⟩
    rw [busWrite_busy (s := { s with
      delay := if s.busy then s.delay - 1 else s.delay, inbox := ops }) (by decide) hr hb]
    exact ⟨rfl, hb, rfl, rfl, rfl, rfl⟩

/-! ### The wait for the completion step -/

/-- `t` is `s` but for WBUSY and the fields of the host and the model; no operation joins the host's list. -/
def ChangesOnlyWbusy (s t : State) : Prop :=
  ∃ (wbusy : Bool) (inbox : List BusOp) (freeCount : Nat) (replies : List BusReply),
    t = { s with wbusy := wbusy, inbox := inbox, freeCount := freeCount, replies := replies } ∧
    ∀ op ∈ inbox, op ∈ s.inbox

theorem busWrite_changesOnlyWbusy {s : State} (hr : s.inReset = false) (hb : s.busy = true) (a : Word)
    (n : Nat) (v : Word) : ChangesOnlyWbusy s (busWrite a n v s) := by
  cases ha : legalAccess a n with
  | true => exact ⟨true, s.inbox, s.freeCount, _, busWrite_busy ha hr hb, fun _ h => h⟩
  | false => exact ⟨s.wbusy, s.inbox, s.freeCount, _, busWrite_illegal ha, fun _ h => h⟩

/-- While a command is in progress the host, short of a reset, can change WBUSY alone (R28, R70). -/
theorem hostTurn_changesOnlyWbusy {s : State} (hr : s.inReset = false) (hb : s.busy = true)
    (hops : ∀ op ∈ s.inbox, op ≠ .resetAssert) : ChangesOnlyWbusy s (hostTurn s) := by
  cases hinbox : s.inbox with
  | nil =>
    have hturn : hostTurn s = s := by simp only [hostTurn, hinbox]
    exact ⟨s.wbusy, s.inbox, s.freeCount, s.replies, hturn, fun _ h => h⟩
  | cons op ops =>
    have htail : ∀ op' ∈ ops, op' ∈ s.inbox := fun op' h => hinbox ▸ List.mem_cons_of_mem op h
    cases op with
    | write a n v =>
      obtain ⟨wbusy, inbox, freeCount, replies, hwrite, hmem⟩ :=
        busWrite_changesOnlyWbusy (s := { s with inbox := ops }) hr hb a n v
      refine ⟨wbusy, inbox, freeCount, replies, ?_, fun op' h => htail op' (hmem op' h)⟩
      simp only [hostTurn, hinbox, hwrite]
    | read a n =>
      have hturn : hostTurn s = busRead a n { s with inbox := ops } := by simp only [hostTurn, hinbox]
      exact ⟨s.wbusy, ops, _, _, hturn.trans (busRead_eq ..), htail⟩
    | poll a mask v =>
      refine ⟨s.wbusy, _, _, _, hostTurn_poll hinbox, fun op' h => ?_⟩
      split at h
      · exact htail op' h
      · rwa [hinbox]
    | resetAssert => exact absurd rfl (hops .resetAssert (by simp [hinbox]))
    | resetRelease =>
      exact ⟨s.wbusy, ops, s.freeCount, s.replies, by simp only [hostTurn, hinbox, hr], htail⟩

/-- A step before the completion step counts the delay down and is a turn of the host (R281). -/
theorem step_waiting {s : State} (hr : s.inReset = false) (hb : s.busy = true) (hd : 0 < s.delay)
    (hops : ∀ op ∈ s.inbox, op ≠ .resetAssert) :
    ∃ t, step s = .next t ∧ ChangesOnlyWbusy { s with delay := s.delay - 1 } t :=
  ⟨_, step_before_completion (.inr hd), by
    rw [tick_busy hb]
    exact hostTurn_changesOnlyWbusy hr hb hops⟩

theorem run_succ {k : Nat} {s t : State} (h : step s = .next t) :
    Sys2Proof.core.run (k + 1) s = Sys2Proof.core.run k t := by
  have hcore : Sys2Proof.core.step s = .next t := h
  simp only [Host.Core.run, hcore]

/-- Settles O55: each step before the completion step takes one from the delay and keeps the block as it is but
for WBUSY. -/
theorem acceptedCommandCompletes : Obligations.AcceptedCommandCompletes := by
  intro s k
  induction k generalizing s with
  | zero => exact fun _ _ _ _ => ⟨s.wbusy, s.inbox, s.freeCount, s.replies, rfl⟩
  | succ k ih =>
    intro hr hb hops hk
    obtain ⟨t, hstep, wbusy, inbox, freeCount, replies, rfl, hmem⟩ := step_waiting hr hb (by omega) hops
    obtain ⟨wbusy', inbox', freeCount', replies', hrun⟩ :=
      ih { s with
        wbusy := wbusy, delay := s.delay - 1, inbox := inbox, freeCount := freeCount,
        replies := replies } hr hb (fun op h => hops op (hmem op h)) (Nat.le_sub_one_of_lt hk)
    refine ⟨wbusy', inbox', freeCount', replies', ?_⟩
    rw [run_succ hstep, hrun, Nat.sub_sub, Nat.add_comm 1 k]

/-! ### The completion step -/

/-- Settles O5: with the completion step due a step decodes PENDING and is that command's meaning. -/
theorem stepRunsDecodedCommand : Obligations.StepRunsDecodedCommand := by
  intro s i hr hb hd _ hdecode
  rw [step_of_due ((completionDue_iff s).2 ⟨hr, hb, hd⟩), completionStep, hdecode]

/-- A completion step, of a command or of an illegal word, ends with the frame's last two lines (R121). -/
theorem completionStep_ends {s t : State} (h : completionStep s = .next t) :
    t.busy = false ∧ t.done = true ∧ t.irqEn = s.irqEn := by
  rcases completionStep_cases s with ⟨i, -, hi⟩ | ⟨-, hi⟩ <;> rw [hi] at h
  · obtain ⟨hirq, -⟩ := commandsKeepHostState i s t h
    obtain ⟨u, -, rfl | ⟨e, info, rfl⟩⟩ := exec_next h <;> exact ⟨rfl, rfl, hirq⟩
  · cases h
    exact ⟨rfl, rfl, rfl⟩

/-- Settles O8: the frame's last two lines set DONE, so the interrupt output is IRQ_EN (R30). -/
theorem completionEndsCommand : Obligations.CompletionEndsCommand := by
  intro s t hr hb hd h
  rw [step_of_due ((completionDue_iff s).2 ⟨hr, hb, hd⟩)] at h
  obtain ⟨hbusy, hdone, hirqEn⟩ := completionStep_ends h
  have hirq : t.irq = s.irqEn := by rw [State.irq, hdone, Bool.and_true, hirqEn]
  obtain ⟨-, -, -, -, -, -, -, -, -, hbit, -⟩ := statusWordLayout t
  exact ⟨hbusy, hdone, hirq, hbit.trans hirq⟩

/-! ### The stage check -/

/-- The stage check of a command in another stage than the one it requires (R123). -/
theorem exec_of_wrong_stage {i : Instr} {need : Stage} {body : State → BodyResult} {s : State}
    (hi : commandBody i = withStage i need body) (h : s.stage ≠ need) :
    exec i s = .next { s with
      busy := false, done := true, err := true, errCode := .sequence,
      errInfo := sequenceInfo i s.stage } := by
  rw [exec_eq_complete, hi, withStage_of_ne _ _ _ _ h]
  rfl

/-- ERR_INFO of ERR_SEQUENCE is OPC·256 + STAGE, with the opcodes of R92 and the stage numbers of R26. -/
theorem sequenceInfo_eq (i : Instr) (st : Stage) :
    sequenceInfo i st = BitVec.ofNat 32 ((opcode i).toNat * 256 + st.bits.toNat) := by
  cases i <;> cases st <;> decide

/-- NOP, CLEAR, COUNT and RUN, which have no stage check, raise no ERR_SEQUENCE. -/
theorem commandBody_raised_ne_sequence {i : Instr} (hi : i ∈ [Instr.nop, .clear, .count, .run])
    {s t : State} {e : ErrCode} {info : Word} (h : commandBody i s = .raised e info t) :
    e ≠ .sequence := by
  cases i with
  | nop | clear => cases h
  | count => rw [(bodyCount_raised h).1]; decide
  | run => rcases bodyRun_raised h with rfl | rfl | rfl | rfl <;> decide
  | build | extract | assign | pack | header => simp at hi

/-- Settles O7: a stage command checks STAGE before its body, and no other command has a check. -/
theorem stageCheckRefuses : Obligations.StageCheckRefuses := by
  refine ⟨fun s i need opc num hi hst hne => ?_, fun s t i hi h ht => ?_⟩
  · have hnum : num = s.stage.bits.toNat := by
      cases hs : s.stage <;> simpa [hs, Stage.bits] using hst
    have hcommand : opc = (opcode i).toNat ∧ ∃ body, commandBody i = withStage i need body := by
      simp only [List.mem_cons, Prod.mk.injEq, List.not_mem_nil, or_false] at hi
      rcases hi with ⟨rfl, rfl, rfl⟩ | ⟨rfl, rfl, rfl⟩ | ⟨rfl, rfl, rfl⟩ | ⟨rfl, rfl, rfl⟩ |
        ⟨rfl, rfl, rfl⟩ <;> exact ⟨rfl, _, rfl⟩
    obtain ⟨rfl, body, hbody⟩ := hcommand
    rw [exec_of_wrong_stage hbody hne, sequenceInfo_eq, hnum]
  · rw [exec_eq_complete] at h
    rcases BodyResult.complete_next h with ⟨u, hu, rfl⟩ | ⟨e, info, u, hu, rfl⟩
    · exact (commandBody_sameHost (.inl hu)).errCode.symm.trans ht
    · exact absurd ht (commandBody_raised_ne_sequence hi hu)

/-! ### NOP and CLEAR -/

/-- Settles O10: NOP's body is empty, so only the frame's fields change. -/
theorem nopCompletes : Obligations.NopCompletes := ⟨fun _ => rfl, fun _ _ _ => rfl⟩

/-- Settles O11: CLEAR is ClearRun with STAGE and WBUSY reset, inside the frame. -/
theorem clearCompletes : Obligations.ClearCompletes := fun _ => rfl

end Sys2Proof.Machine
end

section
/-! PROOFS. RUN is the six stage commands one after the other (40_command_control.md R128): the stage bodies do
not see the frame's last two lines, and each leaves the stage the next one requires. -/

namespace Sys2Proof.Machine

/-! ### Bodies and the frame's last two lines -/

/-- The end of a body, with the frame's last two lines already written to the state it leaves (R121). -/
def BodyResult.ended : BodyResult → BodyResult
  | .ok s => .ok s.endCommand
  | .raised e info s => .raised e info s.endCommand
  | .stuck f => .stuck f

/-- The frame writes its last two lines once and for all. -/
@[simp] theorem BodyResult.complete_ended (r : BodyResult) : r.ended.complete = r.complete := by
  cases r <;> rfl

@[simp] theorem State.endCommand_input (s : State) : s.endCommand.input = s.input := rfl

@[simp] theorem packBytes_endCommand (s : State) (i : Nat) (bs : List Byte) (p : Packer) :
    s.endCommand.packBytes i bs p = s.packBytes i bs p := by
  induction bs generalizing i p with
  | nil => rfl
  | cons b bs ih =>
    simp only [State.packBytes, ih]
    rfl

/-- A stage command's body: the stage it requires (R123) and the one it leaves when it raises no error; the
frame's last two lines make no difference to it. -/
structure IsStageBody (i : Instr) (need next : Stage) (body : State → BodyResult) : Prop where
  command : commandBody i = withStage i need body
  ended   : ∀ s, body s.endCommand = (body s).ended
  stage   : ∀ s t, body s = .ok t → t.stage = next

theorem bodyBuild_isStageBody : IsStageBody .build .counted .built bodyBuild where
  command := rfl
  ended s := by
    simp only [bodyBuild, apply_ite BodyResult.ended]
    rfl
  stage s t h := by
    simp only [bodyBuild] at h
    split at h
    · cases h
    · split at h <;> cases h
      rfl

theorem bodyExtract_isStageBody : IsStageBody .extract .built .extracted bodyExtract where
  command := rfl
  ended s := by
    simp only [bodyExtract, State.endCommand_node, State.endCommand_root, State.endCommand_len]
    split <;> rfl
  stage s t h := by
    obtain ⟨_, _, rfl⟩ := bodyExtract_leaves (.inl h)
    rfl

theorem bodyAssign_isStageBody : IsStageBody .assign .extracted .assigned bodyAssign where
  command := rfl
  ended s := rfl
  stage s t h := by
    obtain ⟨_, _, _, _, _, _, rfl⟩ := bodyAssign_leaves (.inl h)
    rfl

theorem bodyPack_isStageBody : IsStageBody .pack .assigned .packed bodyPack where
  command := rfl
  ended s := by
    simp only [bodyPack, apply_ite BodyResult.ended, State.endCommand_input, State.endCommand_obuf,
      packBytes_endCommand]
    refine if_congr Iff.rfl rfl ?_
    cases s.packBytes 0 s.input ⟨[], 0, s.obuf⟩ with
    | raised e info m => rfl
    | ok p =>
      have hlast : s.endCommand.packLast p = s.packLast p := rfl
      simp only [hlast]
      cases s.packLast p <;> rfl
  stage s t h := by
    unfold bodyPack at h
    split at h
    · cases h
    · split at h
      · cases h
      · split at h <;> cases h
        rfl

theorem bodyHeader_isStageBody : IsStageBody .header .packed .done bodyHeader where
  command := rfl
  ended s := by
    simp only [bodyHeader, apply_ite BodyResult.ended]
    rfl
  stage s t h := by
    obtain ⟨-, rfl⟩ := bodyHeader_leaves (.inl h)
    rfl

theorem bodyCount_stage {s t : State} (h : bodyCount s = .ok t) : t.stage = .counted := by
  unfold bodyCount at h
  split at h <;> cases h
  rfl

/-! ### Commands in a row -/

/-- Complete the command that ended as `r`, and run further commands until one ends in an error. -/
def BodyResult.thenRun (is : List Instr) : BodyResult → Host.Outcome State Fault Refusal
  | .ok s => runUntilError is s.endCommand
  | .raised e info s => (BodyResult.raised e info s).complete
  | .stuck f => (BodyResult.stuck f).complete

@[simp] theorem BodyResult.thenRun_nil (r : BodyResult) : r.thenRun [] = r.complete := by
  cases r <;> rfl

/-- The first command of a row, from a state without an error: its body decides whether the row goes on. -/
theorem runUntilError_cons {i : Instr} {is : List Instr} {s : State} (hs : s.err = false) :
    runUntilError (i :: is) s = (commandBody i s).thenRun is := by
  rw [runUntilError, exec_eq_complete]
  cases hb : commandBody i s with
  | ok t =>
    have herr : t.endCommand.err = false := (commandBody_sameHost (.inl hb)).err.trans hs
    simp only [BodyResult.complete_ok, herr, BodyResult.thenRun]
    rfl
  | raised e info t => rfl
  | stuck f => rfl

@[simp] theorem BodyResult.thenRun_ended (is : List Instr) (r : BodyResult) :
    r.ended.thenRun is = r.thenRun is := by
  cases r <;> rfl

/-- When a body ends without an error, STAGE is `st` and ERR is 0. -/
def BodyResult.EndsAt (st : Stage) (r : BodyResult) : Prop :=
  ∀ t, r = .ok t → t.stage = st ∧ t.err = false

/-- After a body that leaves the stage it requires, a stage command is its own body. -/
theorem IsStageBody.thenRun_cons {i : Instr} {need next : Stage} {body : State → BodyResult}
    (h : IsStageBody i need next body) {r : BodyResult} (is : List Instr)
    (hr : r.EndsAt need) :
    r.thenRun (i :: is) = (r.andThen body).thenRun is := by
  cases r with
  | ok t =>
    obtain ⟨hstage, herr⟩ := hr t rfl
    rw [BodyResult.thenRun, runUntilError_cons (s := t.endCommand) herr, h.command,
      withStage_of_eq _ _ _ t.endCommand hstage, h.ended, BodyResult.thenRun_ended, BodyResult.andThen_ok]
  | raised e info t => rfl
  | stuck f => rfl

theorem IsStageBody.andThen_endsAt {i : Instr} {need next : Stage} {body : State → BodyResult}
    (h : IsStageBody i need next body) {r : BodyResult} (hr : r.EndsAt need) :
    (r.andThen body).EndsAt next := by
  intro u hu
  cases r with
  | ok t =>
    obtain ⟨hstage, herr⟩ := hr t rfl
    have hbody : commandBody i t = .ok u := by
      rw [h.command, withStage_of_eq _ _ _ _ hstage]
      exact hu
    exact ⟨h.stage t u hu, (commandBody_sameHost (.inl hbody)).err.trans herr⟩
  | raised e info t => cases hu
  | stuck f => cases hu

/-- Settles O30: each stage command finds the stage it requires, so that it is its body alone. -/
theorem runIsTheSixStages : Obligations.RunIsTheSixStages := by
  intro s hs
  have hcount : (bodyCount s).EndsAt .counted := fun t h =>
    ⟨bodyCount_stage h, (commandBody_sameHost (i := .count) (.inl h)).err.trans hs⟩
  have hbuild := bodyBuild_isStageBody.andThen_endsAt hcount
  have hextract := bodyExtract_isStageBody.andThen_endsAt hbuild
  have hassign := bodyAssign_isStageBody.andThen_endsAt hextract
  have hpack := bodyPack_isStageBody.andThen_endsAt hassign
  rw [runUntilError_cons hs, exec_eq_complete]
  exact Eq.symm <|
    calc (bodyCount s).thenRun [.build, .extract, .assign, .pack, .header]
      _ = ((bodyCount s).andThen bodyBuild).thenRun [.extract, .assign, .pack, .header] :=
        bodyBuild_isStageBody.thenRun_cons _ hcount
      _ = (((bodyCount s).andThen bodyBuild).andThen bodyExtract).thenRun [.assign, .pack, .header] :=
        bodyExtract_isStageBody.thenRun_cons _ hbuild
      _ = ((((bodyCount s).andThen bodyBuild).andThen bodyExtract).andThen bodyAssign).thenRun
            [.pack, .header] := bodyAssign_isStageBody.thenRun_cons _ hextract
      _ = (((((bodyCount s).andThen bodyBuild).andThen bodyExtract).andThen bodyAssign).andThen
            bodyPack).thenRun [.header] := bodyPack_isStageBody.thenRun_cons _ hassign
      _ = (bodyRun s).thenRun [] := bodyHeader_isStageBody.thenRun_cons _ hpack
      _ = (bodyRun s).complete := BodyResult.thenRun_nil _

end Sys2Proof.Machine
end

section
/-! PROOFS. What RUN makes of its input (40_command_control.md R128, 60_exceptions.md R246, R248): the error of
an empty input, and the cost of the tree of a nonempty one. -/

namespace Sys2Proof.Machine

/-! ### The empty input -/

theorem State.inputTooLong_eq_false {s : State} (h : s.inLen.toNat ≤ s.capInMax.toNat) :
    s.inputTooLong = false := decide_eq_false (Nat.not_lt.2 h)

/-- COUNT of an empty input leaves the cleared run (R140). -/
theorem bodyCount_empty {s : State} (h : s.inLen = 0) :
    bodyCount s = .ok { s.clearRun with stage := .counted } := by
  have htoo : s.inputTooLong = false := State.inputTooLong_eq_false (by simp [h])
  have hinput : s.clearRun.input = [] := by simp [State.input, h, Memory.readRange]
  simp only [bodyCount, htoo, if_neg Bool.false_ne_true, hinput, List.foldl_nil]

theorem bodyRun_empty {s : State} (h : s.inLen = 0) :
    bodyRun s = .raised .emptyInput 0 { s.clearRun with stage := .counted } := by
  rw [bodyRun, bodyCount_empty h]
  rfl

/-- Settles O31: BUILD finds no symbol after COUNT of an empty input, and its error aborts the run. -/
theorem runOfEmptyInputRaisesEmptyInput : Obligations.RunOfEmptyInputRaisesEmptyInput := by
  intro s h
  rw [exec_eq_complete, commandBody, bodyRun_empty h]
  rfl

/-! ### What BUILD's tree costs -/

/-- An arena holds at most one tree under an index. -/
theorem Represents.unique {nodes : Arena} {n : Nat} {t t' : HuffTree} (h : Represents nodes n t)
    (h' : Represents nodes n t') : t = t' := by
  induction t generalizing n t' with
  | leaf b w =>
    obtain ⟨nd, hnd, -, hleaf, rfl, rfl⟩ := h
    cases t' with
    | leaf b' w' =>
      obtain ⟨nd', hnd', -, -, rfl, rfl⟩ := h'
      cases hnd.symm.trans hnd'
      rfl
    | node l' r' =>
      obtain ⟨nd', hnd', -, hleaf', -⟩ := h'
      cases hnd.symm.trans hnd'
      exact absurd (hleaf.symm.trans hleaf') (by decide)
  | node l r hl hr =>
    obtain ⟨nd, hnd, -, hleaf, -, hleft, hright⟩ := h
    cases t' with
    | leaf b' w' =>
      obtain ⟨nd', hnd', -, hleaf', -⟩ := h'
      cases hnd.symm.trans hnd'
      exact absurd (hleaf'.symm.trans hleaf) (by decide)
    | node l' r' =>
      obtain ⟨nd', hnd', -, -, -, hleft', hright'⟩ := h'
      cases hnd.symm.trans hnd'
      rw [hl hleft hleft', hr hright hright']

/-- The leaves in the order of the first priority sequence. -/
def State.leafForest (s : State) : List HuffTree :=
  (initialSequence (s.leafArena s.nsym.toNat) s.nsym.toNat).map s.leafTree

section
variable {s : State} (h : s.Counted)

theorem State.length_leafForest (s : State) : s.leafForest.length = s.nsym.toNat := by
  rw [State.leafForest, List.length_map, (initialSequence_perm _ _).length_eq, List.length_range]

include h

/-- The leaves' weights add up to the number of bytes counted. -/
theorem State.Counted.sum_leafForest : (s.leafForest.map HuffTree.weight).sum = s.total := by
  rw [State.leafForest, (((initialSequence_perm _ _).map _).map _).sum_eq, ← h.sum_symbols,
    s.symbols_eq_map h.nsymLe, List.map_map, List.map_map]
  rfl

/-- The leaves descend by weight (R151). -/
theorem State.Counted.leafForest_desc : DescBy HuffTree.weight s.leafForest := by
  refine List.pairwise_map.2 ((stableSortDesc_desc _ _).imp_of_mem fun {i j} hi hj hle => ?_)
  have hweight : ∀ k ∈ initialSequence (s.leafArena s.nsym.toNat) s.nsym.toNat,
      (weightOf (s.leafArena s.nsym.toNat) k).toNat = (s.leafTree k).weight := fun k hk =>
    (leafArena_below s (List.mem_range.1 ((initialSequence_perm _ _).mem_iff.1 hk)) h.nsymLe).weightOf
  rwa [← hweight i hi, ← hweight j hj]

/-- BUILD's tree is the greedy merge of the leaves (R150). -/
theorem bodyBuild_mergeForest {u : State} {t : HuffTree} (hn : s.nsym ≠ 0) (htotal : s.total < 2 ^ 32)
    (hok : bodyBuild s = .ok u) (hrep : Represents u.node u.root.toNat t) :
    mergeForest s.nsym.toNat s.leafForest = [t] := by
  have hpos : s.nsym.toNat ≠ 0 := fun h0 => hn (BitVec.eq_of_toNat_eq h0)
  have hle := h.nsymLe
  have hperm := initialSequence_perm (s.leafArena s.nsym.toNat) s.nsym.toNat
  have hlength := hperm.length_eq
  rw [List.length_range] at hlength
  obtain ⟨nodes, root, t', hloop, hbelow, -, -, -, hforest⟩ :=
    mergeLoop_spec s.nsym.toNat 0 (s.leafArena s.nsym.toNat) _ s.leafTree
      (by rw [← List.length_pos_iff]; omega) (by omega) (by omega)
      (fun i hi => leafArena_below s (List.mem_range.1 (hperm.mem_iff.1 hi)) hle)
      (by have := h.sum_leafForest; rw [State.leafForest, List.map_map] at this; exact this ▸ htotal)
  have hroot : (BitVec.ofNat 9 root).toNat = root := by
    have := hbelow.lt
    rw [BitVec.toNat_ofNat]
    exact Nat.mod_eq_of_lt (by omega)
  simp only [bodyBuild] at hok
  rw [if_neg hpos, if_neg (by omega), hloop] at hok
  cases hok
  have hrep' : Represents nodes root t := by rwa [List.headD_cons, hroot] at hrep
  rw [hrep'.unique hbelow.represents]
  exact hforest

/-- BUILD's tree costs at most 8 bits a byte counted: 256 symbols have codes of 8 bits (R248). -/
theorem bodyBuild_cost_le {u : State} {t : HuffTree} (hn : s.nsym ≠ 0) (htotal : s.total < 2 ^ 32)
    (hok : bodyBuild s = .ok u) (hrep : Represents u.node u.root.toNat t) :
    t.WeightedBy (fun b => (s.freq.look b).toNat) ∧ t.cost ≤ 8 * s.total := by
  have hforest := bodyBuild_mergeForest h hn htotal hok hrep
  have hlength := s.length_leafForest
  have hpos : s.nsym.toNat ≠ 0 := fun h0 => hn (BitVec.eq_of_toNat_eq h0)
  have hle := h.nsymLe
  constructor
  · refine mergeForest_weightedBy _ s.nsym.toNat s.leafForest (fun l hl => ?_) t (by simp [hforest])
    obtain ⟨r, -, rfl⟩ := List.mem_map.1 hl
    rfl
  · obtain ⟨t', ht', hcost⟩ := mergeForest_cost_le 8 s.nsym.toNat s.leafForest
      (by rw [← List.length_pos_iff]; omega) (by omega) h.leafForest_desc (by omega)
    have hleaves : (s.leafForest.map HuffTree.cost).sum = 0 := by
      simp [State.leafForest, State.leafTree, HuffTree.cost, Function.comp_def]
    rw [hleaves, h.sum_leafForest, Nat.zero_add] at hcost
    cases hforest.symm.trans ht'
    exact hcost

end

end Sys2Proof.Machine
end

section
/-! PROOFS. RUN of a nonempty input (40_command_control.md R128, R129, 60_exceptions.md R248): its code tables,
what PACK and HEADER make of them, and how the run ends. -/

namespace Sys2Proof.Machine

/-! ### The code tables of a run -/

/-- EXTRACT writes the depths of the tree that is stored (R170). -/
theorem bodyExtract_depthsIn {s u : State} {t : HuffTree} (hlen : s.len = Vector.replicate 256 0)
    (hok : bodyExtract s = .ok u) (hrep : Represents s.node s.root.toNat t) (hheight : t.height ≤ 255)
    (hnodup : t.symbols.Nodup) : t.DepthsIn u.len := by
  rw [bodyExtract, walk_represents hrep 256 0 s.len (by omega), hlen] at hok
  cases hok
  exact HuffTree.depthsIn_putDepths hheight hnodup

/-- `u` is `s` with the code tables of its input, as COUNT, BUILD, EXTRACT and ASSIGN leave them. -/
structure CodedRun (s u : State) : Prop where
  host    : SameHost s u
  counted : u.Counted
  lengths : u.HasLengths
  codes   : u.HasCodes
  freq    : ∀ b, (u.freq.look b).toNat = s.input.count b
  cost    : bitCost (lengthsOf u.clen) s.input ≤ 8 * s.inLen.toNat
  fits    : u.inLen.toNat ≤ u.capInMax.toNat

/-- Tables that count an input count all of its bytes. -/
theorem State.total_eq_length {s : State} {xs : List Byte}
    (h : ∀ b, (s.freq.look b).toNat = xs.count b) : s.total = xs.length := by
  rw [State.total, ← sum_count_allBytes xs]
  exact congrArg List.sum (List.map_congr_left fun b _ => h b)

theorem bitCost_congr {lengths lengths' : Byte → Nat} {xs : List Byte}
    (h : ∀ b ∈ xs, lengths b = lengths' b) : bitCost lengths xs = bitCost lengths' xs :=
  congrArg List.sum (List.map_congr_left h)

theorem bitCost_le_mul {lengths : Byte → Nat} {xs : List Byte} {n : Nat} (h : ∀ b ∈ xs, lengths b ≤ n) :
    bitCost lengths xs ≤ n * xs.length := by
  have hsum := List.sum_le_card_nsmul (xs.map lengths) n (by simpa using h)
  rwa [List.length_map, smul_eq_mul, Nat.mul_comm] at hsum

/-- The canonical codes of an input cost at most 8 bits a byte when the tree's depths do: the codes are the
depths, or the forced single bit (R182). -/
theorem State.HasCodes.bitCost_le {s : State} {t : HuffTree} {xs : List Byte} (hcodes : s.HasCodes)
    (hcounted : s.Counted) (hlengths : s.HasLengths) (hdepths : t.DepthsIn s.len)
    (hperm : t.symbols.Perm s.symbols) (hfreq : ∀ b, (s.freq.look b).toNat = xs.count b)
    (hweighted : t.WeightedBy fun b => (s.freq.look b).toNat) (hcost : t.cost ≤ 8 * s.total) :
    bitCost (lengthsOf s.clen) xs ≤ 8 * xs.length := by
  by_cases h1 : s.nsym = 1
  · have hle : ∀ b ∈ xs, lengthsOf s.clen b ≤ 1 := fun b _ => by
      have hclen := hcodes.clen_le hlengths b
      rwa [h1] at hclen
    have := bitCost_le_mul hle
    omega
  · have hpresent : ∀ b ∈ xs, s.freq.look b ≠ 0 := fun b hb h0 => by
      have hcount := hfreq b
      rw [h0] at hcount
      exact (List.count_pos_iff.2 hb).ne hcount
    have hdepth : ∀ b ∈ xs, lengthsOf s.clen b = lengthsOf s.len b := fun b hb => by
      rw [lengthsOf, hcodes.clen b, State.canonicalLength, State.present,
        if_pos (decide_eq_true (hpresent b hb)), if_neg h1, lengthsOf]
    rw [bitCost_congr hdepth, t.bitCost_eq_cost xs _ (by simpa only [hfreq] using hweighted)
      (hperm.nodup_iff.2 hcounted.nodup)
      (fun b hb => hperm.mem_iff.2 ((hcounted.mem b).2 (hpresent b hb))) hdepths.depth,
      ← State.total_eq_length hfreq]
    exact hcost

/-- A run that has counted a byte has a symbol. -/
theorem State.Counted.nsym_ne_zero {s : State} (h : s.Counted) (htotal : s.total ≠ 0) : s.nsym ≠ 0 := by
  intro h0
  have hsymbols : s.symbols = [] := by rw [State.symbols, h0]; rfl
  have hsum := h.sum_symbols
  rw [hsymbols] at hsum
  exact htotal hsum.symm

/-- BUILD and EXTRACT of a counted run leave the lengths of a tree that costs at most 8 bits a byte. -/
theorem bodyBuild_bodyExtract {s : State} (h : s.Counted) (hzero : s.total ≠ 0)
    (htotal : s.total < 2 ^ 32) (hlengths : s.NoLengths) :
    ∃ (rootWeight : Word) (len : Table Byte) (degen : Bool) (u : State) (t : HuffTree),
      u = { s with
        node := Vector.replicate 511 Node.empty, root := 0, rootWeight := rootWeight, len := len,
        degen := degen, stage := .extracted } ∧
      (bodyBuild s).andThen bodyExtract = .ok u ∧ u.HasLengths ∧ t.DepthsIn u.len ∧
      t.symbols.Perm s.symbols ∧ t.WeightedBy (fun b => (s.freq.look b).toNat) ∧
      t.cost ≤ 8 * s.total := by
  have hn := h.nsym_ne_zero hzero
  obtain ⟨node, root, rootWeight, hbuild, hweight, t, hrep, hperm, htree⟩ := bodyBuild_ok h hn htotal
  obtain ⟨hweighted, hcost⟩ := bodyBuild_cost_le h hn htotal hbuild hrep
  have hheight : t.height ≤ 255 := by
    have := t.height_lt
    have := hperm.length_eq
    have := h.length_symbols
    have := h.nsymLe
    omega
  let b : State := { s with node := node, root := root, rootWeight := rootWeight, stage := .built }
  have htreeOf : b.HasTree := ⟨⟨t, hrep, hperm, hheight, htree⟩, hweight⟩
  obtain ⟨len, degen, hextract, hdegen, -⟩ :=
    bodyExtract_ok (s := b) { h with } htreeOf { hlengths with }
  have hdepths : t.DepthsIn len :=
    bodyExtract_depthsIn (s := b) hlengths.len hextract hrep hheight (hperm.nodup_iff.2 h.nodup)
  refine ⟨rootWeight, len, degen, _, t, rfl, ?_, ?_, hdepths, hperm, hweighted, hcost⟩
  · rw [hbuild, BodyResult.andThen_ok, hextract]
  · exact hdepths.hasLengths { h with } hperm hheight hweight hdegen

/-- RUN of a nonempty input that fits IBUF reaches PACK with the code tables of the input (R128). -/
theorem bodyRun_eq_pack {s : State} (hpos : 1 ≤ s.inLen.toNat) (hlen : s.inLen.toNat ≤ s.capInMax.toNat) :
    ∃ u, CodedRun s u ∧ bodyRun s = (bodyPack u).andThen bodyHeader := by
  obtain ⟨freq, order, nsym, hcount, ds, hof⟩ := bodyCount_ok hlen
  let c : State := { s.clearRun with freq := freq, order := order, nsym := nsym, stage := .counted }
  have hcounted : c.Counted := hof.counted (by rw [s.length_input]; exact hlen)
  have htotal : c.total = s.inLen.toNat := (State.total_eq_length hof.freq).trans s.length_input
  obtain ⟨rootWeight, len, degen, e, t, he, hextract, hlengths, hdepths, hperm, hweighted, hcost⟩ :=
    bodyBuild_bodyExtract hcounted (by omega) (htotal ▸ s.inLen.isLt) ⟨rfl, rfl⟩
  have hnocodes : e.NoCodes := by
    rw [he]
    exact ⟨rfl, rfl, rfl, rfl, rfl, rfl⟩
  obtain ⟨u, hassign, hcodes⟩ := bodyAssign_hasCodes hnocodes
  subst he
  refine ⟨u, ?_, ?_⟩
  · obtain ⟨_, _, _, _, _, _, rfl⟩ := bodyAssign_leaves (.inl hassign)
    refine ⟨?_, { hcounted with }, { hlengths with }, hcodes, hof.freq, ?_, hlen⟩
    · constructor <;> rfl
    · rw [← s.length_input]
      exact hcodes.bitCost_le { hcounted with } { hlengths with } hdepths hperm hof.freq hweighted hcost
  · rw [bodyRun, hcount, BodyResult.andThen_ok, hextract, BodyResult.andThen_ok, hassign,
      BodyResult.andThen_ok]

/-! ### PACK on an input whose bytes all have codes -/

/-- Bytes with codes raise no ERR_LOOKUP (R221). -/
theorem packBytes_raised_of_coded {s : State} {bs : List Byte} {i : Nat} {p : Packer} {e : ErrCode}
    {info : Word} {m : Memory} (hcoded : ∀ b ∈ bs, s.clen.look b ≠ 0)
    (h : s.packBytes i bs p = .raised e info m) : e = .outOverflow := by
  induction bs generalizing i p with
  | nil => cases h
  | cons b bs ih =>
    rw [List.forall_mem_cons] at hcoded
    rw [State.packBytes] at h
    cases hb : s.packByte i b p with
    | ok p' =>
      rw [hb] at h
      exact ih hcoded.2 h
    | raised e' info' m' =>
      rw [hb] at h
      cases h
      rw [State.packByte, if_neg hcoded.1] at hb
      exact drain_raised hb

/-- PACK's only error on an input that fits IBUF and whose bytes have codes (R225). -/
theorem bodyPack_raised_of_coded {s t : State} {e : ErrCode} {info : Word}
    (hlen : s.inLen.toNat ≤ s.capInMax.toNat) (hcoded : ∀ b ∈ s.input, s.clen.look b ≠ 0)
    (h : bodyPack s = .raised e info t) : e = .outOverflow := by
  rw [bodyPack, State.inputTooLong_eq_false hlen, if_neg Bool.false_ne_true] at h
  cases hp : s.packBytes 0 s.input ⟨[], 0, s.obuf⟩ with
  | raised e' info' m =>
    rw [hp] at h
    cases h
    exact packBytes_raised_of_coded hcoded hp
  | ok p =>
    rw [hp] at h
    simp only at h
    cases hl : s.packLast p with
    | ok p' => rw [hl] at h; cases h
    | raised e' info' m =>
      rw [hl] at h
      cases h
      rw [State.packLast] at hl
      split at hl
      · cases hl
      · exact emit_raised hl

/-- The last byte of PACK has no room when OBUF is full: ERR_INFO is OBUF_SIZE (R225, R248). -/
theorem packLast_full {s : State} {p : Packer} (hbits : p.bits.length ≠ 0)
    (hfull : s.hdrLen.toNat + p.count = s.capObufSize.toNat) :
    s.packLast p = .raised .outOverflow s.capObufSize p.obuf := by
  rw [State.packLast, if_neg hbits, emit, if_pos hfull.ge, hfull, BitVec.ofNat_toNat, BitVec.setWidth_eq]

/-- R225, R248: PACK of a coded input whose payload has no room. -/
theorem bodyPack_overflow {s : State} (hlen : s.inLen.toNat ≤ s.capInMax.toNat)
    (hcoded : ∀ b ∈ s.input, s.clen.look b ≠ 0) (hhdr : s.hdrLen.toNat ≤ s.capObufSize.toNat)
    (hover : s.capObufSize.toNat < s.hdrLen.toNat + (bitCost (lengthsOf s.clen) s.input + 7) / 8) :
    ∃ m, bodyPack s = .raised .outOverflow s.capObufSize { s with obuf := m } := by
  have hbits := s.length_bitStream s.input
  rw [bodyPack, State.inputTooLong_eq_false hlen, if_neg Bool.false_ne_true]
  by_cases hwhole : s.hdrLen.toNat + bitCost (lengthsOf s.clen) s.input / 8 ≤ s.capObufSize.toNat
  · have hfull := packLast_full (s := s)
      (p := .after s.hdrLen.toNat s.obuf (s.bitStream s.input))
      (by simp only [Packer.after, List.length_drop]; omega) (by simp only [Packer.after]; omega)
    rw [packInput_ok hcoded hwhole]
    simp only [hfull]
    exact ⟨_, rfl⟩
  · have hloop := packBytes_overflow s s.obuf s.input 0 [] hcoded hhdr (by
      rw [List.nil_append, ← State.bitStream]
      omega)
    rw [packer_start, BitVec.ofNat_toNat, BitVec.setWidth_eq] at hloop
    rw [hloop]
    exact ⟨_, rfl⟩

/-! ### How a run ends -/

/-- The number of payload bytes of the input under the code tables (R224). -/
def State.payloadSize (s : State) : Nat := (bitCost (lengthsOf s.clen) s.input + 7) / 8

/-- The state a run leaves when its payload has room: PACK's and HEADER's registers, and STAGE = DONE. -/
def State.archived (s : State) (obuf : Memory) : State :=
  { s with
    obuf := obuf
    leftover := BitVec.ofNat 3 (bitCost (lengthsOf s.clen) s.input % 8)
    payloadLen := BitVec.ofNat 32 s.payloadSize
    outLen := s.hdrLen.setWidth 32 + BitVec.ofNat 32 s.payloadSize
    stage := .done }

section
variable {s : State} (h : s.hdrLen.toNat + s.payloadSize ≤ s.capObufSize.toNat) (obuf : Memory)
include h

theorem State.toNat_archived_payloadLen : (s.archived obuf).payloadLen.toNat = s.payloadSize := by
  have := s.capObufSize.isLt
  rw [State.archived, BitVec.toNat_ofNat]
  exact Nat.mod_eq_of_lt (by omega)

theorem State.toNat_archived_outLen :
    (s.archived obuf).outLen.toNat = s.hdrLen.toNat + s.payloadSize := by
  have := s.capObufSize.isLt
  have hpayload := State.toNat_archived_payloadLen h obuf
  rw [State.archived] at hpayload ⊢
  rw [BitVec.toNat_add, BitVec.toNat_setWidth_of_le (by omega), hpayload]
  exact Nat.mod_eq_of_lt (by omega)

end

section
variable {s u : State} (h : CodedRun s u)
include h

theorem CodedRun.input : u.input = s.input := by
  rw [State.input, State.input, h.host.ibuf, h.host.inLen]

/-- Every byte of the input has a code (R129). -/
theorem CodedRun.coded : ∀ b ∈ u.input, u.clen.look b ≠ 0 := by
  intro b hb
  rw [h.input, ← List.count_pos_iff, ← h.freq b] at hb
  refine (h.codes.clen_ne_zero_iff h.lengths b).2 fun h0 => ?_
  rw [h0] at hb
  exact absurd hb (by decide)

theorem CodedRun.total : u.total = s.inLen.toNat :=
  (State.total_eq_length h.freq).trans s.length_input

/-- The smallest buffer R6 allows holds every header (R105). -/
theorem CodedRun.hdrLen_le : u.hdrLen.toNat ≤ 257 := (h.codes.hdrLen_bounds h.counted h.lengths).2

/-- The payload is no longer than the input (R248). -/
theorem CodedRun.payloadSize_le : u.payloadSize ≤ s.inLen.toNat := by
  have hcost := h.cost
  rw [State.payloadSize, h.input]
  omega

/-- R128: PACK and HEADER complete when the payload has room. -/
theorem CodedRun.pack_ok (hcap : 257 ≤ u.capObufSize.toNat)
    (hroom : u.hdrLen.toNat + u.payloadSize ≤ u.capObufSize.toNat) :
    ∃ obuf, (bodyPack u).andThen bodyHeader = .ok (u.archived obuf) := by
  have hheader : ∀ m l n, (State.headerBytes { u with
      obuf := m, leftover := l, payloadLen := n, stage := .packed }).length = u.hdrLen.toNat :=
    fun _ _ _ => State.HasCodes.length_headerBytes { h.counted with } { h.lengths with } { h.codes with }
  have hhdr := h.hdrLen_le
  rw [bodyPack_ok h.fits h.coded hroom, BodyResult.andThen_ok, bodyHeader,
    if_neg (by rw [hheader]; exact Nat.not_lt.2 (hhdr.trans hcap))]
  exact ⟨_, rfl⟩

/-- R248: PACK ends the run when the payload has no room. -/
theorem CodedRun.pack_overflow (hcap : 257 ≤ u.capObufSize.toNat)
    (hover : u.capObufSize.toNat < u.hdrLen.toNat + u.payloadSize) :
    ∃ m, (bodyPack u).andThen bodyHeader = .raised .outOverflow u.capObufSize { u with obuf := m } := by
  obtain ⟨m, hm⟩ := bodyPack_overflow h.fits h.coded (h.hdrLen_le.trans hcap) hover
  rw [hm]
  exact ⟨m, rfl⟩

end

/-- How RUN of a nonempty input ends (R128): with the archive when the payload has room, else in
ERR_OUT_OVERFLOW. -/
theorem exec_run_cases {s : State} (hcap : 257 ≤ s.capObufSize.toNat) (hpos : 1 ≤ s.inLen.toNat)
    (hlen : s.inLen.toNat ≤ s.capInMax.toNat) :
    ∃ u, CodedRun s u ∧
      ((u.hdrLen.toNat + u.payloadSize ≤ u.capObufSize.toNat ∧
        ∃ obuf, exec .run s = .next (u.archived obuf).endCommand) ∨
      (u.capObufSize.toNat < u.hdrLen.toNat + u.payloadSize ∧ ∃ obuf, exec .run s =
        .next (State.takeError .outOverflow u.capObufSize { u with obuf := obuf }).endCommand)) := by
  obtain ⟨u, h, hrun⟩ := bodyRun_eq_pack hpos hlen
  rw [← h.host.capObufSize] at hcap
  rw [exec_eq_complete, commandBody, hrun]
  refine ⟨u, h, ?_⟩
  rcases le_or_gt (u.hdrLen.toNat + u.payloadSize) u.capObufSize.toNat with hroom | hover
  · obtain ⟨obuf, hok⟩ := h.pack_ok hcap hroom
    exact .inl ⟨hroom, obuf, by rw [hok, BodyResult.complete_ok]⟩
  · obtain ⟨obuf, hraised⟩ := h.pack_overflow hcap hover
    exact .inr ⟨hover, obuf, by rw [hraised, BodyResult.complete_raised]⟩

/-- Settles O32: after ASSIGN the only error left is PACK's overflow, and the payload of a Huffman code is no
longer than the input. -/
theorem runCompletes : Obligations.RunCompletes := by
  refine ⟨fun s hparams hpos hlen hroom => ?_, fun s hparams hpos hlen => ?_⟩
  · obtain ⟨u, h, ⟨hfits, obuf, hexec⟩ | ⟨hover, -⟩⟩ := exec_run_cases (by omega) hpos hlen
    · have hpayload := State.toNat_archived_payloadLen hfits obuf
      refine ⟨_, hexec, rfl, rfl, rfl, h.host.err, h.host.errCode, h.host.errInfo,
        exec_wbusy (by decide) hexec, ?_, h.counted.length_present.symm,
        BitVec.eq_of_toNat_eq (h.lengths.rootWeight.trans h.total),
        (iff_of_eq (congrArg (· = true) h.lengths.degen)).trans decide_eq_true_iff,
        (iff_of_eq (congrArg (· = true) h.codes.dense)).trans decide_eq_true_iff,
        (h.codes.clen_ne_zero_iff h.lengths :), ?_, hpayload.trans_le h.payloadSize_le,
        (State.toNat_archived_outLen hfits obuf).trans (congrArg _ hpayload.symm)⟩
      · rw [← s.input_eq_map]
        exact h.freq
      · rw [← s.input_eq_map, ← h.input]
        exact hpayload
    · have hhdr := h.hdrLen_le
      have hpayload := h.payloadSize_le
      rw [h.host.capObufSize] at hover
      omega
  · obtain ⟨-, -, hcap, -⟩ := hparams.bounds
    obtain ⟨u, h, ⟨-, obuf, hexec⟩ | ⟨-, obuf, hexec⟩⟩ := exec_run_cases hcap hpos hlen
    · exact ⟨_, hexec, .inl rfl⟩
    · exact ⟨_, hexec, .inr ⟨rfl, rfl, rfl, h.host.capObufSize, rfl⟩⟩

/-- No body of a RUN raises ERR_LOOKUP: PACK looks up the bytes COUNT counted (R129). -/
theorem bodyRun_ne_lookup {s t : State} {e : ErrCode} {info : Word}
    (h : bodyRun s = .raised e info t) : e ≠ .lookup := by
  by_cases hlen : s.inLen.toNat ≤ s.capInMax.toNat
  · by_cases hzero : s.inLen = 0
    · cases (bodyRun_empty hzero).symm.trans h
      decide
    · have hpos : s.inLen.toNat ≠ 0 := fun h0 => hzero (BitVec.eq_of_toNat_eq h0)
      obtain ⟨u, hu, hrun⟩ := bodyRun_eq_pack (by omega) hlen
      rw [hrun] at h
      cases hp : bodyPack u with
      | ok v =>
        rw [hp] at h
        exact absurd h (bodyHeader_ne_raised v t e info)
      | stuck f => exact absurd hp (bodyPack_ne_stuck u f)
      | raised e' info' v =>
        rw [hp] at h
        cases h
        rw [bodyPack_raised_of_coded hu.fits hu.coded hp]
        decide
  · have htoo : s.inputTooLong = true := decide_eq_true (Nat.not_le.1 hlen)
    rw [bodyRun, bodyCount, if_pos htoo] at h
    cases h
    decide

/-- Settles O33: the error of a RUN is not ERR_LOOKUP, and without an error ERRCODE stays. -/
theorem runNeverRaisesLookup : Obligations.RunNeverRaisesLookup := by
  intro s t h ht
  rw [exec_eq_complete] at h
  rcases BodyResult.complete_next h with ⟨u, hu, rfl⟩ | ⟨e, info, u, hu, rfl⟩
  · exact (commandBody_sameHost (.inl hu)).errCode.symm.trans ht
  · exact absurd ht (bodyRun_ne_lookup hu)

end Sys2Proof.Machine
end

section
/-! PROOFS. COUNT of an input that fits IBUF (41_frequency_counter.md R140 to R142): the counts, the order of the
first occurrences, and that no later stage command writes either. -/

namespace Sys2Proof.Machine

/-! ### What COUNT leaves -/

/-- COUNT of an input that fits IBUF completes with the counts of the input (R142). -/
theorem exec_count_ok {s : State} (h : s.inLen.toNat ≤ s.capInMax.toNat) :
    ∃ freq order nsym, exec .count s = .next { s.clearRun with
      freq := freq, order := order, nsym := nsym, stage := .counted, busy := false, done := true } ∧
      ∃ ds, Counts.Of s.input ds ⟨freq, order, nsym⟩ := by
  obtain ⟨freq, order, nsym, hok, hcounts⟩ := bodyCount_ok h
  refine ⟨freq, order, nsym, ?_, hcounts⟩
  rw [exec_eq_complete, commandBody, hok]
  rfl

/-- The bytes counted are the bytes of the input (R142). -/
theorem Counts.Of.look_ne_zero_iff {xs ds : List Byte} {c : Counts} (h : Counts.Of xs ds c) (b : Byte) :
    c.freq.look b ≠ 0 ↔ b ∈ xs := by
  rw [← List.count_pos_iff, ← h.freq b, Nat.pos_iff_ne_zero, Ne, Ne, BitVec.toNat_eq]
  rfl

/-- ORDER's entries below NSYM are the distinct bytes in the order of their first occurrences (R141). -/
theorem Counts.Of.order_getElem {xs ds : List Byte} {c : Counts} (h : Counts.Of xs ds c) {r : Nat}
    (hr : r < 256) (hd : r < ds.length) : c.order[r] = ds[r] := by
  have hentry := h.order r
  rw [if_pos hr, Vector.getElem?_eq_getElem hr, List.getElem?_eq_getElem hd] at hentry
  exact Option.some.inj hentry

/-- R141: of two entries of ORDER below NSYM the earlier one occurs first. -/
theorem Counts.Of.idxOf_order_lt {xs ds : List Byte} {c : Counts} (h : Counts.Of xs ds c) {r q : Nat}
    (hr : r < 256) (hq : q < 256) (hrq : r < q) (hn : q < c.nsym.toNat) :
    xs.idxOf c.order[r] < xs.idxOf c.order[q] := by
  have hqd : q < ds.length := h.nsym ▸ hn
  rw [h.order_getElem hr (hrq.trans hqd), h.order_getElem hq hqd]
  exact List.pairwise_iff_getElem.1 h.sorted r q _ hqd hrq

/-! ### What the later stage commands keep -/

/-- Two states agree on FREQ, ORDER and NSYM. -/
def SameCounts (s t : State) : Prop := t.freq = s.freq ∧ t.order = s.order ∧ t.nsym = s.nsym

theorem SameCounts.refl (s : State) : SameCounts s s := ⟨rfl, rfl, rfl⟩

/-- No stage command but COUNT writes FREQ, ORDER or NSYM (R142). -/
theorem commandBody_sameCounts {i : Instr} {s t : State}
    (hi : i ∈ [Instr.build, .extract, .assign, .pack, .header]) (h : (commandBody i s).leaves t) :
    SameCounts s t := by
  have staged : ∀ {need body}, ((body s).leaves t → SameCounts s t) →
      (withStage i need body s).leaves t → SameCounts s t := fun hk h => by
    rcases withStage_leaves h with rfl | ⟨-, h⟩
    · exact .refl s
    · exact hk h
  cases i with
  | build =>
    refine staged (fun h => ?_) h
    rcases bodyBuild_leaves h with rfl | ⟨_, _, _, rfl⟩ <;> exact ⟨rfl, rfl, rfl⟩
  | extract =>
    refine staged (fun h => ?_) h
    obtain ⟨_, _, rfl⟩ := bodyExtract_leaves h
    exact ⟨rfl, rfl, rfl⟩
  | assign =>
    refine staged (fun h => ?_) h
    obtain ⟨_, _, _, _, _, _, rfl⟩ := bodyAssign_leaves h
    exact ⟨rfl, rfl, rfl⟩
  | pack =>
    refine staged (fun h => ?_) h
    obtain ⟨_, _, _, _, rfl⟩ := bodyPack_leaves h
    exact ⟨rfl, rfl, rfl⟩
  | header =>
    refine staged (fun h => ?_) h
    obtain ⟨-, rfl⟩ := bodyHeader_leaves h
    exact ⟨rfl, rfl, rfl⟩
  | nop | clear | count | run => simp at hi

/-! ### The obligations -/

/-- Settles O13: COUNT's loop leaves the counts of the input in the form of R142, and the bodies of the later
stage commands write other fields. -/
theorem countBuildsFrequencyTable : Obligations.CountBuildsFrequencyTable := by
  refine ⟨fun s hlen => ?_, fun i s t hi h => ?_⟩
  · obtain ⟨freq, order, nsym, hexec, ds, hcounts⟩ := exec_count_ok hlen
    let c : State := { s.clearRun with freq := freq, order := order, nsym := nsym }
    have hcounted : c.Counted := hcounts.counted (by rw [s.length_input]; exact hlen)
    have htotal : c.total = s.inLen.toNat := (State.total_eq_length hcounts.freq).trans s.length_input
    rw [← s.input_eq_map]
    exact ⟨freq, order, nsym, hexec, hcounts.freq, htotal, hcounted.length_present.symm, hcounted.nodup,
      hcounted.mem, hcounted.orderZero⟩
  · obtain ⟨u, hu, ht⟩ := exec_next h
    have hsame : SameCounts s u := commandBody_sameCounts hi hu
    rcases ht with rfl | ⟨e, info, rfl⟩ <;> exact hsame

/-- Settles O14: COUNT's loop appends a byte to ORDER at its first occurrence, so ORDER is sorted by these. -/
theorem countKeepsFirstOccurrenceOrder : Obligations.CountKeepsFirstOccurrenceOrder := by
  intro s t hlen h
  obtain ⟨freq, order, nsym, hexec, ds, hcounts⟩ := exec_count_ok hlen
  obtain rfl := Host.Outcome.next.inj (hexec.symm.trans h)
  have hcounted := hcounts.counted (s := { s.clearRun with
    freq := freq, order := order, nsym := nsym }) (by rw [s.length_input]; exact hlen)
  rw [← s.input_eq_map]
  exact ⟨fun b => (hcounted.mem b).trans (hcounts.look_ne_zero_iff b), hcounted.nodup,
    fun r q hr hq hrq hn => hcounts.idxOf_order_lt hr hq hrq hn⟩

end Sys2Proof.Machine
end

section
/-! PROOFS. BUILD (42_tree_builder.md R150 to R157): the errors and stops of a body in its stage, the first
priority sequence, the bare leaf of one symbol, and the tree with the merges that make it. -/

namespace Sys2Proof.Machine

/-! ### Bodies in their stage -/

/-- BUILD in STAGE = COUNTED is its body inside the frame (R123). -/
theorem exec_build_of_counted {s : State} (hstage : s.stage = .counted) :
    exec .build s = (bodyBuild s).complete :=
  (exec_eq_complete .build s).trans (congrArg _ (withStage_of_eq _ _ _ _ hstage))

/-- Settles O15: without symbols BUILD's body raises ERR_EMPTY_INPUT before it writes anything. -/
theorem buildRefusesEmptyInput : Obligations.BuildRefusesEmptyInput := by
  intro s hstage hnsym
  have hbody : bodyBuild s = .raised .emptyInput 0 s := by
    rw [bodyBuild, hnsym]
    rfl
  rw [exec_build_of_counted hstage, hbody]
  rfl

/-- A walk into an internal node that is its own left child never ends (R170, log 11). -/
theorem walk_of_left_self {nodes : Arena} {n : Nat} {nd : Node} (hnd : nodes[n]? = some nd)
    (hleaf : nd.isLeaf = false) (hleft : nd.left.toNat = n) (fuel d : Nat) (len : Table Byte) :
    walk nodes fuel n d len = none := by
  induction fuel generalizing d with
  | zero => rfl
  | succ fuel ih => simp [walk, hnd, hleaf, hleft, ih]

/-- Settles O36: BUILD's guard, a walk that turns in a circle, and the 257 bytes of a dense header. -/
theorem unreachableStatesStop : Obligations.UnreachableStatesStop := by
  refine ⟨fun s hstage hnsym => ?_, fun s nd hstage hnd hleaf hleft => ?_,
    fun s hstage hdense hcap => ?_⟩
  · have hbody : bodyBuild s = .stuck .orderIndex := by
      simp only [bodyBuild]
      rw [if_neg (by omega), if_pos hnsym]
    rw [exec_build_of_counted hstage, hbody, BodyResult.complete_stuck]
  · have hbody : bodyExtract s = .stuck .walkDiverges := by
      rw [bodyExtract, walk_of_left_self hnd hleaf (congrArg BitVec.toNat hleft)]
    rw [exec_eq_complete, commandBody, withStage_of_eq _ _ _ _ hstage, hbody,
      BodyResult.complete_stuck]
  · have hlen : s.headerBytes.length = 257 := by rw [s.length_headerBytes, hdense, if_pos rfl]
    rw [exec_eq_complete, commandBody, withStage_of_eq _ _ _ _ hstage, bodyHeader,
      if_pos (by omega), BodyResult.complete_stuck]

/-! ### The first priority sequence and the leaves -/

/-- Settles O18: sorting permutes and is stable, and a reinsertion splits the sequence at the first weight that
is not greater. -/
theorem prioritySequenceStaysSorted : Obligations.PrioritySequenceStaysSorted :=
  ⟨fun nodes n => ⟨initialSequence_perm nodes n, stableSortDesc_stable _ _ _ List.pairwise_lt_range⟩,
    fun key x q => ⟨reinsert_split key x q, reinsert_desc key x q⟩⟩

/-- Sorting looks at the keys of the sequence only. -/
theorem stableSortDesc_congr {α : Type} {key key' : α → Nat} {q : List α}
    (h : ∀ y ∈ q, key y = key' y) : stableSortDesc key q = stableSortDesc key' q := by
  induction q with
  | nil => rfl
  | cons x q ih =>
    have htail : stableSortDesc key q = stableSortDesc key' q :=
      ih fun y hy => h y (List.mem_cons_of_mem x hy)
    change reinsert key x (stableSortDesc key q) = reinsert key' x (stableSortDesc key' q)
    rw [htail]
    exact reinsert_congr _ _ _ _ fun y hy =>
      h y (((stableSortDesc_perm key' q).cons x).mem_iff.1 hy)

/-- The first sequence depends on the leaves' records alone. -/
theorem initialSequence_congr {nodes nodes' : Arena} {n : Nat}
    (h : ∀ i, i < n → nodes'[i]? = nodes[i]?) : initialSequence nodes' n = initialSequence nodes n :=
  stableSortDesc_congr fun i hi => by rw [weightOf, weightOf, h i (List.mem_range.1 hi)]

theorem length_initialSequence (nodes : Arena) (n : Nat) : (initialSequence nodes n).length = n := by
  rw [(initialSequence_perm nodes n).length_eq, List.length_range]

theorem lt_of_mem_initialSequence {nodes : Arena} {n i : Nat} (h : i ∈ initialSequence nodes n) : i < n :=
  List.mem_range.1 ((initialSequence_perm nodes n).mem_iff.1 h)

/-- R156: the leaf of rank `r` stands at the index `r`. -/
theorem leafArena_leaf (s : State) {n r : Nat} (hr : r < n) (hn : n ≤ 256) :
    (s.leafArena n)[r]? = some (s.leafNode r) := by
  rw [State.leafArena, getElem?_vecOfFn, if_pos (by omega), if_pos hr]

/-- BUILD's leaves leave the records from index `n` on alone. -/
theorem leafArena_other (s : State) {n i : Nat} (hi : n ≤ i) : (s.leafArena n)[i]? = s.node[i]? := by
  rw [State.leafArena, getElem?_vecOfFn, if_neg (Nat.not_lt.2 hi)]
  by_cases h : i < 511
  · rw [if_pos h, Vector.getElem?_eq_getElem h, Option.getD_some]
  · rw [if_neg h, Vector.getElem?_eq_none (Nat.not_lt.1 h)]

/-! ### BUILD with symbols -/

/-- A node index fits its register (R36, R48). -/
theorem toNat_ofNat_nodeIx {i : Nat} (h : i < 512) : (BitVec.ofNat 9 i).toNat = i := Nat.mod_eq_of_lt h

/-- BUILD's merging loop from the leaves of the symbols (R150). -/
def State.buildLoop (s : State) : Arena × List Nat :=
  mergeLoop s.nsym.toNat 0 (s.leafArena s.nsym.toNat)
    (initialSequence (s.leafArena s.nsym.toNat) s.nsym.toNat)

/-- BUILD of 1 to 256 symbols stores what the merging loop leaves (R150, R154). -/
theorem exec_build_ok {s : State} {nodes : Arena} {root : Nat} (hstage : s.stage = .counted)
    (hpos : 1 ≤ s.nsym.toNat) (hle : s.nsym.toNat ≤ 256) (hloop : s.buildLoop = (nodes, [root])) :
    exec .build s = .next { s with
      node := nodes, root := BitVec.ofNat 9 root, rootWeight := weightOf nodes root, stage := .built,
      busy := false, done := true } := by
  rw [State.buildLoop] at hloop
  have hbody : bodyBuild s = .ok { s with
      node := nodes, root := BitVec.ofNat 9 root, rootWeight := weightOf nodes root,
      stage := .built } := by
    simp only [bodyBuild]
    rw [if_neg (by omega), if_neg (by omega), hloop]
    rfl
  rw [exec_build_of_counted hstage, hbody]
  rfl

/-- Settles O16: the sequence of one leaf is not merged. -/
theorem buildOfOneSymbolIsBareLeaf : Obligations.BuildOfOneSymbolIsBareLeaf := by
  intro s hstage hnsym
  have hone : s.nsym.toNat = 1 := by rw [hnsym]; rfl
  have hloop : s.buildLoop = (s.leafArena 1, [0]) := by
    rw [State.buildLoop, hone]
    rfl
  have hleaf : (s.leafArena 1)[0] = s.leafNode 0 := getElem_vecOfFn 511 _ 0 (by decide)
  refine ⟨s.leafArena 1, ?_, hleaf, fun i hi => leafArena_other s hi⟩
  have hweight : weightOf (s.leafArena 1) 0 = s.freq.look s.order[0] := by
    rw [weightOf, leafArena_leaf s (by decide) (by decide)]
    rfl
  rw [exec_build_ok hstage (by omega) (by omega) hloop, hweight]
  rfl

section
variable {s : State} (hpos : 1 ≤ s.nsym.toNat) (hle : s.nsym.toNat ≤ 256)
include hpos hle

/-- The merging loop makes one tree of the symbols' leaves and keeps every record but the merged ones (R157). -/
theorem buildLoop_tree (hsum : (s.symbols.map fun b => (s.freq.look b).toNat).sum < 2 ^ 32) :
    ∃ nodes root t, s.buildLoop = (nodes, [root]) ∧ root < 512 ∧ Represents nodes root t ∧
      t.symbols.Perm s.symbols ∧ (weightOf nodes root).toNat = t.weight ∧
      t.weight = (s.symbols.map fun b => (s.freq.look b).toNat).sum ∧
      ∀ i, i < 256 ∨ 256 + (s.nsym.toNat - 1) ≤ i → nodes[i]? = (s.leafArena s.nsym.toNat)[i]? := by
  have hperm := initialSequence_perm (s.leafArena s.nsym.toNat) s.nsym.toNat
  have hlength := length_initialSequence (s.leafArena s.nsym.toNat) s.nsym.toNat
  have hweights : ((initialSequence (s.leafArena s.nsym.toNat) s.nsym.toNat).map fun i =>
      (s.leafTree i).weight).sum = (s.symbols.map fun b => (s.freq.look b).toNat).sum := by
    rw [(hperm.map _).sum_eq, s.symbols_eq_map hle, List.map_map]
    rfl
  obtain ⟨nodes, root, t, hloop, hbelow, hsymbols, hweight, hkeep, -⟩ :=
    mergeLoop_spec s.nsym.toNat 0 (s.leafArena s.nsym.toNat)
      (initialSequence (s.leafArena s.nsym.toNat) s.nsym.toNat) s.leafTree
      (by rw [← List.length_pos_iff]; omega) (by omega) (by omega)
      (fun i hi => leafArena_below s (lt_of_mem_initialSequence hi) hle)
      (by rw [hweights]; exact hsum)
  rw [hlength] at hbelow hkeep
  refine ⟨nodes, root, t, hloop, ?_, hbelow.represents, ?_, hbelow.weightOf, hweight.trans hweights,
    hkeep⟩
  · have := hbelow.lt
    omega
  · refine hsymbols.trans ((hperm.flatMap_right _).trans (List.Perm.of_eq ?_))
    rw [s.symbols_eq_map hle]
    exact List.map_eq_flatMap.symm

/-- R152, R153, R156: the merges of the loop, read in the arena it leaves. -/
theorem buildLoop_merges {nodes : Arena} {root : Nat} (hloop : s.buildLoop = (nodes, [root])) :
    ∃ Q : Nat → List Nat, Q 0 = initialSequence nodes s.nsym.toNat ∧
      (∀ j, j < s.nsym.toNat - 1 → ∃ rest a c, a < 512 ∧ c < 512 ∧ Q j = rest ++ [c, a] ∧
        nodes[256 + j]? = some (mergedNode nodes a c) ∧
        Q (j + 1) = reinsert (fun i => (weightOf nodes i).toNat) (256 + j) rest) ∧
      Q (s.nsym.toNat - 1) = [root] := by
  have hlength := length_initialSequence (s.leafArena s.nsym.toNat) s.nsym.toNat
  obtain ⟨nodes', root', Q, htrace, hkeep, hfirst, hmerge, hlast⟩ :=
    mergeLoop_trace s.nsym.toNat 0 (s.leafArena s.nsym.toNat)
      (initialSequence (s.leafArena s.nsym.toNat) s.nsym.toNat)
      (by rw [← List.length_pos_iff]; omega) (by omega) (by omega)
      (fun i hi => by have := lt_of_mem_initialSequence hi; omega)
  cases hloop.symm.trans htrace
  rw [hlength] at hmerge hlast
  simp only [Nat.zero_add] at hmerge
  refine ⟨Q, hfirst.trans (initialSequence_congr fun i hi => ?_).symm, hmerge, hlast⟩
  exact hkeep i (by omega)

end

/-- Settles O17: the merging loop from the leaves makes one tree of them, and its trace is the sequence `Q`. -/
theorem buildMakesTree : Obligations.BuildMakesTree := by
  intro s hstage hpos hle hsum
  obtain ⟨nodes, root, t, hloop, hlt, hrep, hperm, hroot, hweight, hkeep⟩ := buildLoop_tree hpos hle hsum
  obtain ⟨Q, hfirst, hmerge, hlast⟩ := buildLoop_merges hpos hle hloop
  have hrootNat : (BitVec.ofNat 9 root).toNat = root := toNat_ofNat_nodeIx hlt
  refine ⟨nodes, BitVec.ofNat 9 root, weightOf nodes root, t, Q, exec_build_ok hstage hpos hle hloop,
    hrootNat.symm ▸ hrep, hperm, hroot, hweight, fun r hr => ?_, hfirst, fun j hj => ?_,
    hrootNat.symm ▸ hlast, fun i hi hother => ?_⟩
  · rw [hkeep r (.inl (hr.trans_le hle)), leafArena_leaf s hr hle]
    rfl
  · obtain ⟨rest, a, c, ha, hc, hseq, hnode, hnext⟩ := hmerge j hj
    exact ⟨a, c, rest, mergedNode nodes a c, hseq, hnode, rfl, rfl, rfl, toNat_ofNat_nodeIx ha,
      toNat_ofNat_nodeIx hc, rfl, hnext⟩
  · rw [hkeep i hother, leafArena_other s hi]

end Sys2Proof.Machine
end

section
/-! PROOFS. The heap of R160: keyed by weight and insertion time it removes what the priority sequence of BUILD
has at its tail. -/

namespace Sys2Proof.Machine

/-! ### The heap order -/

theorem HeapItem.before_iff (x y : HeapItem) :
    x.before y = true ↔ x.weight < y.weight ∨ (x.weight = y.weight ∧ x.time < y.time) := by
  simp [HeapItem.before]

theorem popMin_cons_ne_none (x : HeapItem) (h : List HeapItem) : popMin (x :: h) ≠ none := by
  rw [popMin]
  split
  · simp
  · split <;> simp

/-- `popMin` removes one item, which no other item of the heap is before. -/
theorem popMin_some {h h' : List HeapItem} {x : HeapItem} (hpop : popMin h = some (x, h')) :
    h.Perm (x :: h') ∧ ∀ y ∈ h', ¬ y.before x = true := by
  induction h generalizing x h' with
  | nil => cases hpop
  | cons z h ih =>
    rw [popMin] at hpop
    cases hrest : popMin h with
    | none =>
      obtain rfl : h = [] := by
        cases h with
        | nil => rfl
        | cons u h => exact absurd hrest (popMin_cons_ne_none u h)
      cases hpop
      exact ⟨.refl _, by simp⟩
    | some yr =>
      obtain ⟨y, rest⟩ := yr
      obtain ⟨hperm, hmin⟩ := ih hrest
      rw [hrest] at hpop
      by_cases hyz : y.before z = true
      · simp only [hyz, if_true, Option.some.injEq, Prod.mk.injEq] at hpop
        obtain ⟨rfl, rfl⟩ := hpop
        refine ⟨(hperm.cons z).trans (.swap y z rest), fun u hu => ?_⟩
        rcases List.mem_cons.1 hu with rfl | hu
        · rw [HeapItem.before_iff] at hyz ⊢
          omega
        · exact hmin u hu
      · simp only [hyz, Bool.false_eq_true, if_false, Option.some.injEq, Prod.mk.injEq] at hpop
        obtain ⟨rfl, rfl⟩ := hpop
        refine ⟨hperm.cons z, fun u hu => ?_⟩
        rcases List.mem_cons.1 hu with rfl | hu
        · exact hyz
        · have huy := hmin u hu
          rw [HeapItem.before_iff] at hyz huy ⊢
          omega

/-- A heap of an item that is before all its others gives that item. -/
theorem popMin_of_perm {h l : List HeapItem} {x : HeapItem} (hperm : h.Perm (x :: l))
    (hmin : ∀ y ∈ l, x.before y = true) : ∃ h', popMin h = some (x, h') ∧ h'.Perm l := by
  cases hpop : popMin h with
  | none =>
    cases h with
    | nil => exact absurd hperm.length_eq (by simp)
    | cons z h => exact absurd hpop (popMin_cons_ne_none z h)
  | some yr =>
    obtain ⟨y, h'⟩ := yr
    obtain ⟨hsplit, hleast⟩ := popMin_some hpop
    have hboth : (x :: l).Perm (y :: h') := hperm.symm.trans hsplit
    obtain rfl : y = x := by
      by_contra hne
      have hy : y ∈ l := (List.mem_cons.1 (hboth.mem_iff.2 (by simp))).resolve_left hne
      have hx : x ∈ h' := (List.mem_cons.1 (hboth.mem_iff.1 (by simp))).resolve_left (Ne.symm hne)
      exact hleast x hx (hmin y hy)
    exact ⟨h', rfl, hboth.symm.cons_inv⟩

/-! ### The heap of a priority sequence -/

/-- When node `i` was inserted, with `n` leaves (R160). -/
def insertionTime (n i : Nat) : Nat := if i < 256 then n - 1 - i else n + (i - 256)

/-- The heap item of node `i` of an arena. -/
def heapItem (nodes : Arena) (n i : Nat) : HeapItem := ⟨i, (weightOf nodes i).toNat, insertionTime n i⟩

theorem heapItem_before_iff (nodes : Arena) (n i j : Nat) :
    (heapItem nodes n j).before (heapItem nodes n i) = true ↔
      (weightOf nodes j).toNat < (weightOf nodes i).toNat ∨
        ((weightOf nodes i).toNat = (weightOf nodes j).toNat ∧
          insertionTime n j < insertionTime n i) := by
  rw [HeapItem.before_iff, eq_comm (a := (heapItem nodes n j).weight)]
  rfl

/-- The node the `j`-th merge makes is inserted at the time `n + j` (R160). -/
theorem insertionTime_new (n j : Nat) : insertionTime n (256 + j) = n + j := by
  rw [insertionTime, if_neg (by omega), Nat.add_sub_cancel_left]

/-- Before the `j`-th merge a node was inserted before the one this merge makes. -/
theorem insertionTime_lt {n j i : Nat} (hn : 1 ≤ n) (hi : i < 256 + j) : insertionTime n i < n + j := by
  rw [insertionTime]
  split <;> omega

/-- A sequence whose head comes last out of the heap: what R160 says of equal weights, with R157. -/
def HeapOrdered (nodes : Arena) (n : Nat) (q : List Nat) : Prop :=
  q.Pairwise fun i j => (heapItem nodes n j).before (heapItem nodes n i) = true

/-- An element reinserted after everything else was inserted keeps keys descending and equal keys by the order
of insertion. -/
theorem reinsert_pairwise {α : Type} (key : α → Nat) (r : α → α → Prop) (x : α) (q : List α)
    (h : q.Pairwise fun a b => key b < key a ∨ (key a = key b ∧ r a b)) (hr : ∀ y ∈ q, r x y) :
    (reinsert key x q).Pairwise fun a b => key b < key a ∨ (key a = key b ∧ r a b) := by
  induction q with
  | nil => exact List.pairwise_singleton _ _
  | cons y q ih =>
    obtain ⟨hy, hq⟩ := List.pairwise_cons.1 h
    rw [reinsert_cons]
    by_cases hle : key y ≤ key x
    · rw [if_pos hle]
      refine List.pairwise_cons.2 ⟨fun z hz => ?_, h⟩
      have hzx : key z ≤ key x := by
        rcases List.mem_cons.1 hz with rfl | hz
        · exact hle
        · have := hy z hz
          omega
      exact hzx.lt_or_eq.imp_right fun heq => ⟨heq.symm, hr z hz⟩
    · rw [if_neg hle]
      refine List.pairwise_cons.2 ⟨fun z hz => ?_, ih hq fun z hz => hr z (by simp [hz])⟩
      rcases List.mem_cons.1 ((reinsert_perm key x q).mem_iff.1 hz) with rfl | hz
      · exact .inl (by omega)
      · exact hy z hz

theorem initialSequence_heapOrdered (nodes : Arena) {n : Nat} (hn : n ≤ 256) :
    HeapOrdered nodes n (initialSequence nodes n) := by
  have hsorted := stableSortDesc_stable (fun i => (weightOf nodes i).toNat) (· < ·) (List.range n)
    List.pairwise_lt_range
  refine hsorted.imp_of_mem fun {i j} hi hj h => (heapItem_before_iff nodes n i j).2 ?_
  have hin : i < n := lt_of_mem_initialSequence hi
  have hjn : j < n := lt_of_mem_initialSequence hj
  refine h.imp_right (And.imp_right fun hij => ?_)
  rw [insertionTime, insertionTime, if_pos (by omega), if_pos (by omega)]
  omega

theorem initialHeap_eq (nodes : Arena) {n : Nat} (hn : n ≤ 256) :
    initialHeap nodes n = (List.range n).map (heapItem nodes n) :=
  List.map_congr_left fun r hr => by
    rw [heapItem, insertionTime, if_pos ((List.mem_range.1 hr).trans_le hn)]

/-! ### The two merging loops -/

/-- A merge writes no record below its own. -/
theorem heapItem_mergeArena {j i : Nat} (nodes : Arena) (n a c : Nat) (hi : i < 256 + j) :
    heapItem (mergeArena nodes j a c) n i = heapItem nodes n i := by
  rw [heapItem, heapItem, weightOf, weightOf, mergeArena_getElem?, if_neg (by omega)]

/-- The new node goes headward of its equals, and of the heap items with its weight it comes last (R153). -/
theorem HeapOrdered.merge {nodes : Arena} {n j : Nat} {rest : List Nat} (a c : Nat)
    (h : HeapOrdered nodes n rest) (hn : 1 ≤ n) (hlt : ∀ i ∈ rest, i < 256 + j) :
    HeapOrdered (mergeArena nodes j a c) n
      (reinsert (fun i => (weightOf (mergeArena nodes j a c) i).toNat) (256 + j) rest) := by
  refine (reinsert_pairwise _ (fun i k => insertionTime n k < insertionTime n i) _ rest ?_ ?_).imp
    fun hik => (heapItem_before_iff ..).2 hik
  · refine h.imp_of_mem fun {i k} hi hk hik => (heapItem_before_iff ..).1 ?_
    rwa [heapItem_mergeArena nodes n a c (hlt i hi), heapItem_mergeArena nodes n a c (hlt k hk)]
  · intro i hi
    rw [insertionTime_new]
    exact insertionTime_lt hn (hlt i hi)

/-- Two removals from the heap of a sequence take its tail and the element before it (R160). -/
theorem popMin_twice {nodes : Arena} {n a c : Nat} {rest : List Nat} {h : List HeapItem}
    (hord : HeapOrdered nodes n (rest ++ [c, a]))
    (hperm : h.Perm ((rest ++ [c, a]).map (heapItem nodes n))) :
    ∃ h₁ h₂, popMin h = some (heapItem nodes n a, h₁) ∧ popMin h₁ = some (heapItem nodes n c, h₂) ∧
      h₂.Perm (rest.map (heapItem nodes n)) := by
  obtain ⟨-, hpair, hcross⟩ := List.pairwise_append.1 hord
  have hca : (heapItem nodes n a).before (heapItem nodes n c) = true :=
    (List.pairwise_cons.1 hpair).1 a (by simp)
  have hsplit : ((rest ++ [c, a]).map (heapItem nodes n)).Perm
      (heapItem nodes n a :: heapItem nodes n c :: rest.map (heapItem nodes n)) :=
    (List.perm_append_comm.trans (.swap a c rest) : (rest ++ [c, a]).Perm (a :: c :: rest)).map _
  obtain ⟨h₁, hpop₁, hperm₁⟩ := popMin_of_perm (hperm.trans hsplit) (by
    intro y hy
    rcases List.mem_cons.1 hy with rfl | hy
    · exact hca
    · obtain ⟨i, hi, rfl⟩ := List.mem_map.1 hy
      exact hcross i hi a (by simp))
  obtain ⟨h₂, hpop₂, hperm₂⟩ := popMin_of_perm hperm₁ (by
    intro y hy
    obtain ⟨i, hi, rfl⟩ := List.mem_map.1 hy
    exact hcross i hi c (by simp))
  exact ⟨h₁, h₂, hpop₁, hpop₂, hperm₂⟩

/-- Pushing the merged node gives the heap of the sequence after its reinsertion (R160). -/
theorem heap_push_perm {nodes : Arena} {n j : Nat} {rest : List Nat} {h : List HeapItem} (a c : Nat)
    (hlt : ∀ i ∈ rest, i < 256 + j) (hperm : h.Perm (rest.map (heapItem nodes n))) :
    (⟨256 + j, (weightOf (mergeArena nodes j a c) (256 + j)).toNat, n + j⟩ :: h).Perm
      ((reinsert (fun i => (weightOf (mergeArena nodes j a c) i).toNat) (256 + j) rest).map
        (heapItem (mergeArena nodes j a c) n)) := by
  have hrest : rest.map (heapItem nodes n) = rest.map (heapItem (mergeArena nodes j a c) n) :=
    List.map_congr_left fun i hi => (heapItem_mergeArena nodes n a c (hlt i hi)).symm
  refine List.Perm.trans ?_ ((reinsert_perm _ (256 + j) rest).map _).symm
  rw [List.map_cons, heapItem, insertionTime_new, ← hrest]
  exact hperm.cons _

/-- A heap of fewer than two items is not merged. -/
theorem heapLoop_of_length_le_one (n fuel j : Nat) (nodes : Arena) {h : List HeapItem}
    (hlen : h.length ≤ 1) : heapLoop n fuel j nodes h = (nodes, h) := by
  cases fuel with
  | zero => rfl
  | succ fuel =>
    match h with
    | [] => rfl
    | [x] => rfl
    | _ :: _ :: _ => simp at hlen

/-- R160: the loop over the heap of a sequence writes the arena of BUILD's loop over the sequence, and ends with
the heap of the sequence that loop ends with. -/
theorem heapLoop_mergeLoop {n : Nat} (hn : 1 ≤ n) (fuel j : Nat) (nodes : Arena) (q : List Nat)
    (h : List HeapItem) (hlt : ∀ i ∈ q, i < 256 + j) (hord : HeapOrdered nodes n q)
    (hperm : h.Perm (q.map (heapItem nodes n))) :
    (heapLoop n fuel j nodes h).1 = (mergeLoop fuel j nodes q).1 ∧
      (heapLoop n fuel j nodes h).2.Perm
        ((mergeLoop fuel j nodes q).2.map (heapItem (mergeLoop fuel j nodes q).1 n)) := by
  induction fuel generalizing j nodes q h with
  | zero => exact ⟨rfl, hperm⟩
  | succ fuel ih =>
    cases hpop : popTwo q with
    | none =>
      have hlen : h.length ≤ 1 := by
        rw [hperm.length_eq, List.length_map]
        exact popTwo_eq_none q hpop
      rw [heapLoop_of_length_le_one n _ j nodes hlen, mergeLoop, hpop]
      exact ⟨rfl, hperm⟩
    | some acr =>
      obtain ⟨a, c, rest⟩ := acr
      obtain rfl := popTwo_eq_some q rest a c hpop
      have hltRest : ∀ i ∈ rest, i < 256 + j := fun i hi => hlt i (by simp [hi])
      obtain ⟨h₁, h₂, hpop₁, hpop₂, hperm₂⟩ := popMin_twice hord hperm
      simp only [heapLoop, hpop₁, hpop₂, mergeLoop, hpop]
      refine ih (j + 1) _ _ _ (fun i hi => ?_)
        (HeapOrdered.merge a c (List.pairwise_append.1 hord).1 hn hltRest) ?_
      · rcases List.mem_cons.1 ((reinsert_perm _ _ _).mem_iff.1 hi) with rfl | hi
        · omega
        · have := hltRest i hi
          omega
      · exact heap_push_perm a c hltRest hperm₂

/-- Settles O19: the two loops start from the same leaves, so they end with the same arena and the same root. -/
theorem heapMergeMatchesBuild : Obligations.HeapMergeMatchesBuild := by
  intro s t hstage hpos hle hsum hexec
  obtain ⟨nodes, root, -, hloop, hlt, -⟩ := buildLoop_tree hpos hle hsum
  obtain rfl := Host.Outcome.next.inj ((exec_build_ok hstage hpos hle hloop).symm.trans hexec)
  have hheap : heapBuild s = (nodes, root) := by
    obtain ⟨hnodes, hroot⟩ := heapLoop_mergeLoop hpos s.nsym.toNat 0 (s.leafArena s.nsym.toNat)
      (initialSequence (s.leafArena s.nsym.toNat) s.nsym.toNat)
      (initialHeap (s.leafArena s.nsym.toNat) s.nsym.toNat)
      (fun i hi => (lt_of_mem_initialSequence hi).trans_le hle) (initialSequence_heapOrdered _ hle)
      (by rw [initialHeap_eq _ hle]; exact (initialSequence_perm _ _).symm.map _)
    rw [← State.buildLoop, hloop] at hnodes hroot
    rw [heapBuild, hnodes, List.perm_singleton.1 hroot]
    rfl
  rw [hheap]
  exact ⟨rfl, toNat_ofNat_nodeIx hlt, rfl⟩

end Sys2Proof.Machine
end

section
/-! PROOFS. EXTRACT (43_code_length_extractor.md R170 to R173): the table its walk leaves and the destroyed
tree. -/

namespace Sys2Proof.Machine

/-- A depth of at most 255 fits LEN's 8 bits (R7), so the table holds the depth itself. -/
theorem toNat_look_putDepths {t : HuffTree} (hheight : t.height ≤ 255) (hnodup : t.symbols.Nodup)
    (len : Table Byte) {p : Byte × Nat} (hp : p ∈ t.depths 0) :
    ((putDepths len (t.depths 0)).look p.1).toNat = p.2 := by
  have := (t.depth_le 0 p hp).2
  rw [putDepths_mem _ _ _ (by rwa [t.map_fst_depths]) hp, BitVec.toNat_ofNat]
  exact Nat.mod_eq_of_lt (by omega)

/-- EXTRACT over a stored tree writes its depths and DEGEN and destroys it (R170, R172, R173). -/
theorem bodyExtract_of_represents {s : State} {t : HuffTree} (hrep : Represents s.node s.root.toNat t)
    (hheight : t.height ≤ 255) :
    bodyExtract s = .ok { s with
      len := putDepths s.len (t.depths 0), degen := t.isLeaf,
      node := Vector.replicate 511 Node.empty, root := 0, stage := .extracted } := by
  rw [bodyExtract, walk_represents hrep 256 0 s.len (by omega), hrep.isLeafAt]

/-- Settles O20: the walk writes each leaf's depth once, because the symbols are distinct, and nothing else. -/
theorem extractGivesDepths : Obligations.ExtractGivesDepths := by
  intro s t hstage hrep hheight hnodup
  refine ⟨putDepths s.len (t.depths 0), ?_, fun p hp => toNat_look_putDepths hheight hnodup s.len hp,
    fun b hb => putDepths_notMem _ _ _ (by rwa [t.map_fst_depths])⟩
  rw [exec_eq_complete, commandBody, withStage_of_eq _ _ _ _ hstage,
    bodyExtract_of_represents hrep hheight]
  rfl

end Sys2Proof.Machine
end

section
/-! PROOFS. ASSIGN (44_canonical_code_assigner.md R180 to R187): the tables it leaves, the closed form of its
numbering, and the properties of its codes. -/

namespace Sys2Proof.Machine

/-! ### What ASSIGN leaves -/

/-- ASSIGN in STAGE = EXTRACTED, with the frame's last two lines (R121, R180). -/
theorem exec_assign_of_extracted {s : State} (hstage : s.stage = .extracted) :
    exec .assign s = .next { s with
      clen := s.canonicalLengths,
      maxLen := BitVec.ofNat 8 (largestLength (lengthsOf s.canonicalLengths)),
      blcount := vecOfFn 256 fun n => BitVec.ofNat 9 (bucketSize (lengthsOf s.canonicalLengths) n),
      code := s.assignedCodes s.canonicalLengths (largestLength (lengthsOf s.canonicalLengths)),
      dense := denseFlag s.nsym.toNat,
      hdrLen := BitVec.ofNat 9 (headerLength (denseFlag s.nsym.toNat)
        (largestLength (lengthsOf s.canonicalLengths)) s.nsym.toNat),
      stage := .assigned, busy := false, done := true } := by
  rw [exec_eq_complete, commandBody, withStage_of_eq _ _ _ _ hstage]
  rfl

/-- MAXLEN's register holds the largest length itself (R183). -/
theorem toNat_ofNat_largestLength (clen : Table Byte) :
    (BitVec.ofNat 8 (largestLength (lengthsOf clen))).toNat = largestLength (lengthsOf clen) :=
  Nat.mod_eq_of_lt (Nat.lt_succ_of_le (largestLength_lengthsOf_le clen))

/-- The canonical length of a byte in the words of R181 and R182. -/
theorem State.canonicalLength_eq (s : State) (b : Byte) : s.canonicalLength b =
    if s.freq.look b = 0 then 0 else if s.nsym = 1 then 1 else s.len.look b := by
  by_cases h : s.freq.look b = 0 <;> simp [State.canonicalLength, State.present, h]

/-- A bucket's size fits the 9 bits of BLCOUNT. -/
theorem toNat_ofNat_bucketSize (lengths : Byte → Nat) (n : Nat) :
    (BitVec.ofNat 9 (bucketSize lengths n)).toNat = bucketSize lengths n :=
  Nat.mod_eq_of_lt ((bucketSize_le lengths n).trans_lt (by decide))

/-- The bucket of a register value lists the bytes whose CLEN is that value. -/
theorem bucket_lengthsOf (clen : Table Byte) (n : Byte) :
    bucket (lengthsOf clen) n.toNat = allBytes.filter fun b => clen.look b = n := by
  simp [bucket, lengthsOf, BitVec.toNat_inj]

/-- A byte without a code keeps what CODE held (R180). -/
theorem State.look_assignedCodes_of_eq_zero (s : State) {clen : Table Byte} {b : Byte} (maxLen : Nat)
    (h : clen.look b = 0) : (s.assignedCodes clen maxLen).look b = s.code.look b := by
  rw [State.assignedCodes, Table.look_vecOfFn]
  simp only [BitVec.ofNat_toNat, BitVec.setWidth_eq, h, if_true]

/-- A byte with a length gets its code value, whatever CODE held before (R184). -/
theorem State.toNat_look_assignedCodes_of_ne_zero (s : State) {clen : Table Byte} {b : Byte}
    (h : clen.look b ≠ 0) :
    ((s.assignedCodes clen (largestLength (lengthsOf clen))).look b).toNat =
      (canonicalCodes (lengthsOf clen) (largestLength (lengthsOf clen))).look b := by
  have hcleared :=
    State.toNat_look_assignedCodes (s := { s with code := Vector.replicate 256 0 }) rfl clen b
  rw [State.assignedCodes, Table.look_vecOfFn] at hcleared ⊢
  simpa only [BitVec.ofNat_toNat, BitVec.setWidth_eq, h, if_false] using hcleared

/-- Settles O21: every number ASSIGN computes fits its register, so the tables hold the numbers themselves. -/
theorem assignGivesLengthsAndHeader : Obligations.AssignGivesLengthsAndHeader := by
  intro s hstage
  refine ⟨_, _, _, _, _, _, exec_assign_of_extracted hstage, ?_, ?_, ?_, ?_, ?_, ?_, ?_, ?_⟩
  · exact fun b => (s.look_canonicalLengths b).trans (s.canonicalLength_eq b)
  · exact fun b => (le_largestLength (lengthsOf _) b).trans_eq (toNat_ofNat_largestLength _).symm
  · rcases largestLength_attained (lengthsOf s.canonicalLengths) with hzero | ⟨b, hb⟩
    · exact .inl (by rw [hzero]; rfl)
    · exact .inr ⟨b, BitVec.eq_of_toNat_eq (hb.trans (toNat_ofNat_largestLength _).symm)⟩
  · rw [Table.look_vecOfFn]
    rfl
  · intro n hn
    have hpos : n.toNat ≠ 0 := fun h => hn (BitVec.eq_of_toNat_eq h)
    rw [Table.look_vecOfFn, toNat_ofNat_bucketSize, bucketSize, if_neg hpos, bucket_lengthsOf]
  · exact decide_eq_true_iff
  · rw [toNat_ofNat_largestLength, BitVec.toNat_ofNat,
      Nat.mod_eq_of_lt (headerLength_lt _ _ (largestLength_lengthsOf_le _))]
    simp only [headerLength, denseFlag, decide_eq_true_eq, Config.sparseMax]
  · exact fun b hb => s.look_assignedCodes_of_eq_zero _ hb

/-! ### The numbering after ASSIGN -/

/-- In an ascending list a byte's position is the number of smaller members. -/
theorem idxOf_eq_length_filter_lt {bs : List Byte} (hsorted : bs.Pairwise fun a b => a.toNat < b.toNat)
    {b : Byte} (hb : b ∈ bs) : bs.idxOf b = (bs.filter fun c => c.toNat < b.toNat).length := by
  induction bs with
  | nil => simp at hb
  | cons a bs ih =>
    rw [List.pairwise_cons] at hsorted
    obtain ⟨hhead, htail⟩ := hsorted
    rcases List.mem_cons.1 hb with rfl | hmem
    · have hnone : bs.filter (fun c => c.toNat < b.toNat) = [] :=
        List.filter_eq_nil_iff.2 fun c hc => by simpa using (hhead c hc).le
      simp [hnone]
    · have hlt := hhead b hmem
      have hne : a ≠ b := fun h => by simp [h] at hlt
      rw [List.idxOf_cons_ne _ hne, ih htail hmem, List.filter_cons_of_pos (by simpa using hlt),
        List.length_cons]

/-- A byte's position in its bucket is the number of smaller bytes of its length (R183). -/
theorem idxOf_bucket (clen : Table Byte) (b : Byte) :
    (bucket (lengthsOf clen) (lengthsOf clen b)).idxOf b =
      (allBytes.filter fun c => c.toNat < b.toNat ∧ clen.look c = clen.look b).length := by
  rw [idxOf_eq_length_filter_lt (bucket_sorted _ _) ((mem_bucket _ _ _).2 rfl), lengthsOf,
    bucket_lengthsOf, List.filter_filter]
  simp only [Bool.decide_and]

/-- The bytes below `c` with a property are those below `b` and those from `b` up to `c`. -/
theorem length_filter_lt_split (l : List Byte) (p : Byte → Prop) [DecidablePred p] {b c : Byte}
    (hbc : b.toNat < c.toNat) :
    (l.filter fun d => d.toNat < c.toNat ∧ p d).length =
      (l.filter fun d => d.toNat < b.toNat ∧ p d).length +
        (l.filter fun d => b.toNat ≤ d.toNat ∧ d.toNat < c.toNat ∧ p d).length := by
  rw [List.length_eq_length_filter_add fun d : Byte => decide (d.toNat < b.toNat), List.filter_filter,
    List.filter_filter]
  congr 2
  · refine List.filter_congr fun d _ => ?_
    rw [← Bool.decide_and, decide_eq_decide]
    have hlt : d.toNat < b.toNat → d.toNat < c.toNat := fun h => h.trans hbc
    tauto
  · refine List.filter_congr fun d _ => ?_
    rw [← decide_not, ← Bool.decide_and, decide_eq_decide, not_lt]

/-- The bounds on a coded byte's length that the laws of the numbering ask for. -/
theorem lengthsOf_bounds {clen : Table Byte} {b : Byte} (hb : clen.look b ≠ 0) :
    1 ≤ lengthsOf clen b ∧ lengthsOf clen b ≤ largestLength (lengthsOf clen) ∧ lengthsOf clen b ≤ 255 :=
  ⟨Nat.one_le_iff_ne_zero.2 fun h => hb (BitVec.eq_of_toNat_eq h), le_largestLength _ b,
    (le_largestLength _ b).trans (largestLength_lengthsOf_le clen)⟩

/-- The running value at a byte of length `L` is the sum of R185. -/
theorem firstCode_add_idxOf_eq {clen : Table Byte} {b : Byte} (hb : clen.look b ≠ 0) :
    firstCode (lengthsOf clen) (lengthsOf clen b - 1) +
        (bucket (lengthsOf clen) (lengthsOf clen b)).idxOf b =
      ((List.range' 1 (lengthsOf clen b - 1)).map fun n =>
        (bucket (lengthsOf clen) n).length * 2 ^ (lengthsOf clen b - n)).sum +
      (allBytes.filter fun c => c.toNat < b.toNat ∧ clen.look c = clen.look b).length := by
  obtain ⟨hpos, -, -⟩ := lengthsOf_bounds hb
  rw [firstCode_eq_sum, idxOf_bucket, Nat.sub_add_cancel hpos]

section
variable {s t : State} {b : Byte} (hstage : s.stage = .extracted) (hexec : exec .assign s = .next t)
  (hb : t.clen.look b ≠ 0)
include hstage hexec hb

/-- CODE after ASSIGN, for a byte with a length. -/
theorem toNat_look_code_of_exec_assign :
    (t.code.look b).toNat =
      (canonicalCodes (lengthsOf t.clen) (largestLength (lengthsOf t.clen))).look b := by
  obtain rfl := Host.Outcome.next.inj ((exec_assign_of_extracted hstage).symm.trans hexec)
  exact s.toNat_look_assignedCodes_of_ne_zero hb

/-- Under Kraft's inequality CODE is the running value itself, and fits the byte's length (R185). -/
theorem toNat_look_code_of_kraft (hkraft : kraftSum (lengthsOf t.clen) ≤ 2 ^ 255) :
    (t.code.look b).toNat = firstCode (lengthsOf t.clen) (lengthsOf t.clen b - 1) +
        (bucket (lengthsOf t.clen) (lengthsOf t.clen b)).idxOf b ∧
      (t.code.look b).toNat < 2 ^ lengthsOf t.clen b := by
  obtain ⟨hpos, hmax, hreg⟩ := lengthsOf_bounds hb
  rw [toNat_look_code_of_exec_assign hstage hexec hb]
  exact canonicalCodes_eq _ _ b hpos hmax hreg hkraft

end

/-- Settles O22, by the closed form of the numbering. -/
theorem assignNumbersCanonically : Obligations.AssignNumbersCanonically := by
  intro s t b hstage hexec hb L v
  have hv : firstCode (lengthsOf t.clen) (L - 1) + (bucket (lengthsOf t.clen) L).idxOf b = v :=
    firstCode_add_idxOf_eq hb
  constructor
  · obtain ⟨hpos, hmax, -⟩ := lengthsOf_bounds hb
    rw [toNat_look_code_of_exec_assign hstage hexec hb, canonicalCodes_look _ _ b hpos hmax, ← hv]
    rfl
  · intro hkraft
    obtain ⟨hcode, hlt⟩ := toNat_look_code_of_kraft hstage hexec hb hkraft
    have hcode' : (t.code.look b).toNat = v := hcode.trans hv
    exact ⟨hcode', hcode'.symm.trans_lt hlt⟩

/-- Settles O23: in one bucket the codes differ as the positions do. -/
theorem equalLengthCodesAreConsecutive : Obligations.EqualLengthCodesAreConsecutive := by
  intro s t b c hstage hexec hkraft hb hbc hlt
  obtain ⟨hcodeB, -⟩ := toNat_look_code_of_kraft hstage hexec hb hkraft
  obtain ⟨hcodeC, -⟩ := toNat_look_code_of_kraft hstage hexec (hbc ▸ hb) hkraft
  have hlength : lengthsOf t.clen c = lengthsOf t.clen b := congrArg BitVec.toNat hbc.symm
  have hpos := length_filter_lt_split allBytes (fun d => t.clen.look d = t.clen.look b) hlt
  rw [idxOf_bucket] at hcodeB hcodeC
  rw [hlength, ← hbc] at hcodeC
  omega

/-- Settles O24: the strings PACK emits are those of the canonical code values, so the law about these
values under Kraft's inequality applies. -/
theorem codesArePrefixFree : Obligations.CodesArePrefixFree := by
  intro s t b c hstage hexec hkraft hb hc hne
  rw [State.codeBits, State.codeBits, toNat_look_code_of_exec_assign hstage hexec hb,
    toNat_look_code_of_exec_assign hstage hexec hc]
  exact canonicalCodes_prefixFree _ _ b c (lengthsOf_bounds hb) (lengthsOf_bounds hc) hkraft hne

end Sys2Proof.Machine
end

section
/-! PROOFS. The reference decoder on a payload (45_header_serializer.md R210): the packed bytes hold the code
stream before its padding, and a stream of codes is cut into the bytes it codes when no code begins another. -/

namespace Sys2Proof.Machine

/-! ### The bits of packed bytes -/

/-- A byte of a bit stream holds the stream's next eight bits, padding included (R106). -/
theorem bin_streamByte (bits : BitString) {k : Nat} (h : 8 * k + 8 ≤ bits.length + 7) :
    bin (streamByte bits k).toNat 8 = ((bits ++ ones 7).drop (8 * k)).take 8 := by
  have hlen : (((bits ++ ones 7).drop (8 * k)).take 8).length = 8 := by
    rw [List.length_take, List.length_drop, List.length_append, length_ones]
    omega
  have hbin := bin_val (((bits ++ ones 7).drop (8 * k)).take 8)
  rw [hlen] at hbin
  rw [streamByte, BitVec.toNat_ofNat, bin_mod, hbin]

theorem bitsOfBytes_streamBytes (bits : BitString) {n : Nat} (h : 8 * n ≤ bits.length + 7) :
    bitsOfBytes (streamBytes bits n) = (bits ++ ones 7).take (8 * n) := by
  induction n with
  | zero => rfl
  | succ n ih =>
    have ih := ih (by omega)
    rw [bitsOfBytes, streamBytes] at ih ⊢
    rw [List.range_succ, List.map_append, List.flatMap_append, ih, Nat.mul_succ, List.take_add,
      List.map_singleton, List.flatMap_singleton, bin_streamByte bits (by omega)]

/-- The packed bytes of a bit stream hold the stream and then its padding. -/
theorem take_bitsOfBytes_streamBytes (bits : BitString) :
    (bitsOfBytes (streamBytes bits ((bits.length + 7) / 8))).take bits.length = bits := by
  rw [bitsOfBytes_streamBytes bits (by omega), List.take_take, Nat.min_eq_left (by omega),
    List.take_left]

/-! ### Cutting a stream of codes -/

/-- The string of a byte's code in a length table and its code values. -/
def codeString (cl codes : Table Nat) (b : Byte) : BitString := bin (codes.look b) (cl.look b)

/-- No code of a length table begins the code of another byte (R187). -/
def PrefixFree (cl codes : Table Nat) : Prop :=
  ∀ b c, cl.look b ≠ 0 → cl.look c ≠ 0 → codeString cl codes b <+: codeString cl codes c → b = c

section
variable {cl codes : Table Nat}

theorem matchCode_eq_some {cur : BitString} {b : Byte} (h : matchCode cl codes cur = some b) :
    cl.look b ≠ 0 ∧ cur = codeString cl codes b := by
  simpa [codeString] using List.find?_some h

variable (hfree : PrefixFree cl codes) {b : Byte} (hb : cl.look b ≠ 0)
include hfree hb

theorem PrefixFree.matchCode_codeString : matchCode cl codes (codeString cl codes b) = some b := by
  cases hm : matchCode cl codes (codeString cl codes b) with
  | none =>
    have hno := List.find?_eq_none.1 hm b (mem_allBytes b)
    simp [codeString, hb] at hno
  | some c =>
    obtain ⟨hc, hcode⟩ := matchCode_eq_some hm
    rw [hfree b c hb hc (hcode ▸ List.prefix_rfl)]

/-- The decoder finds no code before the end of the code it reads. -/
theorem PrefixFree.matchCode_prefix {cur : BitString} (hcur : cur <+: codeString cl codes b)
    (hne : cur ≠ codeString cl codes b) : matchCode cl codes cur = none := by
  cases hm : matchCode cl codes cur with
  | none => rfl
  | some c =>
    obtain ⟨hc, rfl⟩ := matchCode_eq_some hm
    exact absurd (by rw [hfree c b hc hb hcur]) hne

/-- From inside a code the decoder reads on to its end and answers its byte. -/
theorem PrefixFree.cutCodes_codeString (rest : BitString) {bits cur : BitString} (hbits : bits ≠ [])
    (hcur : cur ++ bits = codeString cl codes b) :
    cutCodes cl codes (bits ++ rest) cur = (cutCodes cl codes rest []).map (b :: ·) := by
  induction bits generalizing cur with
  | nil => exact absurd rfl hbits
  | cons x bits ih =>
    rw [List.append_cons] at hcur
    rw [List.cons_append, cutCodes]
    by_cases hlast : bits = []
    · rw [hlast, List.append_nil] at hcur
      rw [hlast, List.nil_append, hcur, hfree.matchCode_codeString hb]
      cases cutCodes cl codes rest [] <;> rfl
    · have hne : cur ++ [x] ≠ codeString cl codes b := by
        rw [← hcur]
        exact fun h => hlast (List.self_eq_append_right.1 h)
      rw [hfree.matchCode_prefix hb ⟨bits, hcur⟩ hne]
      exact ih hlast hcur

end

/-- The decoder cuts the stream of such a code into the bytes it codes. -/
theorem PrefixFree.cutCodes_flatMap {cl codes : Table Nat} (hfree : PrefixFree cl codes)
    {input : List Byte} (hcoded : ∀ b ∈ input, cl.look b ≠ 0) :
    cutCodes cl codes (input.flatMap (codeString cl codes)) [] = some input := by
  induction input with
  | nil => rfl
  | cons b input ih =>
    rw [List.forall_mem_cons] at hcoded
    have hne : codeString cl codes b ≠ [] := fun h => hcoded.1 (by
      have hlen := congrArg List.length h
      rwa [codeString, length_bin] at hlen)
    rw [List.flatMap_cons, hfree.cutCodes_codeString hcoded.1 _ hne rfl, ih hcoded.2]
    rfl

end Sys2Proof.Machine
end

section
/-! PROOFS. The reference decoder on a header block (45_header_serializer.md R210): both table formats give back
CLEN and leave the payload (R202, R203, R211). -/

namespace Sys2Proof.Machine

/-! ### The counts of the sparse format -/

/-- With all symbols counted the decoder reads no further count byte. -/
theorem readCounts_self (l : Nat) (bytes : List Byte) : readCounts l l bytes = some ([], bytes) := by
  cases bytes <;> rw [readCounts, if_neg (lt_irrefl l), if_pos rfl]

/-- The decoder reads count bytes up to the first at which they add up to the number of symbols. -/
theorem readCounts_append {l s : Nat} {counts : List Byte} {last : Byte} (rest : List Byte)
    (hlast : last ≠ 0) (hsum : s + (counts.map BitVec.toNat).sum + last.toNat = l) :
    readCounts l s (counts ++ last :: rest) =
      some (counts.map BitVec.toNat ++ [last.toNat], rest) := by
  have hpos : last.toNat ≠ 0 := fun h => hlast (BitVec.eq_of_toNat_eq h)
  induction counts generalizing s with
  | nil =>
    rw [List.map_nil, List.sum_nil, Nat.add_zero] at hsum
    rw [List.nil_append, readCounts, if_neg (by omega), if_neg (by omega), hsum, readCounts_self]
    rfl
  | cons c counts ih =>
    rw [List.map_cons, List.sum_cons, ← Nat.add_assoc] at hsum
    rw [List.cons_append, readCounts, if_neg (by omega), if_neg (by omega), ih hsum]
    rfl

/-! ### The symbols of the sparse format -/

theorem look_foldl_put (len : Nat) (bs : List Byte) (cl : Table Nat) (b : Byte) :
    (bs.foldl (fun t c => t.put c len) cl).look b = if b ∈ bs then len else cl.look b := by
  induction bs generalizing cl with
  | nil => rfl
  | cons c bs ih =>
    rw [List.foldl_cons, ih, Table.look_put]
    by_cases hbs : b ∈ bs <;> by_cases hc : b = c <;> simp [hbs, hc]

/-- The decoder takes new symbols in ascending order, each with the length they are listed under. -/
theorem readSymbols_append (len : Nat) {bs : List Byte} (rest : List Byte) {prev : Option Byte}
    {cl : Table Nat} (hsorted : (prev.toList ++ bs).Pairwise fun a b => a.toNat < b.toNat)
    (hnew : ∀ b ∈ bs, cl.look b = 0) :
    readSymbols len bs.length prev (bs ++ rest) cl =
      some (rest, bs.foldl (fun t b => t.put b len) cl) := by
  induction bs generalizing prev cl with
  | nil => rfl
  | cons b bs ih =>
    obtain ⟨-, hbs, hprev⟩ := List.pairwise_append.1 hsorted
    obtain ⟨hb, -⟩ := List.pairwise_cons.1 hbs
    obtain ⟨hnewb, hnew⟩ := List.forall_mem_cons.1 hnew
    have hnext : ∀ c ∈ bs, (cl.put b len).look c = 0 := fun c hc => by
      have hne : c ≠ b := by
        rintro rfl
        exact lt_irrefl _ (hb c hc)
      rw [Table.look_put_other _ _ _ _ hne, hnew c hc]
    have hasc : (prev.any fun p => b.toNat ≤ p.toNat) = false := by
      cases prev with
      | none => rfl
      | some p => simpa using hprev p (by simp) b (by simp)
    rw [List.length_cons, List.cons_append, readSymbols, hnewb, hasc, if_neg (by simp),
      ih (prev := some b) hbs hnext, List.foldl_cons]

/-- The table of the lengths below `n`. -/
def lengthsBelow (lengths : Byte → Nat) (n : Nat) : Table Nat :=
  vecOfFn 256 fun i => if lengths (BitVec.ofNat 8 i) < n then lengths (BitVec.ofNat 8 i) else 0

@[simp] theorem look_lengthsBelow (lengths : Byte → Nat) (n : Nat) (b : Byte) :
    (lengthsBelow lengths n).look b = if lengths b < n then lengths b else 0 := by
  simp [lengthsBelow]

/-- Before the first bucket the decoder's table is zero. -/
theorem lengthsBelow_one (lengths : Byte → Nat) :
    lengthsBelow lengths 1 = Vector.replicate 256 0 :=
  Table.ext_of_look _ _ fun b => by
    rw [look_lengthsBelow, Table.look_replicate]
    split <;> omega

theorem readSymbols_bucket (lengths : Byte → Nat) (n : Nat) (rest : List Byte) :
    readSymbols n (bucket lengths n).length none (bucket lengths n ++ rest) (lengthsBelow lengths n) =
      some (rest, lengthsBelow lengths (n + 1)) := by
  have hnew : ∀ b ∈ bucket lengths n, (lengthsBelow lengths n).look b = 0 := fun b hb => by
    rw [look_lengthsBelow, if_neg (by rw [(mem_bucket _ _ _).1 hb]; exact lt_irrefl n)]
  have htable : (bucket lengths n).foldl (fun t b => t.put b n) (lengthsBelow lengths n) =
      lengthsBelow lengths (n + 1) := Table.ext_of_look _ _ fun b => by
    simp only [look_foldl_put, mem_bucket, look_lengthsBelow]
    split_ifs <;> omega
  rw [readSymbols_append n rest (bucket_sorted lengths n) hnew, htable]

/-- The decoder's table after the buckets of `k` lengths from `n` on (R202). -/
theorem readBuckets_append (lengths : Byte → Nat) (n k : Nat) (rest : List Byte) :
    readBuckets n ((List.range' n k).map fun m => (bucket lengths m).length)
        (((List.range' n k).flatMap fun m => bucket lengths m) ++ rest) (lengthsBelow lengths n) =
      some (rest, lengthsBelow lengths (n + k)) := by
  induction k generalizing n with
  | zero => rfl
  | succ k ih =>
    rw [List.range'_succ, List.map_cons, List.flatMap_cons, List.append_assoc, readBuckets,
      readSymbols_bucket, Nat.add_comm k 1, ← Nat.add_assoc]
    exact ih (n + 1)

/-! ### The control byte -/

theorem controlByte_reserved (leftover : BitVec 3) (dense : Bool) :
    (controlByte leftover dense).extractLsb' 0 4 = 0 := by
  revert leftover dense
  decide

theorem controlByte_dense (leftover : BitVec 3) (dense : Bool) :
    (controlByte leftover dense).getLsbD 4 = dense := by
  revert leftover dense
  decide

theorem controlByte_leftover (leftover : BitVec 3) (dense : Bool) :
    (controlByte leftover dense).extractLsb' 5 3 = leftover := by
  revert leftover dense
  decide

/-! ### The header block -/

/-- CLEN as the decoder holds a length table. -/
def State.lengthTable (s : State) : Table Nat := s.clen.map BitVec.toNat

@[simp] theorem State.look_lengthTable (s : State) (b : Byte) :
    s.lengthTable.look b = lengthsOf s.clen b := by
  simp [State.lengthTable, lengthsOf, Table.look]

section
variable {s : State} (hcounted : s.Counted) (hlengths : s.HasLengths) (hcodes : s.HasCodes)

include hcounted hlengths hcodes

/-- A run of at least one symbol has a byte with a code. -/
theorem State.HasCodes.exists_coded : ∃ b, s.clen.look b ≠ 0 := by
  have hpos := hlengths.nsymPos
  rw [← hcounted.length_symbols] at hpos
  obtain ⟨b, hb⟩ := List.exists_mem_of_length_pos hpos
  exact ⟨b, (hcodes.clen_ne_zero_iff hlengths b).2 ((hcounted.mem b).1 hb)⟩

/-- The dense table is CLEN itself (R203). -/
theorem State.HasCodes.readHeader_dense (hdense : s.dense = true) (payload : List Byte) :
    readHeader (s.headerBytes ++ payload) = some (s.lengthTable, payload) := by
  have hlen : s.denseTable.length = 256 := by simp [State.denseTable]
  have hroom : ¬ (s.denseTable ++ payload).length < 256 := by
    rw [List.length_append]
    omega
  have htable : (vecOfFn 256 fun v => ((s.denseTable ++ payload)[v]?.getD 0).toNat : Table Nat) =
      s.lengthTable := Table.ext_of_look _ _ fun b => by
    rw [Table.look_vecOfFn, List.getElem?_append_left (hlen ▸ b.isLt), s.getElem?_denseTable,
      s.look_lengthTable]
    rfl
  have hsome : s.denseTable.all (· = 0) = false := by
    obtain ⟨b, hb⟩ := hcodes.exists_coded hcounted hlengths
    exact List.all_eq_false.2 ⟨_, List.mem_map_of_mem (mem_allBytes b), by simpa using hb⟩
  rw [State.headerBytes_dense hdense, List.cons_append, readHeader.eq_def]
  simp only [controlByte_reserved, controlByte_dense, hroom, List.take_left' hlen, hsome,
    List.drop_left' hlen, htable]
  rfl

/-- The buckets up to MAXLEN hold all symbols of the run (R183). -/
theorem State.HasCodes.length_canonicalOrder (hdense : s.dense = false) :
    s.canonicalOrder.length = s.nsym.toNat := by
  have hlen := hcodes.length_headerBytes hcounted hlengths
  rw [hcodes.hdrLen, headerLength, s.length_headerBytes, ← s.length_canonicalOrder, hdense] at hlen
  simpa using hlen

/-- The count bytes are the bucket sizes of the lengths 1 to MAXLEN (R202). -/
theorem State.HasCodes.map_toNat_countBytes (hdense : s.dense = false) (hnsym : s.nsym.toNat ≤ 127) :
    s.countBytes.map BitVec.toNat =
      (List.range' 1 s.maxLen.toNat).map fun n => (bucket (lengthsOf s.clen) n).length := by
  rw [State.countBytes, List.map_map]
  refine List.map_congr_left fun n hn => ?_
  have hbucket : (bucket (lengthsOf s.clen) n).length ≤ s.nsym.toNat := by
    rw [← hcodes.length_canonicalOrder hcounted hlengths hdense, State.canonicalOrder]
    exact (List.flatMap_singleton _ n ▸ (List.singleton_sublist.2 hn).flatMap _).length_le
  obtain ⟨hpos, hmax⟩ := List.mem_range'_1.1 hn
  have hn256 : n < 256 := by
    have := s.maxLen.isLt
    omega
  have hblcount := hcodes.blcount (BitVec.ofNat 8 n)
  rw [BitVec.toNat_ofNat, Nat.mod_eq_of_lt hn256, bucketSize, if_neg (by omega)] at hblcount
  have hlook : s.blcount[n]? = some (s.blcount.look (BitVec.ofNat 8 n)) := by
    simp [Table.look, Nat.mod_eq_of_lt hn256, hn256]
  rw [Function.comp_apply, hlook, Option.getD_some, BitVec.toNat_setWidth, hblcount]
  exact Nat.mod_eq_of_lt (by omega)

/-- Some symbol has the length MAXLEN, so the last count byte is not 0 (R183). -/
theorem State.HasCodes.exists_longest : s.maxLen.toNat ≠ 0 ∧
    0 < (bucket (lengthsOf s.clen) s.maxLen.toNat).length := by
  obtain ⟨b, hb⟩ := hcodes.exists_coded hcounted hlengths
  have hpos : lengthsOf s.clen b ≠ 0 := fun h => hb (BitVec.eq_of_toNat_eq h)
  have hle := le_largestLength (lengthsOf s.clen) b
  rw [hcodes.maxLen]
  refine ⟨by omega, ?_⟩
  rcases largestLength_attained (lengthsOf s.clen) with h0 | ⟨c, hc⟩
  · omega
  · exact List.length_pos_of_mem ((mem_bucket _ _ c).2 hc)

/-- The decoder reads exactly the count bytes: they add up to NSYM, and not before the last (R202). -/
theorem State.HasCodes.readCounts_countBytes (hdense : s.dense = false) (hnsym : s.nsym.toNat ≤ 127)
    (rest : List Byte) : readCounts s.nsym.toNat 0 (s.countBytes ++ rest) =
      some ((List.range' 1 s.maxLen.toNat).map fun n => (bucket (lengthsOf s.clen) n).length, rest) := by
  have hbytes := hcodes.map_toNat_countBytes hcounted hlengths hdense hnsym
  obtain ⟨hmax, hlongest⟩ := hcodes.exists_longest hcounted hlengths
  obtain ⟨counts, last, hsplit⟩ := (List.eq_nil_or_concat' s.countBytes).resolve_left fun h =>
    hmax (by rw [← s.length_countBytes, h]; rfl)
  have hsum : (s.countBytes.map BitVec.toNat).sum = s.nsym.toNat := by
    rw [hbytes, ← hcodes.length_canonicalOrder hcounted hlengths hdense, State.canonicalOrder,
      List.length_flatMap]
  have hlast : last.toNat = (bucket (lengthsOf s.clen) s.maxLen.toNat).length := by
    have h := congrArg List.getLast? hbytes
    obtain ⟨m, hm⟩ := Nat.exists_eq_succ_of_ne_zero hmax
    rw [hsplit, hm, List.range'_1_concat] at h
    simpa [hm, Nat.add_comm] using h
  rw [hsplit, List.map_append, List.sum_append] at hsum
  rw [← hbytes, hsplit, List.append_assoc, List.map_append]
  refine readCounts_append rest ?_ (by simpa using hsum)
  rintro rfl
  exact hlongest.ne hlast

/-- The sparse table determines CLEN (R202). -/
theorem State.HasCodes.readHeader_sparse (hdense : s.dense = false) (payload : List Byte) :
    readHeader (s.headerBytes ++ payload) = some (s.lengthTable, payload) := by
  have hnsym : s.nsym.toNat ≤ 127 := by
    have h := hcodes.dense
    rw [hdense, denseFlag, Config.sparseMax, eq_comm, decide_eq_false_iff_not] at h
    omega
  have hpos := hlengths.nsymPos
  have hbyte : (s.nsym.setWidth 8 : Byte).toNat = s.nsym.toNat :=
    (BitVec.toNat_setWidth _ _).trans (Nat.mod_eq_of_lt (by omega))
  have hlegal : ¬ ((s.nsym.setWidth 8 : Byte) = 0 ∨ 127 < s.nsym.toNat) := by
    rintro (h | h)
    · rw [h] at hbyte
      exact Nat.one_le_iff_ne_zero.1 hpos hbyte.symm
    · omega
  have hcounts := hcodes.readCounts_countBytes hcounted hlengths hdense hnsym
    (s.canonicalOrder ++ payload)
  have hsymbols := readBuckets_append (lengthsOf s.clen) 1 s.maxLen.toNat payload
  have htable : lengthsBelow (lengthsOf s.clen) (1 + s.maxLen.toNat) = s.lengthTable :=
    Table.ext_of_look _ _ fun b => by
      have := le_largestLength (lengthsOf s.clen) b
      rw [look_lengthsBelow, s.look_lengthTable, if_pos (by rw [hcodes.maxLen]; omega)]
  rw [lengthsBelow_one, htable, ← State.canonicalOrder] at hsymbols
  rw [State.headerBytes_sparse hdense, List.cons_append, List.cons_append, List.append_assoc,
    readHeader.eq_def]
  simp only [controlByte_reserved, controlByte_dense, hlegal, hbyte, hcounts, hsymbols]
  rfl

/-- R211: the length table the decoder builds from the header block is CLEN. -/
theorem State.HasCodes.readHeader_headerBytes (payload : List Byte) :
    readHeader (s.headerBytes ++ payload) = some (s.lengthTable, payload) := by
  cases hdense : s.dense with
  | true => exact hcodes.readHeader_dense hcounted hlengths hdense payload
  | false => exact hcodes.readHeader_sparse hcounted hlengths hdense payload

end

end Sys2Proof.Machine
end

section
/-! PROOFS. The round trip (45_header_serializer.md R211): what PACK and HEADER leave in OBUF for an input is the
archive the reference decoder turns back into it, and RUN and the six stage commands end in such a state. -/

namespace Sys2Proof.Machine

/-! ### The codes of a run -/

section
variable {s : State} (hcounted : s.Counted) (hlengths : s.HasLengths) (hcodes : s.HasCodes)
include hcounted hlengths hcodes

/-- The canonical lengths of a run satisfy Kraft's inequality: they are the tree's, or the forced single bit
(R174, R182). -/
theorem State.HasCodes.kraft : kraftSum (lengthsOf s.clen) ≤ 2 ^ 255 := by
  have hclen : ∀ b, lengthsOf s.clen b = if s.freq.look b = 0 then 0 else
      if s.nsym = 1 then 1 else lengthsOf s.len b := fun b => by
    rw [lengthsOf, hcodes.clen b, s.canonicalLength_eq]
    split_ifs <;> rfl
  have hpos := hlengths.nsymPos
  by_cases h1 : s.nsym.toNat = 1
  · have hsymbols : s.symbols.length = 1 := hcounted.length_symbols.trans h1
    obtain ⟨b, hb⟩ := List.length_eq_one_iff.1 hsymbols
    rw [kraftSum, sum_allBytes_eq hcounted.nodup fun c hc => ?_, hb, List.map_singleton,
      List.sum_singleton]
    · split_ifs
      · exact Nat.zero_le _
      · exact Nat.pow_le_pow_right (by decide) (Nat.sub_le _ _)
    · rw [if_pos]
      rw [hclen, if_pos (not_not.1 (mt (hcounted.mem c).2 hc))]
  · have h1' : s.nsym ≠ 1 := fun h => h1 (by rw [h]; rfl)
    have hlen : lengthsOf s.clen = lengthsOf s.len := funext fun b => by
      rw [hclen, if_neg h1']
      split_ifs with h0
      · rw [lengthsOf, hlengths.absent b h0]
        rfl
      · rfl
    rw [hlen, hlengths.kraft (by omega)]

/-- No code that the decoder numbers from CLEN begins another (R187). -/
theorem State.HasCodes.prefixFree : PrefixFree s.lengthTable
    (canonicalCodes (lengthsOf s.clen) (largestLength (lengthsOf s.clen))) := by
  intro b c hb hc hprefix
  rw [s.look_lengthTable] at hb hc
  rw [codeString, codeString, s.look_lengthTable, s.look_lengthTable] at hprefix
  by_contra hne
  exact canonicalCodes_prefixFree _ _ b c (lengthsOf_bounds fun h => hb (by rw [lengthsOf, h]; rfl))
    (lengthsOf_bounds fun h => hc (by rw [lengthsOf, h]; rfl))
    (hcodes.kraft hcounted hlengths) hne hprefix

end

/-- The codes the decoder numbers from CLEN are those PACK emits (R184). -/
theorem State.HasCodes.codeString_eq {s : State} (hcodes : s.HasCodes) :
    codeString s.lengthTable (canonicalCodes (lengthsOf s.clen) (largestLength (lengthsOf s.clen))) =
      s.codeBits := by
  funext b
  rw [codeString, s.look_lengthTable, State.codeBits, hcodes.code b, hcodes.maxLen, lengthsOf]

/-! ### Archives -/

/-- `OBUF[0 .. OUT_LEN - 1]` is the archive of an input: the header block of a run's code tables, and behind it
the packed code stream of the input (R100, R106). -/
structure State.ArchiveOf (s : State) (input : List Byte) : Prop where
  counted  : s.Counted
  lengths  : s.HasLengths
  codes    : s.HasCodes
  coded    : ∀ b ∈ input, s.clen.look b ≠ 0
  leftover : s.leftover.toNat = (s.bitStream input).length % 8
  archive  : s.archive = s.headerBytes ++
               streamBytes (s.bitStream input) (((s.bitStream input).length + 7) / 8)

section
variable {s : State} {input : List Byte} (h : s.ArchiveOf input)
include h

theorem State.ArchiveOf.endCommand : s.endCommand.ArchiveOf input :=
  ⟨{ h.counted with }, { h.lengths with }, { h.codes with }, h.coded, h.leftover, h.archive⟩

theorem State.ArchiveOf.readHeader_archive : readHeader s.archive = some (s.lengthTable,
    streamBytes (s.bitStream input) (((s.bitStream input).length + 7) / 8)) := by
  rw [h.archive, h.codes.readHeader_headerBytes h.counted h.lengths]

/-- R211: the reference decoder turns the archive of an input back into the input. -/
theorem State.ArchiveOf.refDecode_archive : refDecode s.archive = some input := by
  have hcontrol : (s.archive.headD 0).extractLsb' 5 3 = s.leftover := by
    rw [h.archive]
    exact controlByte_leftover s.leftover s.dense
  have hlook : s.lengthTable.look = lengthsOf s.clen := funext s.look_lengthTable
  have hcut := (h.codes.prefixFree h.counted h.lengths).cutCodes_flatMap (input := input)
    fun b hb h0 => h.coded b hb (BitVec.eq_of_toNat_eq ((s.look_lengthTable b).symm.trans h0))
  rw [h.codes.codeString_eq, ← State.bitStream] at hcut
  have hbits : 8 * (((s.bitStream input).length + 7) / 8) - (if (s.bitStream input).length % 8 = 0
      then 0 else 8 - (s.bitStream input).length % 8) = (s.bitStream input).length := by
    split_ifs <;> omega
  rw [refDecode, h.readHeader_archive]
  simp only [hcontrol, hlook, h.leftover, length_streamBytes, hbits, take_bitsOfBytes_streamBytes, hcut]
  rw [if_neg (by omega)]

end

/-! ### PACK and HEADER -/

theorem Memory.readRange_add (m : Memory) (o a b : Nat) :
    m.readRange o (a + b) = m.readRange o a ++ m.readRange (o + a) b := by
  simp [Memory.readRange_eq, List.range_add, Nat.add_assoc]

/-- A block written behind the place of its header, and then the header, read back as one range. -/
theorem Memory.readRange_header_payload {m : Memory} (hm : m.wf) (header payload : List Byte) :
    ((m.writeRange header.length payload).writeRange 0 header).readRange 0
      (header.length + payload.length) = header ++ payload := by
  have hpayload : ((m.writeRange header.length payload).writeRange 0 header).readRange header.length
      payload.length = payload := by
    refine Eq.trans ?_ (Memory.readRange_writeRange hm header.length payload)
    rw [Memory.readRange_eq, Memory.readRange_eq]
    exact List.map_congr_left fun k _ => Memory.read_writeRange_outside _ _ _ _ (by omega)
  rw [Memory.readRange_add, Memory.readRange_writeRange (Memory.writeRange_wf _ _ _ hm), Nat.zero_add,
    hpayload]

/-- OBUF after PACK has written the payload of the input and HEADER the header block before it. -/
def State.archiveMemory (s : State) : Memory :=
  (s.obuf.writeRange s.hdrLen.toNat (streamBytes (s.bitStream s.input) s.payloadSize)).writeRange 0
    (s.archived s.obuf).headerBytes

section
variable {s : State} (hwf : s.obuf.wf) (hcounted : s.Counted) (hlengths : s.HasLengths)
  (hcodes : s.HasCodes)
include hcounted hlengths hcodes

/-- PACK and HEADER leave an archived state when neither raises an error (R220, R200). -/
theorem bodyHeader_archived {t u : State} (hcap : 257 ≤ s.capObufSize.toNat) (hpack : bodyPack s = .ok t)
    (hheader : bodyHeader t = .ok u) : (∀ b ∈ s.input, s.clen.look b ≠ 0) ∧
      s.hdrLen.toNat + s.payloadSize ≤ s.capObufSize.toNat ∧ u = s.archived s.archiveMemory := by
  obtain ⟨-, hhdr⟩ := hcodes.hdrLen_bounds hcounted hlengths
  obtain ⟨hlen, hcoded, hroom⟩ := bodyPack_ok_inv hpack (hhdr.trans hcap)
  obtain rfl := BodyResult.ok.inj (hpack.symm.trans (bodyPack_ok hlen hcoded hroom))
  obtain ⟨-, rfl⟩ := bodyHeader_leaves (.inl hheader)
  exact ⟨hcoded, hroom, rfl⟩

include hwf

/-- An archived state presents the archive of its input (R106, R204). -/
theorem State.archiveOf_archived (hcoded : ∀ b ∈ s.input, s.clen.look b ≠ 0)
    (hroom : s.hdrLen.toNat + s.payloadSize ≤ s.capObufSize.toNat) :
    (s.archived s.archiveMemory).ArchiveOf s.input := by
  have hlength : (s.archived s.obuf).headerBytes.length = s.hdrLen.toNat :=
    State.HasCodes.length_headerBytes { hcounted with } { hlengths with } { hcodes with }
  have hread := Memory.readRange_header_payload hwf (s.archived s.obuf).headerBytes
    (streamBytes (s.bitStream s.input) s.payloadSize)
  rw [hlength, length_streamBytes, ← State.toNat_archived_outLen hroom s.archiveMemory] at hread
  refine ⟨{ hcounted with }, { hlengths with }, { hcodes with }, hcoded, ?_, hread.trans ?_⟩
  · exact (Nat.mod_eq_of_lt (Nat.mod_lt _ (by decide))).trans
      (congrArg (· % 8) (s.length_bitStream s.input).symm)
  · rw [State.payloadSize, ← s.length_bitStream]
    rfl

/-- PACK and HEADER after ASSIGN leave the archive of the input PACK read. -/
theorem bodyHeader_archiveOf {t u : State} (hcap : 257 ≤ s.capObufSize.toNat) (hpack : bodyPack s = .ok t)
    (hheader : bodyHeader t = .ok u) : u.ArchiveOf s.input := by
  obtain ⟨hcoded, hroom, rfl⟩ := bodyHeader_archived hcounted hlengths hcodes hcap hpack hheader
  exact State.archiveOf_archived hwf hcounted hlengths hcodes hcoded hroom

end

/-! ### RUN -/

theorem BodyResult.andThen_eq_ok {r : BodyResult} {f : State → BodyResult} {t : State}
    (h : r.andThen f = .ok t) : ∃ u, r = .ok u ∧ f u = .ok t := by
  cases r with
  | ok u => exact ⟨u, rfl, h⟩
  | raised e info u => cases h
  | stuck q => cases h

/-- A RUN without an error ends with PACK and HEADER, and no body before them writes OBUF (R128). -/
theorem bodyRun_ok_inv {s v : State} (h : bodyRun s = .ok v) :
    ∃ u w, u.obuf = s.obuf ∧ bodyPack u = .ok w ∧ bodyHeader w = .ok v := by
  obtain ⟨w, hw, hheader⟩ := BodyResult.andThen_eq_ok h
  obtain ⟨u, hu, hpack⟩ := BodyResult.andThen_eq_ok hw
  have htrans : ∀ a b c : State, b.obuf = a.obuf → c.obuf = b.obuf → c.obuf = a.obuf :=
    fun _ _ _ hab hbc => hbc.trans hab
  refine ⟨u, w, ?_, hpack, hheader⟩
  exact BodyResult.andThen_rel (R := fun a b => b.obuf = a.obuf) htrans
    (fun _ => BodyResult.andThen_rel htrans (fun _ => BodyResult.andThen_rel htrans
      (fun _ hc => (bodyCount_sameBuffers hc).obuf) fun _ _ hb => (bodyBuild_sameBuffers hb).obuf)
      fun _ _ he => (bodyExtract_sameBuffers he).obuf)
    (fun _ _ ha => (bodyAssign_sameBuffers ha).obuf) (.inl hu)

/-- PACK and HEADER leave the code tables as they are. -/
theorem codedRun_iff_of_archived {s u w v : State} (hpack : bodyPack u = .ok w)
    (hheader : bodyHeader w = .ok v) : CodedRun s v ↔ CodedRun s u := by
  obtain ⟨_, _, _, _, rfl⟩ := bodyPack_leaves (.inl hpack)
  obtain ⟨-, rfl⟩ := bodyHeader_leaves (.inl hheader)
  constructor <;> exact fun h => ⟨{ h.host with }, { h.counted with }, { h.lengths with },
    { h.codes with }, h.freq, h.cost, h.fits⟩

/-- A RUN of a nonempty input without an error leaves its archive. -/
theorem bodyRun_archiveOf {s v : State} (hcap : 257 ≤ s.capObufSize.toNat) (hwf : s.obuf.wf)
    (hpos : 1 ≤ s.inLen.toNat) (h : bodyRun s = .ok v) : v.ArchiveOf s.input := by
  have hlen : s.inLen.toNat ≤ s.capInMax.toNat := by
    by_contra hlen
    have htoo : s.inputTooLong = true := decide_eq_true (Nat.not_le.1 hlen)
    rw [bodyRun, bodyCount, if_pos htoo] at h
    cases h
  obtain ⟨u, w, hobuf, hpack, hheader⟩ := bodyRun_ok_inv h
  have hcoded : CodedRun s u := by
    obtain ⟨u', hcoded, hrun⟩ := bodyRun_eq_pack hpos hlen
    obtain ⟨w', hpack', hheader'⟩ := BodyResult.andThen_eq_ok (hrun.symm.trans h)
    rwa [← codedRun_iff_of_archived hpack hheader, codedRun_iff_of_archived hpack' hheader']
  rw [← hcoded.input]
  exact bodyHeader_archiveOf (hobuf ▸ hwf) hcoded.counted hcoded.lengths hcoded.codes
    (hcoded.host.capObufSize ▸ hcap) hpack hheader

/-- Every error of RUN aborts it (R245), so that a RUN which ends in STAGE = DONE raised none. -/
theorem exec_run_done {s t : State} (h : exec .run s = .next t) (hdone : t.stage = .done) :
    ∃ v, bodyRun s = .ok v ∧ t = v.endCommand := by
  rw [exec_eq_complete] at h
  rcases BodyResult.complete_next h with hok | ⟨e, info, u, hu, rfl⟩
  · exact hok
  · rcases bodyRun_raised hu with rfl | rfl | rfl | rfl <;> cases hdone

/-- With ERR set before, the row of commands ends with COUNT, whose end is no archive. -/
theorem err_eq_false_of_six_done {s t : State}
    (h : runUntilError [.count, .build, .extract, .assign, .pack, .header] s = .next t)
    (hdone : t.stage = .done) : s.err = false := by
  by_contra herr
  rw [Bool.not_eq_false] at herr
  rw [runUntilError, exec_eq_complete, commandBody] at h
  cases hcount : bodyCount s with
  | ok u =>
    have herr' : u.err = true := (commandBody_sameHost (i := .count) (.inl hcount)).err.trans herr
    rw [hcount, BodyResult.complete_ok] at h
    simp only [State.endCommand_err, herr', if_true] at h
    cases h
    cases (bodyCount_stage hcount).symm.trans hdone
  | raised e info u =>
    obtain ⟨rfl, -, -⟩ := bodyCount_raised hcount
    rw [hcount] at h
    cases h
    cases hdone
  | stuck f =>
    rw [hcount] at h
    cases h

/-- Settles O34: both runs end as RUN does, with the archive of the input, and the decoder inverts HEADER and
PACK. -/
theorem archiveDecodesToInput : Obligations.ArchiveDecodesToInput := by
  intro s t hparams hwf hpos hexec hdone
  obtain ⟨-, -, hcap, -⟩ := hparams.bounds
  have hrun : exec .run s = .next t := hexec.elim id fun h =>
    (runIsTheSixStages s (err_eq_false_of_six_done h hdone)).trans h
  obtain ⟨v, hv, rfl⟩ := exec_run_done hrun hdone
  have harchive := (bodyRun_archiveOf hcap hwf hpos hv).endCommand
  rw [← s.input_eq_map]
  exact ⟨harchive.refDecode_archive, _, _, harchive.readHeader_archive, v.look_lengthTable⟩

end Sys2Proof.Machine
end

section
/-! PROOFS. PACK when it raises an error (46_bit_packer.md R221, R225, 60_exceptions.md R247, R248, R250): the input
is split at the byte where it stops, and the payload bytes before that stay in OBUF. -/

namespace Sys2Proof.Machine

/-! ### The input split at an index -/

/-- The input begins with its first `n` bytes (R220). -/
theorem State.input_eq_append (s : State) {n : Nat} (h : n ≤ s.inLen.toNat) :
    ∃ rest, s.input = (List.range n).map s.ibuf.read ++ rest := by
  obtain ⟨k, hk⟩ := Nat.exists_eq_add_of_le h
  rw [s.input_eq_map, hk, List.range_add, List.map_append]
  exact ⟨_, rfl⟩

/-! ### The loop and the bytes it leaves -/

/-- An error within a prefix of the input ends the loop, whatever follows (R225, R250). -/
theorem packBytes_append_raised {s : State} {xs : List Byte} (ys : List Byte) {i : Nat} {p : Packer}
    {e : ErrCode} {info : Word} {m : Memory} (h : s.packBytes i xs p = .raised e info m) :
    s.packBytes i (xs ++ ys) p = .raised e info m := by
  induction xs generalizing i p with
  | nil => cases h
  | cons x xs ih =>
    rw [List.cons_append, State.packBytes]
    rw [State.packBytes] at h
    cases hx : s.packByte i x p with
    | ok q =>
      rw [hx] at h
      exact ih h
    | raised e' info' m' =>
      rw [hx] at h
      exact h

/-- The whole bytes sliced off are the bit stream's (R106, R222). -/
theorem sliceBytes_eq_streamBytes_of_le {bits : BitString} {n : Nat} (h : 8 * n ≤ bits.length) :
    sliceBytes bits n = streamBytes bits n := by
  refine List.map_congr_left fun k hk => ?_
  rw [List.mem_range] at hk
  exact (sliceByte_append bits (ones 7) k (by omega)).symm

/-- OBUF with the first `n` payload bytes of an input behind the header (R106). -/
def State.obufWithPayload (s : State) (input : List Byte) (n : Nat) : Memory :=
  s.obuf.writeRange s.hdrLen.toNat (streamBytes (s.bitStream input) n)

theorem State.read_obufWithPayload {s : State} (hwf : s.obuf.wf) (input : List Byte) {n k : Nat}
    (hk : k < n) :
    (s.obufWithPayload input n).read (s.hdrLen.toNat + k) = streamByte (s.bitStream input) k :=
  Memory.read_writeRange_streamBytes hwf _ _ _ _ hk

theorem State.read_obufWithPayload_outside (s : State) (input : List Byte) {n o : Nat}
    (ho : o < s.hdrLen.toNat ∨ s.hdrLen.toNat + n ≤ o) :
    (s.obufWithPayload input n).read o = s.obuf.read o :=
  Memory.read_writeRange_outside _ _ _ _ (by rwa [length_streamBytes])

/-- A byte without a code ends the loop at its index, behind the whole bytes of the codes before it (R221). -/
theorem packBytes_lookup {s : State} {before : List Byte} {b : Byte} (rest : List Byte)
    (hcoded : ∀ c ∈ before, s.clen.look c ≠ 0) (hb : s.clen.look b = 0)
    (hroom : s.hdrLen.toNat + bitCost (lengthsOf s.clen) before / 8 ≤ s.capObufSize.toNat) :
    s.packBytes 0 (before ++ b :: rest) ⟨[], 0, s.obuf⟩ =
      .raised .lookup (BitVec.ofNat 32 before.length)
        (s.obufWithPayload before (bitCost (lengthsOf s.clen) before / 8)) := by
  rw [← s.length_bitStream] at hroom ⊢
  have hbefore := packBytes_append s before (b :: rest) 0 _ _
    (packBytes_ok s s.obuf before 0 [] hcoded hroom)
  rw [packer_start] at hbefore
  rw [hbefore, State.packBytes, State.packByte, if_pos hb, Nat.zero_add, State.obufWithPayload,
    ← sliceBytes_eq_streamBytes]
  rfl

/-- Coded bytes whose whole payload bytes have no room end the loop with OBUF filled (R225). -/
theorem packBytes_outOverflow {s : State} {xs : List Byte} (ys : List Byte)
    (hcoded : ∀ b ∈ xs, s.clen.look b ≠ 0) (hhdr : s.hdrLen.toNat ≤ s.capObufSize.toNat)
    (hover : s.capObufSize.toNat < s.hdrLen.toNat + bitCost (lengthsOf s.clen) xs / 8) :
    s.packBytes 0 (xs ++ ys) ⟨[], 0, s.obuf⟩ = .raised .outOverflow s.capObufSize
      (s.obufWithPayload xs (s.capObufSize.toNat - s.hdrLen.toNat)) := by
  rw [← s.length_bitStream] at hover
  have hloop := packBytes_append_raised ys (packBytes_overflow s s.obuf xs 0 [] hcoded hhdr hover)
  rw [packer_start, BitVec.ofNat_toNat, BitVec.setWidth_eq, List.nil_append, ← State.bitStream,
    sliceBytes_eq_streamBytes_of_le (by omega)] at hloop
  exact hloop

/-! ### The command -/

/-- PACK in its stage is its body inside the frame (R121, R123). -/
theorem exec_pack_eq_complete {s : State} (hstage : s.stage = .assigned) :
    exec .pack s = (bodyPack s).complete := by
  rw [exec_eq_complete, commandBody, withStage_of_eq _ _ _ _ hstage]

/-- An error in the loop is the error of PACK, with OBUF as written so far (R225). -/
theorem exec_pack_of_packBytes_raised {s : State} {e : ErrCode} {info : Word} {m : Memory}
    (hstage : s.stage = .assigned) (hlen : s.inLen.toNat ≤ s.capInMax.toNat)
    (h : s.packBytes 0 s.input ⟨[], 0, s.obuf⟩ = .raised e info m) :
    exec .pack s = .next (State.takeError e info { s with obuf := m }).endCommand := by
  rw [exec_pack_eq_complete hstage, bodyPack, State.inputTooLong_eq_false hlen,
    if_neg Bool.false_ne_true, h, BodyResult.complete_raised]

/-- PACK of a coded input whose whole payload bytes fill OBUF, with bits left over (R223, R225). -/
theorem exec_pack_of_no_room_for_last {s : State} (hstage : s.stage = .assigned)
    (hlen : s.inLen.toNat ≤ s.capInMax.toNat) (hcoded : ∀ b ∈ s.input, s.clen.look b ≠ 0)
    (hwhole : s.hdrLen.toNat + bitCost (lengthsOf s.clen) s.input / 8 ≤ s.capObufSize.toNat)
    (hover : s.capObufSize.toNat < s.hdrLen.toNat + (bitCost (lengthsOf s.clen) s.input + 7) / 8) :
    exec .pack s = .next (State.takeError .outOverflow s.capObufSize { s with
      obuf := s.obufWithPayload s.input (s.capObufSize.toNat - s.hdrLen.toNat) }).endCommand := by
  have hloop := packInput_ok hcoded hwhole
  rw [← s.length_bitStream] at hwhole hover
  have hfull : s.capObufSize.toNat - s.hdrLen.toNat = (s.bitStream s.input).length / 8 := by omega
  have hlast := packLast_full (s := s) (p := .after s.hdrLen.toNat s.obuf (s.bitStream s.input))
    (by simp only [Packer.after, List.length_drop]; omega) (by simp only [Packer.after]; omega)
  rw [exec_pack_eq_complete hstage, bodyPack, State.inputTooLong_eq_false hlen,
    if_neg Bool.false_ne_true, hloop]
  simp only [hlast]
  rw [BodyResult.complete_raised, State.obufWithPayload, hfull, ← sliceBytes_eq_streamBytes]
  rfl

/-- Settles O26: the loop goes through the bytes before index `i` and stops at the byte there. -/
theorem packMissingCodeRaisesLookup : Obligations.PackMissingCodeRaisesLookup := by
  intro s i hstage hwf hlen hi hb before T hcoded hroom
  obtain ⟨rest, hinput⟩ := s.input_eq_append (Nat.succ_le_of_lt hi)
  rw [List.range_succ, List.map_append, List.append_assoc] at hinput
  have hloop := packBytes_lookup rest hcoded hb hroom
  rw [List.length_map, List.length_range] at hloop
  exact ⟨_, exec_pack_of_packBytes_raised hstage hlen (hinput ▸ hloop),
    fun k hk => State.read_obufWithPayload hwf before hk,
    fun o ho => s.read_obufWithPayload_outside before ho⟩

/-- Settles O27: the loop stops within the first `n` bytes, or they are the whole input and its last partial
byte has no room; both leave OBUF filled up. -/
theorem packOverflowRaisesOutOverflow : Obligations.PackOverflowRaisesOutOverflow := by
  intro s n hstage hwf hlen hn input T hcoded hhdr hover
  have hexec : exec .pack s = .next (State.takeError .outOverflow s.capObufSize { s with
      obuf := s.obufWithPayload input (s.capObufSize.toNat - s.hdrLen.toNat) }).endCommand := by
    rcases Nat.lt_or_ge s.capObufSize.toNat (s.hdrLen.toNat + T / 8) with hloop | hwhole
    · obtain ⟨rest, hinput⟩ := s.input_eq_append hn
      exact exec_pack_of_packBytes_raised hstage hlen
        (hinput ▸ packBytes_outOverflow rest hcoded hhdr hloop)
    · have hall : n = s.inLen.toNat := by
        by_contra hne
        rw [if_neg hne] at hover
        omega
      have hinput : input = s.input := by rw [s.input_eq_map, ← hall]
      rw [if_pos hall] at hover
      rw [hinput] at hcoded ⊢
      exact exec_pack_of_no_room_for_last hstage hlen hcoded (hinput ▸ hwhole) (hinput ▸ hover)
  exact ⟨_, hexec, fun k hk => State.read_obufWithPayload hwf input (by omega),
    fun o ho => s.read_obufWithPayload_outside input (by omega)⟩

end Sys2Proof.Machine
end

section
/-! PROOFS. Errors and what is no error (60_exceptions.md R244, R245, R258, R264): what a completion step that
raises an error leaves, the input that does not fit IBUF, dropped writes, and a block that waits. -/

namespace Sys2Proof.Machine

/-! ### What an error leaves -/

/-- The codes of R241 that abort the run (R245). -/
theorem ErrCode.aborts_iff (e : ErrCode) :
    e.aborts = true ↔ e ≠ .none ∧ e ≠ .illegalCmd ∧ e ≠ .sequence := by
  cases e <;> decide

/-- ERR_ILLEGAL_CMD and ERR_SEQUENCE leave the run as it is (R245). -/
theorem State.takeError_of_not_aborts {e : ErrCode} (he : e.aborts = false) (info : Word) (s : State) :
    s.takeError e info = { s with err := true, errCode := e, errInfo := info } := by
  simp [State.takeError, he]

/-- A body raises ERR_SEQUENCE before it has written anything (R123), or an error that aborts the run. -/
theorem commandBody_raised_cases {i : Instr} {s u : State} {e : ErrCode} {info : Word}
    (h : commandBody i s = .raised e info u) : (e = .sequence ∧ u = s) ∨ e.aborts = true := by
  have staged : ∀ {i need body}, (body s = .raised e info u → e.aborts = true) →
      withStage i need body s = .raised e info u → (e = .sequence ∧ u = s) ∨ e.aborts = true :=
    fun {i need body} hk h => by
      by_cases hs : s.stage = need
      · rw [withStage_of_eq _ _ _ _ hs] at h
        exact .inr (hk h)
      · rw [withStage_of_ne _ _ _ _ hs] at h
        cases h
        exact .inl ⟨rfl, rfl⟩
  cases i with
  | nop | clear => cases h
  | count => exact .inr (by rw [(bodyCount_raised h).1]; rfl)
  | build => exact staged (fun h => by rw [(bodyBuild_raised h).1]; rfl) h
  | extract => exact staged (fun h => (bodyExtract_ne_raised _ _ _ _ h).elim) h
  | assign => exact staged (fun h => (bodyAssign_ne_raised _ _ _ _ h).elim) h
  | pack => exact staged (fun h => by rcases bodyPack_raised h with rfl | rfl | rfl <;> rfl) h
  | header => exact staged (fun h => (bodyHeader_ne_raised _ _ _ _ h).elim) h
  | run => exact .inr (by rcases bodyRun_raised h with rfl | rfl | rfl | rfl <;> rfl)

/-- A completion step ends without an error, refuses its command word in the state it found, or aborts the run
(R121, R245). -/
theorem completionStep_next {s t : State} (h : completionStep s = .next t) :
    (∃ i u, commandBody i s = .ok u ∧ t = u.endCommand) ∨
    (∃ e info, (e = .illegalCmd ∨ e = .sequence) ∧ t = (s.takeError e info).endCommand) ∨
    (∃ (e : ErrCode) (info : Word) (u : State), e.aborts = true ∧ t = (u.takeError e info).endCommand) := by
  rcases completionStep_cases s with ⟨i, -, hi⟩ | ⟨-, hi⟩ <;> rw [hi] at h
  · rw [exec_eq_complete] at h
    rcases BodyResult.complete_next h with ⟨u, hu, rfl⟩ | ⟨e, info, u, hu, rfl⟩
    · exact .inl ⟨i, u, hu, rfl⟩
    · rcases commandBody_raised_cases hu with ⟨rfl, rfl⟩ | habort
      · exact .inr (.inl ⟨_, info, .inr rfl, rfl⟩)
      · exact .inr (.inr ⟨e, info, u, habort, rfl⟩)
  · cases h
    exact .inr (.inl ⟨_, _, .inl rfl, rfl⟩)

/-- Settles O9: without an error no body touches the error fields, a refused command changes them alone, and
every other error aborts the run. -/
theorem errorEffects : Obligations.ErrorEffects := by
  intro s t hr hb hd herr hcode hinfo h
  rw [step_of_due ((completionDue_iff s).2 ⟨hr, hb, hd⟩)] at h
  rcases completionStep_next h with ⟨i, u, hu, rfl⟩ | ⟨e, info, he, rfl⟩ | ⟨e, info, u, habort, rfl⟩
  · have hsame := commandBody_sameHost (.inl hu)
    have herr' : u.err = false := hsame.err.trans herr
    have hcode' : u.errCode = .none := hsame.errCode.trans hcode
    have hinfo' : u.errInfo = 0 := hsame.errInfo.trans hinfo
    simp [herr', hcode', hinfo']
  · have hrefused : e ≠ .none ∧ e.aborts = false := by rcases he with rfl | rfl <;> decide
    rw [State.takeError_of_not_aborts hrefused.2]
    refine ⟨iff_of_true rfl hrefused.1, nofun, fun _ => rfl, fun _ hill hseq => ?_⟩
    exact (he.elim hill hseq).elim
  · obtain ⟨hnone, hill, hseq⟩ := e.aborts_iff.1 habort
    refine ⟨iff_of_true rfl hnone, nofun, fun hrefused => ?_, fun _ _ _ => ?_⟩
    · exact (hrefused.elim hill hseq).elim
    · exact ⟨if_pos habort, if_pos habort⟩

/-! ### An input that does not fit IBUF -/

section
variable {s : State} (h : s.capInMax.toNat < s.inLen.toNat)
include h

theorem State.inputTooLong_eq_true : s.inputTooLong = true := decide_eq_true h

theorem bodyCount_tooLong : bodyCount s = .raised .inLen s.inLen s :=
  if_pos (State.inputTooLong_eq_true h)

theorem bodyPack_tooLong : bodyPack s = .raised .inLen s.inLen s :=
  if_pos (State.inputTooLong_eq_true h)

/-- COUNT's error ends RUN before the other bodies (R128). -/
theorem bodyRun_tooLong : bodyRun s = .raised .inLen s.inLen s := by
  simp only [bodyRun, bodyCount_tooLong h, BodyResult.andThen_raised]

end

/-- Settles O12: the length is the first thing the three bodies check, and ERR_IN_LEN aborts the run. -/
theorem tooLongInputRefused : Obligations.TooLongInputRefused := by
  intro s i hlong hi
  have hbody : commandBody i s = .raised .inLen s.inLen s := by
    rcases hi with rfl | rfl | ⟨rfl, hstage⟩
    · exact bodyCount_tooLong hlong
    · exact bodyRun_tooLong hlong
    · exact (withStage_of_eq _ _ _ _ hstage).trans (bodyPack_tooLong hlong)
  rw [exec_eq_complete, hbody]
  rfl

/-! ### What is no error -/

/-- Settles O48: before the completion step is due the write is the host's turn, and the bus drops it. -/
theorem writesWhileBusyAreDropped : Obligations.WritesWhileBusyAreDropped := by
  intro s a n v ops hr hb hd hinbox ha
  have hstep := step_write_before_completion (.inr hd) hinbox
  rw [if_pos hb, busWrite_busy (s := { s with delay := s.delay - 1, inbox := ops })
    ((legalAccess_iff a n).2 ha) hr hb] at hstep
  exact hstep

/-- A host without an operation leaves the block alone (R76). -/
theorem hostTurn_nil {s : State} (h : s.inbox = []) : hostTurn s = s := by
  simp only [hostTurn, h]

/-- Settles O51: while BUSY = 0 a step is a turn of the host. -/
theorem idleBlockWaits : Obligations.IdleBlockWaits := by
  intro s hb hinbox
  rw [step_idle hb, hostTurn_nil hinbox]

end Sys2Proof.Machine
end

section
/-! PROOFS. Reset and the staged run (70_reset_and_hazards.md): the archive of PACK and HEADER (R276), the
reset event and the reset state (R270 to R273), and accesses while reset is asserted (R270). -/

namespace Sys2Proof.Machine

/-! ### A staged run -/

/-- A stage command on the state a completed command left is its body alone, when STAGE is
what it requires. -/
theorem IsStageBody.exec_endCommand {i : Instr} {need next : Stage} {body : State → BodyResult} {s : State}
    (h : IsStageBody i need next body) (hstage : s.stage = need) :
    exec i s.endCommand = (body s).complete := by
  rw [exec_eq_complete, h.command, withStage_of_eq _ _ _ s.endCommand hstage, h.ended,
    BodyResult.complete_ended]

/-- Every error of PACK's body aborts the run (R245), so that a PACK which ends in STAGE = PACKED raised
none. -/
theorem exec_pack_packed {s t : State} (hstage : s.stage = .assigned) (h : exec .pack s = .next t)
    (hpacked : t.stage = .packed) : ∃ w, bodyPack s = .ok w ∧ t = w.endCommand := by
  rw [exec_pack_eq_complete hstage] at h
  rcases BodyResult.complete_next h with hok | ⟨e, info, w, hw, rfl⟩
  · exact hok
  · rcases bodyPack_raised hw with rfl | rfl | rfl <;> cases hpacked

/-- Settles O35: HEADER finds the state PACK left, and in a good state with STAGE = ASSIGNED the code tables are
those of a run, so that the two leave the archive of the input PACK read. -/
theorem stagedArchiveDecodesToPackedBytes : Obligations.StagedArchiveDecodesToPackedBytes := by
  intro s t u hgood hstage hpack hpacked hheader
  have row := hgood.stage
  rw [State.StageOk, hstage] at row
  obtain ⟨hcounted, -, hlengths, hcodes, -, -⟩ := row
  obtain ⟨-, -, hcap, -⟩ := hgood.params.bounds
  obtain ⟨w, hw, rfl⟩ := exec_pack_packed hstage hpack hpacked
  rw [bodyHeader_isStageBody.exec_endCommand (s := w) hpacked] at hheader
  rcases BodyResult.complete_next hheader with ⟨v, hv, rfl⟩ | ⟨e, info, v, hv, -⟩
  · have harchive : v.ArchiveOf s.input :=
      bodyHeader_archiveOf hgood.buffers.obufWf hcounted hlengths hcodes hcap hw hv
    rw [← s.input_eq_map]
    exact harchive.endCommand.refDecode_archive
  · exact absurd hv (bodyHeader_ne_raised _ _ _ _)

/-! ### The reset event -/

/-- While reset is asserted no completion step is due: the host has its turn. -/
theorem step_inReset {s : State} (h : s.inReset = true) : step s = .next (hostTurn s.tick) :=
  step_of_not_due (by rw [State.completionDue, h]; rfl)

theorem hostTurn_resetAssert {s : State} {ops : List BusOp} (h : s.inbox = .resetAssert :: ops) :
    hostTurn s = State.resetEvent { s with inbox := ops } := by
  simp only [hostTurn, h]

/-- Settles O53: the step is the host's turn, and the reset event reads of the block only what it keeps and the
counter of free values. -/
theorem resetEvent : Obligations.ResetEvent := by
  intro s ops hinbox hwait
  have hturn : step s = .next (hostTurn s.tick) := hwait.elim step_inReset step_before_completion
  have hevent : hostTurn s.tick = State.resetEvent { s with inbox := ops } := by
    rw [tick_eq]
    exact hostTurn_resetAssert hinbox
  have hbuffers := resetEvent_buffersOk { s with inbox := ops }
  exact ⟨_, _, _, _, hturn.trans (congrArg _ hevent), hbuffers.ibufWf, hbuffers.ibufWithin,
    hbuffers.obufWf, hbuffers.obufWithin⟩

/-- Settles O52: `State.reset` is written out field by field, its tables as constant vectors. -/
theorem resetStateValues : Obligations.ResetStateValues := by
  have hstatus : State.reset.statusWord = 0 := by decide
  have hparams : paramsWf State.reset.capInMax State.reset.capObufSize = true := by decide
  refine ⟨hstatus, rfl, rfl, rfl, rfl, rfl, rfl, rfl, rfl, rfl, rfl, rfl, rfl, fun b => ?_, fun n h => ?_,
    hparams⟩
  · exact ⟨Table.look_replicate 0 b, Table.look_replicate 0 b, Table.look_replicate 0 b,
      Table.look_replicate 0 b, Table.look_replicate 0 b, Table.look_replicate 0 b⟩
  · exact Vector.getElem_replicate h

/-! ### Accesses while reset is asserted -/

/-- The bus's answer to an access by its legality: a bus error with data 0 exactly on an access R63 and R64 do not
allow (R66). -/
def BusReply.FitsAccess (r : BusReply) (a : Word) (n : Nat) : Prop :=
  (AccessAllowed a n → r.busError = false) ∧ (¬ AccessAllowed a n → r = ⟨0, true⟩)

theorem busReadReply_fitsAccess (s : State) (a : Word) (n : Nat) : (busReadReply s a n).FitsAccess a n := by
  refine ⟨fun ha => ?_, fun ha => busReadReply_illegal (legalAccess_eq_false ha)⟩
  obtain ⟨d, hreply⟩ := busReadReply_legal (s := s) ((legalAccess_iff a n).2 ha)
  rw [hreply]

/-- While reset is asserted a write is answered and has no effect (R270). -/
theorem busWrite_inReset {s : State} (hr : s.inReset = true) (a : Word) (n : Nat) (v : Word) :
    ∃ r : BusReply, busWrite a n v s = { s with replies := r :: s.replies } ∧ r.FitsAccess a n := by
  by_cases ha : AccessAllowed a n
  · exact ⟨⟨0, false⟩, busWrite_reset ((legalAccess_iff a n).2 ha) hr, fun _ => rfl, absurd ha⟩
  · exact ⟨⟨0, true⟩, busWrite_illegal (legalAccess_eq_false ha), fun h => absurd h ha, fun _ => rfl⟩

/-- Settles O54: the step is the host's turn, a write is only answered, and a read changes nothing of the block. -/
theorem accessesDuringReset : Obligations.AccessesDuringReset := by
  intro s a n v ops hr hb
  have hturn : step s = .next (hostTurn s) := step_idle hb
  refine ⟨?_, fun hinbox => ?_⟩
  · rintro (hinbox | hinbox) <;> simp only [hostTurn, hinbox] at hturn
    · obtain ⟨r, hwrite, hfits⟩ := busWrite_inReset (s := { s with inbox := ops }) hr a n v
      rw [hwrite] at hturn
      exact ⟨r, s.freeCount, hturn, hfits⟩
    · exact ⟨_, s.freeCount + 1, hturn, busReadReply_fitsAccess { s with inbox := ops } a n⟩
  · simpa only [hostTurn, hinbox] using hturn

end Sys2Proof.Machine
end
